-- ==== Sys2Proof/Word.lean ====
section
/-! DEFINITION. Word and address types of the RV32 hart with Sv32, and the constants of 00_scope.md R1-R4. -/

namespace Sys2Proof

/-- A 32-bit word: a register, a virtual address, an instruction or a page-table entry (XLEN = VALEN = 32, R1). -/
abbrev Word := BitVec 32

/-- One byte of memory. -/
abbrev Byte := BitVec 8

/-- A 5-bit register index (R77). -/
abbrev Reg := BitVec 5

/-- A supervisor physical address, SPALEN = 34 bits (R2, R30). -/
abbrev PhysAddr := BitVec 34

/-- A physical page number, PPNLEN = 22 bits (R2). -/
abbrev Ppn := BitVec 22

/-- An index into one page table, 10 bits (R33). -/
abbrev TableIndex := BitVec 10

/-- Bytes of a base page (R1). -/
def pageSize : Nat := 4096

/-- The level of the root page table; the walk goes from level 1 to level 0 (R3). -/
def rootLevel : Nat := 1

end Sys2Proof
end

