-- ==== Sys2Proof/Syntax.lean ====
section
/-! DEFINITION. The instructions: one constructor per row of spec/opcode_table.json (30_encoding.md R78), with the
operands of its rule in 42_instructions.md. -/

namespace Sys2Proof

/-- The 21 instructions. Immediates are the raw 12 bits of R77; `aq` and `rl` are the acquire and release bits. -/
inductive Instr
  /-- `lb rd, imm(rs1)`, R141. -/
  | lb (rd rs1 : Reg) (imm : BitVec 12)
  /-- `lh rd, imm(rs1)`, R142. -/
  | lh (rd rs1 : Reg) (imm : BitVec 12)
  /-- `lw rd, imm(rs1)`, R143. -/
  | lw (rd rs1 : Reg) (imm : BitVec 12)
  /-- `lbu rd, imm(rs1)`, R144. -/
  | lbu (rd rs1 : Reg) (imm : BitVec 12)
  /-- `lhu rd, imm(rs1)`, R145. -/
  | lhu (rd rs1 : Reg) (imm : BitVec 12)
  /-- `sb rs2, imm(rs1)`, R146. -/
  | sb (rs2 rs1 : Reg) (imm : BitVec 12)
  /-- `sh rs2, imm(rs1)`, R147. -/
  | sh (rs2 rs1 : Reg) (imm : BitVec 12)
  /-- `sw rs2, imm(rs1)`, R148. -/
  | sw (rs2 rs1 : Reg) (imm : BitVec 12)
  /-- `lr.w rd, (rs1)`, R149. -/
  | lrW (rd rs1 : Reg) (aq rl : Bool)
  /-- `sc.w rd, rs2, (rs1)`, R150. -/
  | scW (rd rs2 rs1 : Reg) (aq rl : Bool)
  /-- `amoswap.w rd, rs2, (rs1)`, R151. -/
  | amoswapW (rd rs2 rs1 : Reg) (aq rl : Bool)
  /-- `amoadd.w rd, rs2, (rs1)`, R152. -/
  | amoaddW (rd rs2 rs1 : Reg) (aq rl : Bool)
  /-- `amoxor.w rd, rs2, (rs1)`, R153. -/
  | amoxorW (rd rs2 rs1 : Reg) (aq rl : Bool)
  /-- `amoand.w rd, rs2, (rs1)`, R154. -/
  | amoandW (rd rs2 rs1 : Reg) (aq rl : Bool)
  /-- `amoor.w rd, rs2, (rs1)`, R155. -/
  | amoorW (rd rs2 rs1 : Reg) (aq rl : Bool)
  /-- `amomin.w rd, rs2, (rs1)`, R156. -/
  | amominW (rd rs2 rs1 : Reg) (aq rl : Bool)
  /-- `amomax.w rd, rs2, (rs1)`, R157. -/
  | amomaxW (rd rs2 rs1 : Reg) (aq rl : Bool)
  /-- `amominu.w rd, rs2, (rs1)`, R158. -/
  | amominuW (rd rs2 rs1 : Reg) (aq rl : Bool)
  /-- `amomaxu.w rd, rs2, (rs1)`, R159. -/
  | amomaxuW (rd rs2 rs1 : Reg) (aq rl : Bool)
  /-- `fence pred, succ`, R160; `rs1` and `rd` are fields the instruction ignores (R82). -/
  | fence (fm pred succ : BitVec 4) (rs1 rd : Reg)
  /-- `sfence.vma rs1, rs2`, R161. -/
  | sfenceVma (rs1 rs2 : Reg)
  deriving DecidableEq, Repr

end Sys2Proof
end

