-- ==== Sys2Proof/Decode.lean ====
section
/-! DEFINITION. Instruction words: fields (30_encoding.md R76, R77), the decoder, total on any bytes and rejecting by
name (R78, R82), the encoder, and the match and mask columns of R78. All of it is general knowledge by the spec's own
account (G10). -/

namespace Sys2Proof

/-- Why a word or a byte string is no instruction of this spec. -/
inductive DecodeError
  /-- Fewer than four bytes. -/
  | truncated
  /-- The word matches no row of R78 (R82: refused, not guessed to be illegal). -/
  | notInTable
  /-- `LR.W` with `rs2 != 0`, reserved (R82). -/
  | reservedLr
  deriving DecidableEq, Repr

/-! Fields of a 32-bit word. Every format of R76 divides the word at the same places. -/

/-- Bits 31:25. -/
def funct7Of (w : Word) : BitVec 7 := w.extractLsb' 25 7
/-- Bits 24:20. -/
def rs2Of (w : Word) : Reg := w.extractLsb' 20 5
/-- Bits 19:15. -/
def rs1Of (w : Word) : Reg := w.extractLsb' 15 5
/-- Bits 14:12. -/
def funct3Of (w : Word) : BitVec 3 := w.extractLsb' 12 3
/-- Bits 11:7. -/
def rdOf (w : Word) : Reg := w.extractLsb' 7 5
/-- Bits 6:0. -/
def opcodeOf (w : Word) : BitVec 7 := w.extractLsb' 0 7

/-- The I-format immediate, bits 31:20 (R77). -/
def immIOf (w : Word) : BitVec 12 := funct7Of w ++ rs2Of w
/-- The S-format immediate, bits 31:25 then 11:7 (R77). -/
def immSOf (w : Word) : BitVec 12 := funct7Of w ++ rdOf w
/-- Bits 31:27 of an atomic instruction. -/
def funct5Of (w : Word) : BitVec 5 := (funct7Of w).extractLsb' 2 5
/-- Bit 26 of an atomic instruction. -/
def aqOf (w : Word) : Bool := (funct7Of w).getLsbD 1
/-- Bit 25 of an atomic instruction. -/
def rlOf (w : Word) : Bool := (funct7Of w).getLsbD 0
/-- Bits 31:28 of a FENCE. -/
def fmOf (w : Word) : BitVec 4 := (immIOf w).extractLsb' 8 4
/-- Bits 27:24 of a FENCE: PI PO PR PW. -/
def predOf (w : Word) : BitVec 4 := (immIOf w).extractLsb' 4 4
/-- Bits 23:20 of a FENCE: SI SO SR SW. -/
def succOf (w : Word) : BitVec 4 := (immIOf w).extractLsb' 0 4

/-- Opcode `0000011`. -/
def decodeLoad (w : Word) : Except DecodeError Instr :=
  if funct3Of w = 0b000#3 then .ok (.lb (rdOf w) (rs1Of w) (immIOf w))
  else if funct3Of w = 0b001#3 then .ok (.lh (rdOf w) (rs1Of w) (immIOf w))
  else if funct3Of w = 0b010#3 then .ok (.lw (rdOf w) (rs1Of w) (immIOf w))
  else if funct3Of w = 0b100#3 then .ok (.lbu (rdOf w) (rs1Of w) (immIOf w))
  else if funct3Of w = 0b101#3 then .ok (.lhu (rdOf w) (rs1Of w) (immIOf w))
  else .error .notInTable

/-- Opcode `0100011`. -/
def decodeStore (w : Word) : Except DecodeError Instr :=
  if funct3Of w = 0b000#3 then .ok (.sb (rs2Of w) (rs1Of w) (immSOf w))
  else if funct3Of w = 0b001#3 then .ok (.sh (rs2Of w) (rs1Of w) (immSOf w))
  else if funct3Of w = 0b010#3 then .ok (.sw (rs2Of w) (rs1Of w) (immSOf w))
  else .error .notInTable

/-- Opcode `0101111`, funct3 `010`. -/
def decodeAtomic (w : Word) : Except DecodeError Instr :=
  let rd := rdOf w
  let rs2 := rs2Of w
  let rs1 := rs1Of w
  let aq := aqOf w
  let rl := rlOf w
  if funct3Of w ≠ 0b010#3 then .error .notInTable
  else if funct5Of w = 0b00010#5 then
    if rs2 = 0#5 then .ok (.lrW rd rs1 aq rl) else .error .reservedLr
  else if funct5Of w = 0b00011#5 then .ok (.scW rd rs2 rs1 aq rl)
  else if funct5Of w = 0b00001#5 then .ok (.amoswapW rd rs2 rs1 aq rl)
  else if funct5Of w = 0b00000#5 then .ok (.amoaddW rd rs2 rs1 aq rl)
  else if funct5Of w = 0b00100#5 then .ok (.amoxorW rd rs2 rs1 aq rl)
  else if funct5Of w = 0b01100#5 then .ok (.amoandW rd rs2 rs1 aq rl)
  else if funct5Of w = 0b01000#5 then .ok (.amoorW rd rs2 rs1 aq rl)
  else if funct5Of w = 0b10000#5 then .ok (.amominW rd rs2 rs1 aq rl)
  else if funct5Of w = 0b10100#5 then .ok (.amomaxW rd rs2 rs1 aq rl)
  else if funct5Of w = 0b11000#5 then .ok (.amominuW rd rs2 rs1 aq rl)
  else if funct5Of w = 0b11100#5 then .ok (.amomaxuW rd rs2 rs1 aq rl)
  else .error .notInTable

/-- Opcode `0001111`. A FENCE with nonzero `rd`, `rs1` or an unknown `fm` is a FENCE (R82). -/
def decodeFence (w : Word) : Except DecodeError Instr :=
  if funct3Of w = 0b000#3 then .ok (.fence (fmOf w) (predOf w) (succOf w) (rs1Of w) (rdOf w))
  else .error .notInTable

/-- Opcode `1110011`: `SFENCE.VMA` alone. -/
def decodeSystem (w : Word) : Except DecodeError Instr :=
  if funct3Of w = 0b000#3 ∧ funct7Of w = 0b0001001#7 ∧ rdOf w = 0#5 then .ok (.sfenceVma (rs1Of w) (rs2Of w))
  else .error .notInTable

/-- The instruction a word is, or why it is none (R78, R82). -/
def decodeWord (w : Word) : Except DecodeError Instr :=
  if opcodeOf w = 0b0000011#7 then decodeLoad w
  else if opcodeOf w = 0b0100011#7 then decodeStore w
  else if opcodeOf w = 0b0101111#7 then decodeAtomic w
  else if opcodeOf w = 0b0001111#7 then decodeFence w
  else if opcodeOf w = 0b1110011#7 then decodeSystem w
  else .error .notInTable

/-- The word of four bytes, the first the least significant (R75: stored little-endian). -/
def wordOfBytes (b0 b1 b2 b3 : Byte) : Word := b3 ++ b2 ++ b1 ++ b0

/-- The four bytes of a word, the least significant first. -/
def bytesOfWord (w : Word) : List Byte :=
  [w.extractLsb' 0 8, w.extractLsb' 8 8, w.extractLsb' 16 8, w.extractLsb' 24 8]

/-- The first instruction of a byte string and the rest of the string. -/
def decode : List Byte → Except DecodeError (Instr × List Byte)
  | b0 :: b1 :: b2 :: b3 :: rest =>
    match decodeWord (wordOfBytes b0 b1 b2 b3) with
    | .ok i => .ok (i, rest)
    | .error e => .error e
  | _ => .error .truncated

/-- The decoder on an instruction whose bits are `w` as spec/opcode_table.json numbers them. -/
def decodeTableWord (nbits w : Nat) : Option Instr :=
  match decode (bytesOfWord (BitVec.ofNat 32 (w % 2 ^ nbits))) with
  | .ok (i, _) => some i
  | .error _ => none

/-- A word from the six fields all formats share (R76). -/
def joinFields (funct7 : BitVec 7) (rs2 rs1 : Reg) (funct3 : BitVec 3) (rd : Reg) (opcode : BitVec 7) : Word :=
  funct7 ++ rs2 ++ rs1 ++ funct3 ++ rd ++ opcode

/-- I format (R76). -/
def encodeI (imm : BitVec 12) (rs1 : Reg) (funct3 : BitVec 3) (rd : Reg) (opcode : BitVec 7) : Word :=
  joinFields (imm.extractLsb' 5 7) (imm.extractLsb' 0 5) rs1 funct3 rd opcode

/-- S format (R76). -/
def encodeS (imm : BitVec 12) (rs2 rs1 : Reg) (funct3 : BitVec 3) (opcode : BitVec 7) : Word :=
  joinFields (imm.extractLsb' 5 7) rs2 rs1 funct3 (imm.extractLsb' 0 5) opcode

/-- R-atomic format, opcode `0101111`, funct3 `010` (R76, R78). -/
def encodeAtomic (funct5 : BitVec 5) (aq rl : Bool) (rs2 rs1 rd : Reg) : Word :=
  joinFields (funct5 ++ BitVec.ofBool aq ++ BitVec.ofBool rl) rs2 rs1 0b010#3 rd 0b0101111#7

/-- The word of an instruction (R76-R78). -/
def encode : Instr → Word
  | .lb rd rs1 imm => encodeI imm rs1 0b000#3 rd 0b0000011#7
  | .lh rd rs1 imm => encodeI imm rs1 0b001#3 rd 0b0000011#7
  | .lw rd rs1 imm => encodeI imm rs1 0b010#3 rd 0b0000011#7
  | .lbu rd rs1 imm => encodeI imm rs1 0b100#3 rd 0b0000011#7
  | .lhu rd rs1 imm => encodeI imm rs1 0b101#3 rd 0b0000011#7
  | .sb rs2 rs1 imm => encodeS imm rs2 rs1 0b000#3 0b0100011#7
  | .sh rs2 rs1 imm => encodeS imm rs2 rs1 0b001#3 0b0100011#7
  | .sw rs2 rs1 imm => encodeS imm rs2 rs1 0b010#3 0b0100011#7
  | .lrW rd rs1 aq rl => encodeAtomic 0b00010#5 aq rl 0#5 rs1 rd
  | .scW rd rs2 rs1 aq rl => encodeAtomic 0b00011#5 aq rl rs2 rs1 rd
  | .amoswapW rd rs2 rs1 aq rl => encodeAtomic 0b00001#5 aq rl rs2 rs1 rd
  | .amoaddW rd rs2 rs1 aq rl => encodeAtomic 0b00000#5 aq rl rs2 rs1 rd
  | .amoxorW rd rs2 rs1 aq rl => encodeAtomic 0b00100#5 aq rl rs2 rs1 rd
  | .amoandW rd rs2 rs1 aq rl => encodeAtomic 0b01100#5 aq rl rs2 rs1 rd
  | .amoorW rd rs2 rs1 aq rl => encodeAtomic 0b01000#5 aq rl rs2 rs1 rd
  | .amominW rd rs2 rs1 aq rl => encodeAtomic 0b10000#5 aq rl rs2 rs1 rd
  | .amomaxW rd rs2 rs1 aq rl => encodeAtomic 0b10100#5 aq rl rs2 rs1 rd
  | .amominuW rd rs2 rs1 aq rl => encodeAtomic 0b11000#5 aq rl rs2 rs1 rd
  | .amomaxuW rd rs2 rs1 aq rl => encodeAtomic 0b11100#5 aq rl rs2 rs1 rd
  | .fence fm pred succ rs1 rd => encodeI (fm ++ pred ++ succ) rs1 0b000#3 rd 0b0001111#7
  | .sfenceVma rs1 rs2 => joinFields 0b0001001#7 rs2 rs1 0b000#3 0#5 0b1110011#7

/-- The `match` and `mask` columns of R78 for the instruction's row: `w` is of the row iff `w &&& mask = match`. -/
def tableRow : Instr → Word × Word
  | .lb .. => (0x00000003#32, 0x0000707F#32)
  | .lh .. => (0x00001003#32, 0x0000707F#32)
  | .lw .. => (0x00002003#32, 0x0000707F#32)
  | .lbu .. => (0x00004003#32, 0x0000707F#32)
  | .lhu .. => (0x00005003#32, 0x0000707F#32)
  | .sb .. => (0x00000023#32, 0x0000707F#32)
  | .sh .. => (0x00001023#32, 0x0000707F#32)
  | .sw .. => (0x00002023#32, 0x0000707F#32)
  | .lrW .. => (0x1000202F#32, 0xF9F0707F#32)
  | .scW .. => (0x1800202F#32, 0xF800707F#32)
  | .amoswapW .. => (0x0800202F#32, 0xF800707F#32)
  | .amoaddW .. => (0x0000202F#32, 0xF800707F#32)
  | .amoxorW .. => (0x2000202F#32, 0xF800707F#32)
  | .amoandW .. => (0x6000202F#32, 0xF800707F#32)
  | .amoorW .. => (0x4000202F#32, 0xF800707F#32)
  | .amominW .. => (0x8000202F#32, 0xF800707F#32)
  | .amomaxW .. => (0xA000202F#32, 0xF800707F#32)
  | .amominuW .. => (0xC000202F#32, 0xF800707F#32)
  | .amomaxuW .. => (0xE000202F#32, 0xF800707F#32)
  | .fence .. => (0x0000000F#32, 0x0000707F#32)
  | .sfenceVma .. => (0x12000073#32, 0xFE007FFF#32)

end Sys2Proof
end

