-- ==== Sys2Proof/Config.lean ====
section
/-! DEFINITION. What an implementation fixes (the OPEN parameters of 00_scope.md section 4 and 92_eei_decisions.md)
and the free values, which have no body. -/

namespace Sys2Proof

/-- The type of a translated access (R90-R92). -/
inductive AccessType
  | fetch
  | load
  | store
  deriving DecidableEq, Repr

/-- The effective privilege of an access: `Translate` is defined for these two (R93, R94). -/
inductive Privilege
  | U
  | S
  deriving DecidableEq, Repr

/-- Which PTE-update scheme the whole system uses (R122-R124, R133). -/
inductive AdScheme
  /-- A page fault when a needed A or D bit is clear (R123). -/
  | fault
  /-- The hart sets the needed bits itself (R124). -/
  | update
  deriving DecidableEq, Repr

/-- What the walk does with a non-leaf PTE whose D, A or U bit is set (R112). -/
inductive NonleafDau
  | ignore
  | fault
  deriving DecidableEq, Repr

/-- One range of accesses that the PMP predicate answers `false` on: first byte address in `first .. last`, of `size`
bytes, of this type, at this privilege. A finite list of these writes out ANY predicate of R41 (log 18). -/
structure PmpDenial where
  first : Nat
  last : Nat
  size : Nat
  access : AccessType
  priv : Privilege
  deriving DecidableEq, Repr

/-- An access `(va, t, p)` that a hart may make speculatively (R127). -/
structure SpecAccess where
  va : Word
  access : AccessType
  priv : Privilege
  deriving DecidableEq, Repr

/-- The parameters the spec leaves OPEN. A value of this type is a field of `State` that no step changes, so a claim
about every state is a claim about every implementation (log 2). -/
structure Config where
  /-- `PALEN` is 34 plus this (R5, D4: `PALEN >= 34`). -/
  palenExtra : Nat
  adScheme : AdScheme
  /-- `A_SPECULATIVE` (R127). -/
  aSpeculative : Bool
  /-- `HAS_A`: the "A" standard extension is implemented. -/
  hasA : Bool
  nonleafDau : NonleafDau
  /-- The accesses `PmpCheck` refuses (R41); empty is the default, always true (D5). -/
  pmpDenied : List PmpDenial
  /-- `ASIDLEN`, 0 to 9 (G6). -/
  asidLen : Fin 10
  /-- Whether the hart has an address-translation cache (R19); `false` is the spec's own reading (D9). -/
  translationCache : Bool
  deriving DecidableEq, Repr

/-- The default parameters of 95_test_vectors.md section 2: `PALEN = 34`, `PmpCheck` always true,
`NONLEAF_DAU = Ignore`, `AD_SCHEME = Fault`. DESIGN CHOICE, unsafe for claims about the reset state only (log 2). -/
def Config.standard : Config where
  palenExtra := 0
  adScheme := .fault
  aSpeculative := false
  hasA := true
  nonleafDau := .ignore
  pmpDenied := []
  asidLen := 9
  translationCache := false

/-- FREE VALUE: the accesses the hart speculates on in its n-th step, before anything else that step does (R127, U5,
log 20), and so what a translation cache prefetches (log 24). -/
opaque Config.speculation : Nat → List SpecAccess

/-- FREE VALUE: whether the n-th step is one of speculative A updates alone, no instruction, where such steps exist (R127,
U5, log 20). -/
opaque Config.speculatesAlone : Nat → Bool

/-- FREE VALUE: from which cached PTE for its address, if any, the translation of the access of this type in the n-th
step goes on (R19, U4, U12, log 24). -/
opaque Config.cacheChoice : Nat → AccessType → Option Nat

/-- FREE VALUE: whether the failing store-conditional of the n-th step applies the D condition (R137, U6, log 21). -/
opaque Config.failedScDirty : Nat → Bool

/-- FREE VALUE: the bytes, by page offset, that the load-reserved of the n-th step reserves beside the accessed four
(R149, U9, log 22). -/
opaque Config.reservationExtent : Nat → BitVec 4096

/-- FREE VALUE: what an illegal-instruction exception in the n-th step records as trap value; no rule says (log 11). -/
opaque Config.illegalTval : Nat → Word

end Sys2Proof
end

