-- ==== Sys2Proof/Machine/State.lean ====
section
/-! DEFINITION. The state of the machine (10_state.md, and 60_exceptions.md R180 for the trap registers), as plain
data; why a step can stop; the launch state. -/

namespace Sys2Proof.Machine

/-- The privilege modes (R10, R183). Accesses made in machine mode have no meaning in the spec (R10, D13). -/
inductive Mode
  | user
  | supervisor
  | machine
  deriving DecidableEq, Repr

/-- The two named values of `satp.MODE` (R11, R73). -/
inductive SatpMode
  | bare
  | sv32
  deriving DecidableEq, Repr

/-- The `satp` register as the record R12 allows: MODE, ASID, PPN. -/
structure Satp where
  mode : SatpMode
  asid : BitVec 9
  ppn : Ppn
  deriving DecidableEq, Repr

/-- The exceptions of R174, by the spec's names. -/
inductive TrapKind
  | fetchMisaligned
  | fetchAccessFault
  | illegalInstruction
  | loadMisaligned
  | loadAccessFault
  | storeMisaligned
  | storeAccessFault
  | fetchPageFault
  | loadPageFault
  | storePageFault
  deriving DecidableEq, Repr

/-- A leaf PTE as a walk found it: the level it stands at, its physical address, its 32 bits, and whether the mapping
is global by its own G bit or its pointer's (R98, R109). -/
structure Leaf where
  level : Nat
  addr : PhysAddr
  pte : Word
  global : Bool
  deriving DecidableEq, Repr

/-- One PTE that the translation cache holds, of any kind: the ASID it is tagged with, the virtual page it was read
for, the level and the table it was read from, its 32 bits as they were then, and whether the pointer before it had G
set (R19, R20, R62, R109). -/
structure TlbEntry where
  asid : BitVec 9
  vpn : BitVec 20
  level : Nat
  table : Ppn
  pte : Word
  above : Bool
  deriving DecidableEq, Repr

/-- The LR/SC reservation set (R18, R58): the four bytes at virtual address `word`, which stand at the machine-level
physical address `addr`, and the bytes of the same 4 KiB page whose offset is a set bit of `extent`. -/
structure Reservation where
  word : Word
  addr : Nat
  extent : BitVec 4096
  deriving DecidableEq, Repr

/-- An explicit access whose translation has updated a PTE and which has not been performed yet (R131, R132): the
instruction it belongs to (none: the fetch of the next instruction), its virtual address and where it goes. -/
structure Pending where
  job : Option Instr
  va : Word
  pa : PhysAddr
  deriving DecidableEq, Repr

/-- Physical memory (R15): the bytes that do not read 0, by machine-level physical address, addresses rising. -/
abbrev Memory := List Host.Cell

/-- The state of the hart and of physical memory. -/
structure State where
  /-- The parameters of the implementation; no step changes them (R17, D4, D5, D12). -/
  cfg : Config
  /-- Slots of `x0 .. x31`; `x0` is read and written through `State.readReg`, `State.writeReg` (R21). -/
  regs : Vector Word 32
  /-- The virtual address of the instruction being executed (R22). -/
  pc : Word
  /-- The privilege mode (R10). -/
  mode : Mode
  /-- `satp` (R11-R13). -/
  satp : Satp
  /-- `sstatus.SUM` (R14). -/
  sum : Bool
  /-- `MXR` (R23); the launch premise is `false` (D6). -/
  mxr : Bool
  /-- `sstatus.SIE` (R180). -/
  sie : Bool
  /-- `sstatus.SPIE` (R180). -/
  spie : Bool
  /-- `sstatus.SPP`: `true` is supervisor, `false` is user (R180, R181). -/
  spp : Bool
  /-- `mstatus.MIE`: the `m` register of `SIE` (R180). -/
  mie : Bool
  /-- `mstatus.MPIE` (R180). -/
  mpie : Bool
  /-- `mstatus.MPP` (R180). -/
  mpp : Mode
  /-- pc saved by a trap into S-mode (R180). -/
  sepc : Word
  /-- Cause of a trap into S-mode (R174, R180). -/
  scause : Word
  /-- Address recorded by a trap into S-mode (R175, R180). -/
  stval : Word
  /-- Trap vector of S-mode; its BASE field is where the trap goes (R180). -/
  stvec : Word
  /-- pc saved by a trap into M-mode (R180). -/
  mepc : Word
  /-- Cause of a trap into M-mode (R174, R180). -/
  mcause : Word
  /-- Address recorded by a trap into M-mode (R175). -/
  mtval : Word
  /-- Trap vector of M-mode (R180). -/
  mtvec : Word
  /-- Exception codes delegated to S-mode (R180). -/
  medeleg : Word
  /-- The LR/SC reservation set (R18). -/
  reservation : Option Reservation
  /-- The address-translation cache (R19); used only where `cfg.translationCache` says there is one. -/
  tlb : List TlbEntry
  /-- The explicit access that a PTE update has gone before (R131, R132). -/
  pending : Option Pending
  /-- The model's own counter, to which the free values of `Config` are applied (log 35). -/
  free : Nat
  /-- Physical memory, the page tables in it (R15, R16). -/
  mem : Memory
  deriving DecidableEq, Repr

/-- Why a step stops with a fault. -/
inductive Fault
  /-- Raised by `step` when `pc` is not a multiple of 4, which the spec says it always is (R22, R49, R75). Safe: the
  model stops where the spec describes no machine (log 28). -/
  | misalignedPc
  deriving DecidableEq, Repr

/-- Why a step has no meaning. -/
inductive Refusal
  /-- Raised by `exec` for an instruction that has no meaning yet. Safe. -/
  | notModelled (mnemonic : String)
  /-- Raised by every access (fetch, load, store, LR, SC, AMO) made in machine mode, which the spec refuses (R10, R94,
  D13). Safe (log 12). -/
  | machineModeAccess
  /-- Raised by an explicit access whose bytes do not lie in one 4 KiB page, which the spec refuses (R48, D2).
  Safe (log 13). -/
  | pageCrossing
  /-- Raised by an explicit access that is not naturally aligned, which the spec refuses (D2, R142, R149).
  Safe (log 13). -/
  | misalignedAccess
  /-- Raised by LR, SC and the AMOs where `HAS_A` is false: the spec gives them only when it is true. Safe (log 14). -/
  | atomicsAbsent
  /-- Raised by `step` on a word that matches no row of the opcode table, which the spec refuses (R82).
  Safe (log 15). -/
  | notInTable (word : Word)
  /-- Raised by `step` on `LR.W` with `rs2 != 0`, a reserved encoding (R82). Safe (log 15). -/
  | reservedLr (word : Word)
  deriving DecidableEq, Repr

/-- The outcome of an instruction or a step. -/
abbrev Outcome := Host.Outcome State Fault Refusal

/-- The launch state with the given parameters. The spec gives no reset value (R25, R200); decision D10 has the model
start from a launch state, and the values here are the model's (log 3 to log 7). -/
def State.launch (cfg : Config) : State where
  cfg := cfg
  regs := Vector.replicate 32 0#32
  pc := 0#32
  mode := .supervisor
  satp := ⟨.bare, 0#9, 0#22⟩
  sum := false
  mxr := false
  sie := false
  spie := false
  spp := false
  mie := false
  mpie := false
  mpp := .user
  sepc := 0#32
  scause := 0#32
  stval := 0#32
  stvec := 0#32
  mepc := 0#32
  mcause := 0#32
  mtval := 0#32
  mtvec := 0#32
  medeleg := 0#32
  reservation := none
  tlb := []
  pending := none
  free := 0
  mem := []

/-- The machine right after reset: the launch state with the parameters of the test vectors (log 2). -/
def State.reset : State := State.launch Config.standard

end Sys2Proof.Machine
end

