-- ==== Sys2Proof/Machine/Formats.lean ====
section
/-! DEFINITION. The three formats whose figures the source lost: virtual address (20_memory.md R32, R33), physical
address (R34, R35) and page-table entry (R36, R37), and the word layout of `satp` (10_state.md R12). PTE flag bits
stand in Flags.lean. -/

namespace Sys2Proof.Machine

/-- The untranslated page offset `va[11:0]` (R32). -/
def pageOffset (va : Word) : BitVec 12 := va.extractLsb' 0 12

/-- The 20-bit virtual page number `va[31:12]` (R32). -/
def vpnOf (va : Word) : BitVec 20 := va.extractLsb' 12 20

/-- The index into the page table of a level: `VPN[1] = va[31:22]` at the root, `VPN[0] = va[21:12]` at level 0 (R33). -/
def vpnIndex (va : Word) : (level : Nat) → TableIndex
  | 0 => va.extractLsb' 12 10
  | _ + 1 => va.extractLsb' 22 10

/-- `pte.PPN = pte[31:10]` (R36). -/
def ptePpn (pte : Word) : Ppn := pte.extractLsb' 10 22

/-- `PPN[1]`, the upper 12 bits of a physical page number (R35, R36). -/
def ppn1 (ppn : Ppn) : BitVec 12 := ppn.extractLsb' 10 12

/-- `PPN[0]`, the lower 10 bits of a physical page number (R35, R36). -/
def ppn0 (ppn : Ppn) : BitVec 10 := ppn.extractLsb' 0 10

/-- Where PTE `index` of the page table with page number `table` stands: `table * 4096 + index * 4` (R42), the page
number, the index and two zero bits side by side. -/
def pteAddr (table : Ppn) (index : TableIndex) : PhysAddr := table ++ index ++ 0#2

/-- The physical address a leaf maps `va` to (R108): the PTE's PPN and the 12-bit offset at level 0; `PPN[1]` and the
low 22 bits of `va` for a megapage. -/
def leafAddr (level : Nat) (pte va : Word) : PhysAddr :=
  match level with
  | 0 => ptePpn pte ++ pageOffset va
  | _ + 1 => ppn1 (ptePpn pte) ++ va.extractLsb' 0 22

/-- The physical address of Bare mode: the virtual address itself, zero-extended (R38, R39). -/
def bareAddr (va : Word) : PhysAddr := va.setWidth 34

/-- `PALEN`, the implementation's number of physical address bits, at least 34 (R5, D4). -/
def palen (c : Config) : Nat := 34 + c.palenExtra

/-- The machine-level physical address: the supervisor physical address zero-extended to `PALEN` bits, as the number
that indexes memory (R15, R39). -/
def machineAddr (c : Config) (pa : PhysAddr) : Nat := (pa.setWidth (palen c)).toNat

/-- The one bit that stands for a `satp.MODE` value in R12: 0 is Bare, 1 is Sv32. -/
def satpModeBit : SatpMode → Bool
  | .bare => false
  | .sv32 => true

/-- `satp` as the 32-bit word of R12: MODE 31, ASID 30:22, PPN 21:0. -/
def satpWord (r : Satp) : Word := BitVec.ofBool (satpModeBit r.mode) ++ r.asid ++ r.ppn

/-- The record of a `satp` word (R12). -/
def satpOfWord (w : Word) : Satp where
  mode := if w.getLsbD 31 then .sv32 else .bare
  asid := w.extractLsb' 22 9
  ppn := w.extractLsb' 0 22

/-- The bits of `satp.ASID` that the implementation has: the low `ASIDLEN`, the others reading zero (R12). -/
def implementedAsid (c : Config) (asid : BitVec 9) : BitVec 9 :=
  (asid.setWidth c.asidLen.val).setWidth 9

/-- The address-space identifier in force (R12, R20). -/
def State.asid (s : State) : BitVec 9 := implementedAsid s.cfg s.satp.asid

/-- `satp` as it reads: the unimplemented high ASID bits are zero (R12). -/
def State.satpRead (s : State) : Word := satpWord (Satp.mk s.satp.mode s.asid s.satp.ppn)

end Sys2Proof.Machine
end

