-- ==== Sys2Proof/Machine/Flags.lean ====
section
/-! DEFINITION. Single bits. The hart has no arithmetic flags (42_instructions.md: "this hardware has no flags: none,
always"); what it has are the flag bits of a page-table entry (20_memory.md R36, 30_encoding.md R70-R74, R84) and the
bits of the status register (10_state.md R14, 60_exceptions.md R180). -/

namespace Sys2Proof.Machine

/-- V, bit 0: valid (R71, R96). -/
def pteV (pte : Word) : Bool := pte.getLsbD 0
/-- R, bit 1: readable (R101). -/
def pteR (pte : Word) : Bool := pte.getLsbD 1
/-- W, bit 2: writable (R102). -/
def pteW (pte : Word) : Bool := pte.getLsbD 2
/-- X, bit 3: executable (R100). -/
def pteX (pte : Word) : Bool := pte.getLsbD 3
/-- U, bit 4: accessible to user mode (R103). -/
def pteU (pte : Word) : Bool := pte.getLsbD 4
/-- G, bit 5: global mapping (R109). -/
def pteG (pte : Word) : Bool := pte.getLsbD 5
/-- A, bit 6: accessed (R120). -/
def pteA (pte : Word) : Bool := pte.getLsbD 6
/-- D, bit 7: dirty (R121). -/
def pteD (pte : Word) : Bool := pte.getLsbD 7
/-- RSW, bits 9:8: software's, read by nothing in the machine (R111). -/
def pteRsw (pte : Word) : BitVec 2 := pte.extractLsb' 8 2

/-- `MakePTE` (R84): a PTE from its fields. -/
def makePte (ppn : Ppn) (rsw : BitVec 2) (d a g u x w r v : Bool) : Word :=
  ppn ++ rsw ++ BitVec.ofBool d ++ BitVec.ofBool a ++ BitVec.ofBool g ++ BitVec.ofBool u ++ BitVec.ofBool x ++
    BitVec.ofBool w ++ BitVec.ofBool r ++ BitVec.ofBool v

/-- The bits a translation may set in a leaf PTE: A, and D where `dirty` (R124). -/
def neededBits (dirty : Bool) : Word := if dirty then 0xC0#32 else 0x40#32

/-- The leaf PTE with its A bit set, and its D bit where `dirty`; every other bit as it was (R124). -/
def setNeeded (dirty : Bool) (pte : Word) : Word := pte ||| neededBits dirty

/-- One bit at a place of a status word. -/
def bitAt (b : Bool) (place : Nat) : Word := if b then 1#32 <<< place else 0#32

/-- The two bits of `mstatus.MPP` for a mode: 0 user, 1 supervisor, 3 machine. PRESUMED (log 9). -/
def modeCode : Mode → Word
  | .user => 0#32
  | .supervisor => 1#32
  | .machine => 3#32

/-- `sstatus` as a word: SUM at bit 18 (R14), MXR at bit 19 (G11); SIE 1, SPIE 5, SPP 8 PRESUMED (log 9). -/
def State.sstatus (s : State) : Word :=
  bitAt s.sie 1 ||| bitAt s.spie 5 ||| bitAt s.spp 8 ||| bitAt s.sum 18 ||| bitAt s.mxr 19

/-- `mstatus` as a word: the bits of `sstatus`, of which SUM is visible at the same bit 18 (R14), and MIE 3, MPIE 7,
MPP 12:11 PRESUMED (log 9). -/
def State.mstatus (s : State) : Word :=
  s.sstatus ||| bitAt s.mie 3 ||| bitAt s.mpie 7 ||| (modeCode s.mpp <<< 11)

end Sys2Proof.Machine
end

