-- ==== Sys2Proof/Machine/Operands.lean ====
section
/-! DEFINITION. Operand forms and data operations: effective addresses (42_instructions.md R162), extension of loaded
values (R141-R145), what a store writes (R146-R148), what an AMO computes (R151-R159, R163). -/

namespace Sys2Proof.Machine

/-- `x[i]`; `x0` reads zero (R21). -/
def State.readReg (s : State) (r : Reg) : Word :=
  if r = 0#5 then 0#32 else s.regs[r.toNat]'r.isLt

/-- `x[i] <- v`; a write to `x0` is discarded (R21). -/
def State.writeReg (s : State) (r : Reg) (v : Word) : State :=
  if r = 0#5 then s else { s with regs := s.regs.set r.toNat v r.isLt }

/-- `pc <- pc + 4`, modulo `2^32` (R22, R164). -/
def State.advance (s : State) : State := { s with pc := s.pc + 4#32 }

/-- Effective address of a load or store: `(x[rs1] + sext_12(imm)) mod 2^32` (R162). -/
def State.effAddr (s : State) (rs1 : Reg) (imm : BitVec 12) : Word := s.readReg rs1 + imm.signExtend 32

/-- `sext_8`: the low byte, sign-extended to 32 bits (R141). -/
def sext8 (v : Word) : Word := (v.setWidth 8).signExtend 32
/-- `sext_16` (R142). -/
def sext16 (v : Word) : Word := (v.setWidth 16).signExtend 32
/-- `zext_8` (R144). -/
def zext8 (v : Word) : Word := (v.setWidth 8).setWidth 32
/-- `zext_16` (R145). -/
def zext16 (v : Word) : Word := (v.setWidth 16).setWidth 32

/-- The smaller as signed 32-bit integers (R156, R163). -/
def minSigned (a b : Word) : Word := if a.toInt ≤ b.toInt then a else b
/-- The larger as signed (R157). -/
def maxSigned (a b : Word) : Word := if a.toInt ≤ b.toInt then b else a
/-- The smaller as unsigned (R158). -/
def minUnsigned (a b : Word) : Word := if a.toNat ≤ b.toNat then a else b
/-- The larger as unsigned (R159). -/
def maxUnsigned (a b : Word) : Word := if a.toNat ≤ b.toNat then b else a

end Sys2Proof.Machine
end

