-- ==== Sys2Proof/Machine/Ops.lean ====
section
/-! DEFINITION. Physical memory (20_memory.md R43, R44), the PMP predicate (R41), the reservation set (R58), taking an
exception and returning from one (60_exceptions.md R174, R180, R181). -/

namespace Sys2Proof.Machine

/-- What a byte of memory that is not listed reads as. The spec gives memory no reset contents (R25).
DESIGN CHOICE 0, unsafe (log 7). -/
def unlistedByte : Byte := 0#8

/-- The byte `M[a]`. -/
def Memory.read : Memory → Nat → Byte
  | [], _ => unlistedByte
  | (x, b) :: m, a => if a = x then b else Memory.read m a

/-- `M[a] <- v`, keeping addresses rising and listing no byte that an unlisted address reads as. -/
def Memory.write : Memory → Nat → Byte → Memory
  | [], a, v => if v = unlistedByte then [] else [(a, v)]
  | (x, b) :: m, a, v =>
    if a < x then (if v = unlistedByte then (x, b) :: m else (a, v) :: (x, b) :: m)
    else if a = x then (if v = unlistedByte then m else (a, v) :: m)
    else (x, b) :: Memory.write m a v

/-- Every listed address is at least `lo`, addresses strictly rise, and no listed byte is the unlisted one. -/
def Memory.wfFrom : Nat → Memory → Bool
  | _, [] => true
  | lo, (x, b) :: m => decide (lo ≤ x) && decide (b ≠ unlistedByte) && Memory.wfFrom (x + 1) m

/-- The canonical form of memory. -/
def Memory.wf (m : Memory) : Bool := Memory.wfFrom 0 m

/-- `PhysRead(pa, n)` as a number: `M[pa] + 256 * M[pa+1] + ...` (R44). -/
def physReadNat (m : Memory) (a : Nat) : Nat → Nat
  | 0 => 0
  | n + 1 => (m.read a).toNat + 256 * physReadNat m (a + 1) n

/-- `PhysRead(pa, n)` as a word, for `n` up to 4 (R44). -/
def physRead (m : Memory) (a n : Nat) : Word := BitVec.ofNat 32 (physReadNat m a n)

/-- `PhysWrite(pa, n, v)`: byte `v[8i+7:8i]` at `pa + i` for `0 <= i < n` (R44). -/
def physWrite (m : Memory) (a : Nat) : Nat → Word → Memory
  | 0, _ => m
  | n + 1, v => physWrite (m.write a (v.setWidth 8)) (a + 1) n (v >>> 8)

/-- A denial covers the access (log 18). -/
def PmpDenial.covers (d : PmpDenial) (pa : PhysAddr) (n : Nat) (t : AccessType) (p : Privilege) : Bool :=
  decide (d.first ≤ pa.toNat) && decide (pa.toNat ≤ d.last) && decide (d.size = n) && decide (d.access = t) &&
    decide (d.priv = p)

/-- `PmpCheck(pa, n, t, p)` (R41). -/
def pmpCheck (c : Config) (pa : PhysAddr) (n : Nat) (t : AccessType) (p : Privilege) : Bool :=
  !c.pmpDenied.any (fun d => PmpDenial.covers d pa n t p)

/-- The privilege an access of the hart has: that of its mode, and none in machine mode, whose accesses the spec gives
no meaning (R10, R94, D13). -/
def Mode.privilege : Mode → Option Privilege
  | .user => some .U
  | .supervisor => some .S
  | .machine => none

/-- The reservation set contains the four bytes at `ea`, which is 4-byte aligned (R149, R150): it is the reserved word,
or all four bytes are among the set's further bytes in the page. -/
def Reservation.contains (r : Reservation) (ea : Word) : Bool :=
  r.word == ea ||
    (vpnOf r.word == vpnOf ea &&
      (List.range 4).all fun i => r.extent.getLsbD ((pageOffset ea).toNat + i))

/-- The byte of memory at a machine-level physical address is in the reservation set, whose bytes lie in one page
(R58), so in one physical page too. -/
def Reservation.holdsByte (r : Reservation) (x : Nat) : Bool :=
  (decide (r.addr ≤ x) && decide (x < r.addr + 4)) ||
    (decide (x / pageSize = r.addr / pageSize) && r.extent.getLsbD (x % pageSize))

/-- Some of the `n` bytes of memory from `a` are in the reservation set. -/
def Reservation.touched (r : Reservation) (a n : Nat) : Bool := (List.range n).any fun i => r.holdsByte (a + i)

/-- A valid reservation contains the four bytes at `ea` (R150). -/
def State.reserved (s : State) (ea : Word) : Bool :=
  match s.reservation with
  | none => false
  | some r => r.contains ea

/-- The exception code of a trap (R174). -/
def TrapKind.code : TrapKind → Nat
  | .fetchMisaligned => 0
  | .fetchAccessFault => 1
  | .illegalInstruction => 2
  | .loadMisaligned => 4
  | .loadAccessFault => 5
  | .storeMisaligned => 6
  | .storeAccessFault => 7
  | .fetchPageFault => 12
  | .loadPageFault => 13
  | .storePageFault => 15

/-- The page fault of an access type (R115, R170-R172). -/
def pageFaultOf : AccessType → TrapKind
  | .fetch => .fetchPageFault
  | .load => .loadPageFault
  | .store => .storePageFault

/-- The access fault of an access type (R176). -/
def accessFaultOf : AccessType → TrapKind
  | .fetch => .fetchAccessFault
  | .load => .loadAccessFault
  | .store => .storeAccessFault

/-- The BASE field of a trap-vector register, its bits 31:2, as an address. PRESUMED layout (log 10). -/
def vectorBase (tvec : Word) : Word := tvec &&& 0xFFFFFFFC#32

/-- The trap goes to S-mode: its code is delegated and the hart is not in M-mode (R180). -/
def State.delegates (s : State) (k : TrapKind) : Bool :=
  decide (s.mode ≠ .machine) && s.medeleg.getLsbD k.code

/-- `raise`: the exception `Trap(kind, va)` is taken. The instruction has written nothing but a PTE update already
made, and `pc` still holds its address (R180, R185). Into S-mode where the code is delegated, else into M-mode with
the `m` registers, as the supplement of R180 says (log 8). -/
def State.takeTrap (s : State) (k : TrapKind) (tval : Word) : State :=
  if s.delegates k then
    { s with
      sepc := s.pc, scause := BitVec.ofNat 32 k.code, stval := tval
      spp := decide (s.mode = .supervisor), spie := s.sie, sie := false
      mode := .supervisor, pc := vectorBase s.stvec, pending := none }
  else
    { s with
      mepc := s.pc, mcause := BitVec.ofNat 32 k.code, mtval := tval
      mpp := s.mode, mpie := s.mie, mie := false
      mode := .machine, pc := vectorBase s.mtvec, pending := none }

/-- What `SRET` does (R181): `mode <- SPP, SIE <- SPIE, SPIE <- 1, SPP <- U, pc <- sepc`. The spec gives SRET no
encoding and no row of the opcode table, so no instruction of the model runs it (log 29). -/
def State.returnFromTrap (s : State) : State :=
  { s with
    mode := if s.spp then .supervisor else .user
    sie := s.spie, spie := true, spp := false, pc := s.sepc }

end Sys2Proof.Machine
end

