-- ==== Sys2Proof/Machine/Translate.lean ====
section
/-! DEFINITION. The translation of one access (40_translation.md R90-R117), the accessed and dirty bits (41_ad_bits.md),
the address-translation cache (10_state.md R19, 20_memory.md R62) and speculative A updates (R127). -/

namespace Sys2Proof.Machine

/-- What a PTE is at a level of the walk. -/
inductive PteKind
  | invalid
  | pointer
  | leaf
  deriving DecidableEq, Repr

/-- V first, and then no other bit of an invalid PTE (R96); the reserved permissions (R97); pointer or leaf by R and X
(R72, R99); reserved bits of a pointer (R112); a pointer has nowhere to point at level 0 (R99). -/
def pteKind (c : Config) (level : Nat) (pte : Word) : PteKind :=
  if !pteV pte then .invalid
  else if !pteR pte && pteW pte then .invalid
  else if !pteR pte && !pteX pte then
    if decide (c.nonleafDau = .fault) && (pteD pte || pteA pte || pteU pte) then .invalid
    else if level = 0 then .invalid
    else .pointer
  else .leaf

/-- What one PTE of the walk turns out to be. -/
inductive Examined
  | pageFault
  | accessFault
  | pointer (pte : Word)
  | leaf (pte : Word)
  deriving DecidableEq, Repr

/-- Reads one PTE: the PMP check of its address as a supervisor load of 4 bytes, one 4-byte read, and what it is
(R41, R50, R95, R93). -/
def examinePte (c : Config) (m : Memory) (level : Nat) (addr : PhysAddr) : Examined :=
  if pmpCheck c addr 4 .load .S then
    let pte := physRead m (machineAddr c addr) 4
    match pteKind c level pte with
    | .invalid => .pageFault
    | .pointer => .pointer pte
    | .leaf => .leaf pte
  else .accessFault

/-- How a walk ends. -/
inductive WalkResult
  | pageFault
  | accessFault
  | leaf (found : Leaf)
  deriving DecidableEq, Repr

/-- The walk from the table `table` of a level down (R93, R95, R99). `global` is the G bit of the pointers so far (R109). -/
def walkFrom (c : Config) (m : Memory) (va : Word) : (level : Nat) → (table : Ppn) → (global : Bool) → WalkResult
  | 0, table, global =>
    match examinePte c m 0 (pteAddr table (vpnIndex va 0)) with
    | .leaf pte => .leaf ⟨0, pteAddr table (vpnIndex va 0), pte, global || pteG pte⟩
    | .pointer _ => .pageFault
    | .pageFault => .pageFault
    | .accessFault => .accessFault
  | level + 1, table, global =>
    match examinePte c m (level + 1) (pteAddr table (vpnIndex va (level + 1))) with
    | .leaf pte => .leaf ⟨level + 1, pteAddr table (vpnIndex va (level + 1)), pte, global || pteG pte⟩
    | .pointer pte => walkFrom c m va level (ptePpn pte) (global || pteG pte)
    | .pageFault => .pageFault
    | .accessFault => .accessFault

/-- The two-level walk from the root table that `satp` holds (R13, R93). -/
def State.walk (s : State) (va : Word) : WalkResult := walkFrom s.cfg s.mem va rootLevel s.satp.ppn false

/-- The U check (R103, R104, R105, R116). -/
def userPermits (sum : Bool) (t : AccessType) (p : Privilege) (pte : Word) : Bool :=
  match p with
  | .U => pteU pte
  | .S => !pteU pte || (decide (t ≠ .fetch) && sum)

/-- The R, W and X checks of an access type (R100, R101, R102). -/
def rwxPermits (mxr : Bool) (t : AccessType) (pte : Word) : Bool :=
  match t with
  | .fetch => pteX pte
  | .load => pteR pte || (mxr && pteX pte)
  | .store => pteW pte

/-- A leaf grants the access: permissions, U, megapage alignment (R100-R106). -/
def State.leafPermits (s : State) (t : AccessType) (p : Privilege) (lf : Leaf) : Bool :=
  rwxPermits s.mxr t lf.pte && userPermits s.sum t p lf.pte && (lf.level == 0 || ppn0 (ptePpn lf.pte) == 0#10)

/-- Some bit the access needs is clear: A, or D for a store (R107, R137). `dirty` is false only for a failing
store-conditional that applies the A condition alone (R137, U6). -/
def needsUpdate (t : AccessType) (dirty : Bool) (pte : Word) : Bool :=
  !pteA pte || (decide (t = .store) && !pteD pte && dirty)

/-- How a translation ends. -/
inductive Translation
  | pageFault
  | accessFault
  /-- The physical address; nothing was written. -/
  | done (pa : PhysAddr)
  /-- The physical address, and the leaf PTE at `addr` that the hart must first set to `pte` (R124, R132). -/
  | update (pa addr : PhysAddr) (pte : Word)
  deriving DecidableEq, Repr

/-- What follows once the walk has its leaf (R93): the checks, then A and D under the system's scheme, then the address. -/
def State.useLeaf (s : State) (va : Word) (t : AccessType) (p : Privilege) (dirty : Bool) (lf : Leaf) : Translation :=
  if !s.leafPermits t p lf then .pageFault
  else if !needsUpdate t dirty lf.pte then .done (leafAddr lf.level lf.pte va)
  else match s.cfg.adScheme with
    | .fault => .pageFault
    | .update =>
      if pmpCheck s.cfg lf.addr 4 .store .S then
        .update (leafAddr lf.level lf.pte va) lf.addr (setNeeded (decide (t = .store) && dirty) lf.pte)
      else .accessFault

/-- What follows once a walk has ended, for an access of this type and privilege. -/
def State.useWalk (s : State) (va : Word) (t : AccessType) (p : Privilege) (dirty : Bool) : WalkResult → Translation
  | .pageFault => .pageFault
  | .accessFault => .accessFault
  | .leaf lf => s.useLeaf va t p dirty lf

/-- `Translate(va, t, p)` of R93: cache-free, over the current contents of memory. -/
def State.translateByWalk (s : State) (va : Word) (t : AccessType) (p : Privilege) (dirty : Bool) : Translation :=
  match s.satp.mode with
  | .bare => .done (bareAddr va)
  | .sv32 => s.useWalk va t p dirty (s.walk va)

/-- A cached PTE maps global mappings: by its own G bit, or by that of the pointer before it (R109). -/
def TlbEntry.global (e : TlbEntry) : Bool := e.above || (pteV e.pte && pteG e.pte)

/-- A cached PTE was read for the page of `va`. A leaf of level 1, by R72 any valid PTE with one of R, W, X set, is for
every page of its megapage (R98), a reserved one (R97) too. DESIGN CHOICE (log 24). -/
def TlbEntry.covers (e : TlbEntry) (va : Word) : Bool :=
  if e.level ≠ 0 ∧ pteV e.pte ∧ (pteR e.pte ∨ pteW e.pte ∨ pteX e.pte) then e.vpn.extractLsb' 10 10 == va.extractLsb' 22 10
  else e.vpn == vpnOf va

/-- A cached PTE is for `va` in the address space in force (R20, R62): it was read for its page, and it is global or
tagged with the current ASID. -/
def TlbEntry.hits (e : TlbEntry) (asid : BitVec 9) (va : Word) : Bool :=
  (e.global || e.asid == asid) && e.covers va

/-- The cached PTE as the leaf a walk for `va` found. -/
def TlbEntry.leaf (e : TlbEntry) (va : Word) : Leaf :=
  ⟨e.level, pteAddr e.table (vpnIndex va e.level), e.pte, e.above || pteG e.pte⟩

/-- The cached PTEs for `va`. -/
def State.cacheHits (s : State) (va : Word) : List TlbEntry := s.tlb.filter fun e => e.hits s.asid va

/-- The walk in which a cached PTE stands for the read of that PTE, whatever memory holds now (R19, R110, H7): an
invalid one fails, a pointer goes on in the table it names, a leaf is the leaf. Where A or D must be set in the leaf the
walk starts again at that PTE in memory, since the update must check the PTE there (R125, R126). -/
def State.walkCached (s : State) (va : Word) (t : AccessType) (p : Privilege) (dirty : Bool) (e : TlbEntry) :
    WalkResult :=
  match pteKind s.cfg e.level e.pte with
  | .invalid => .pageFault
  | .pointer => walkFrom s.cfg s.mem va (e.level - 1) (ptePpn e.pte) (e.above || pteG e.pte)
  | .leaf =>
    if s.leafPermits t p (e.leaf va) && needsUpdate t dirty e.pte && decide (s.cfg.adScheme = .update) then
      walkFrom s.cfg s.mem va e.level e.table e.above
    else .leaf (e.leaf va)

/-- The cached PTE an access goes on from, where there is a cache and the hart's free choice is to use it
(R19, U4, U12). -/
def State.cachedPte (s : State) (va : Word) (t : AccessType) : Option TlbEntry :=
  if s.cfg.translationCache then
    match Config.cacheChoice s.free t with
    | none => none
    | some k => (s.cacheHits va)[k]?
  else none

/-- The walk of an access: from the root in memory, or from a cached PTE (log 24). -/
def State.lookup (s : State) (va : Word) (t : AccessType) (p : Privilege) (dirty : Bool) : WalkResult :=
  match s.cachedPte va t with
  | none => s.walk va
  | some e => s.walkCached va t p dirty e

/-- The translation of an access. With no cache it is R93's; with one, cached PTEs may be used instead (log 24). Bare
mode translates nothing (R38). -/
def State.translate (s : State) (va : Word) (t : AccessType) (p : Privilege) (dirty : Bool) : Translation :=
  match s.satp.mode with
  | .bare => .done (bareAddr va)
  | .sv32 => s.useWalk va t p dirty (s.lookup va t p dirty)

/-- The cache takes up the PTE that a walk for `va` reads in the table of a level, where PMP lets it be read. -/
def State.cachePte (s : State) (va : Word) (level : Nat) (table : Ppn) (above : Bool) : State :=
  let addr := pteAddr table (vpnIndex va level)
  let e : TlbEntry := ⟨s.asid, vpnOf va, level, table, physRead s.mem (machineAddr s.cfg addr) 4, above⟩
  if pmpCheck s.cfg addr 4 .load .S && !s.tlb.contains e then { s with tlb := e :: s.tlb } else s

/-- The cache takes up the PTE that a walk for `va` reads next after a cached pointer. -/
def State.cacheNext (s : State) (va : Word) (e : TlbEntry) : State :=
  match pteKind s.cfg e.level e.pte with
  | .pointer => s.cachePte va (e.level - 1) (ptePpn e.pte) (e.above || pteG e.pte)
  | _ => s

/-- The cache, where there is one, takes up every PTE that a walk for `va` may read: the root PTE, and the PTE after
each pointer it holds for `va`, that root PTE among them. An entry stays until an SFENCE.VMA removes it, and using it
stays the hart's choice (log 24). -/
def State.fillCache (s : State) (va : Word) : State :=
  if s.cfg.translationCache && decide (s.satp.mode = .sv32) then
    let s1 := s.cachePte va rootLevel s.satp.ppn false
    (s1.cacheHits va).foldl (fun x e => x.cacheNext va e) s1
  else s

/-- The write of a PTE by the translation: 4 bytes at its physical address (R124, R125). A reservation that holds any of
these bytes is lost, so that no store-conditional undoes the update (H4, log 22). -/
def State.writePte (s : State) (addr : PhysAddr) (pte : Word) : State :=
  { s with
    mem := physWrite s.mem (machineAddr s.cfg addr) 4 pte
    reservation := s.reservation.filter fun r => !r.touched (machineAddr s.cfg addr) 4 }

/-- A speculative access sets A, never D, in the leaf its walk finds if that leaf grants it; it raises nothing (R127). -/
def State.setAccessed (s : State) (a : SpecAccess) : State :=
  match s.walk a.va with
  | .leaf lf =>
    if s.leafPermits a.access a.priv lf && !pteA lf.pte && pmpCheck s.cfg lf.addr 4 .store .S then
      s.writePte lf.addr (setNeeded false lf.pte)
    else s
  | _ => s

/-- One speculative access: the A update where the implementation makes such updates, and a fill of the cache where
there is one. -/
def State.speculateOne (s : State) (a : SpecAccess) : State :=
  (if s.cfg.aSpeculative && decide (s.cfg.adScheme = .update) then s.setAccessed a else s).fillCache a.va

/-- What the hart does of its own accord between two steps: the speculative accesses of R127, any number of them, of
free choice. Under Bare there is nothing to walk. -/
def State.speculate (s : State) : State :=
  if decide (s.satp.mode = .sv32) &&
      ((s.cfg.aSpeculative && decide (s.cfg.adScheme = .update)) || s.cfg.translationCache) then
    (Config.speculation s.free).foldl State.speculateOne s
  else s

/-- Which cached PTEs `SFENCE.VMA` removes (R161, R62): for every virtual address or the page of one, and for every
address space, global mappings included, or the non-global mappings of one. R161 compares ASIDs with `x[rs2]`; its bits
31:9, which no ASID has, and the unimplemented bits of the ASID are ignored. PRESUMED (log 32). -/
def TlbEntry.flushed (e : TlbEntry) (c : Config) (va : Option Word) (asid : Option Word) : Bool :=
  (match va with
    | none => true
    | some a => e.covers a) &&
  (match asid with
    | none => true
    | some a => !e.global && e.asid == implementedAsid c (a.setWidth 9))

/-- The cache after an `SFENCE.VMA` (R161, R62). -/
def State.flushCache (s : State) (va : Option Word) (asid : Option Word) : State :=
  { s with tlb := s.tlb.filter fun e => !e.flushed s.cfg va asid }

end Sys2Proof.Machine
end

