-- ==== Sys2Proof/WellFormed.lean ====
section
/-! DEFINITION. Which instructions an implementation has. Operand ranges are in the types of `Instr` (5-bit
registers, 12-bit immediates), so the one check left is the extension an instruction belongs to. -/

namespace Sys2Proof

/-- The instruction belongs to the "A" standard extension (42_instructions.md sections 4 and 5). -/
def Instr.isAtomic : Instr → Bool
  | .lb .. => false
  | .lh .. => false
  | .lw .. => false
  | .lbu .. => false
  | .lhu .. => false
  | .sb .. => false
  | .sh .. => false
  | .sw .. => false
  | .lrW .. => true
  | .scW .. => true
  | .amoswapW .. => true
  | .amoaddW .. => true
  | .amoxorW .. => true
  | .amoandW .. => true
  | .amoorW .. => true
  | .amominW .. => true
  | .amomaxW .. => true
  | .amominuW .. => true
  | .amomaxuW .. => true
  | .fence .. => false
  | .sfenceVma .. => false

/-- LR, SC and the AMOs exist only when `HAS_A = true` (R149-R159). -/
def Instr.wellFormed (c : Config) (i : Instr) : Bool :=
  c.hasA || !i.isAtomic

end Sys2Proof
end

