-- ==== Sys2Proof/Machine/Access.lean ====
section
/-! DEFINITION. One explicit access: the stages of 20_memory.md R40, the two steps of 41_ad_bits.md R131 and R132, the
exceptions of 60_exceptions.md R173, R176; the fetch of an instruction (42_instructions.md R140). -/

namespace Sys2Proof.Machine

/-- What becomes of an explicit access before it is performed. -/
inductive Grant
  /-- The spec gives it no meaning. -/
  | refused (r : Refusal)
  /-- It raises an exception, taken in this state. -/
  | trap (k : TrapKind) (s : State)
  /-- The PTE update was this step (R131); the access is pending in this state. -/
  | updated (s : State)
  /-- It is performed at this machine-level physical address, in this state. -/
  | granted (addr : Nat) (s : State)
  deriving DecidableEq, Repr

/-- Stages 2 and 3 of R40: the PMP check of the explicit access, unless no access is made (`checked` false: a failing
store-conditional), then the machine-level address. -/
def State.checkPmp (s : State) (pa : PhysAddr) (n : Nat) (t : AccessType) (p : Privilege) (checked : Bool) : Grant :=
  if checked && !pmpCheck s.cfg pa n t p then .trap (accessFaultOf t) s
  else .granted (machineAddr s.cfg pa) s

/-- Stage 1 of R40 on a new access: translate; where a PTE must be updated, that update is the whole step and the
access is left pending (R131, R132). The cache takes up what a translation that answers an address read, and nothing of
one that ends in a fault: when a cache is filled the spec leaves open (R19, Q16). DESIGN CHOICE (log 24). -/
def State.grantFresh (s : State) (job : Option Instr) (va : Word) (n : Nat) (t : AccessType) (p : Privilege)
    (dirty checked : Bool) : Grant :=
  match s.translate va t p dirty with
  | .pageFault => .trap (pageFaultOf t) s
  | .accessFault => .trap (accessFaultOf t) s
  | .update pa addr pte => .updated { (s.writePte addr pte).fillCache va with pending := some ⟨job, va, pa⟩ }
  | .done pa => (s.fillCache va).checkPmp pa n t p checked

/-- The access that a PTE update has gone before goes on at its translated address; any other access is a new one. -/
def State.resolve (s : State) (job : Option Instr) (va : Word) (n : Nat) (t : AccessType) (p : Privilege)
    (dirty checked : Bool) : Grant :=
  match s.pending with
  | some q =>
    if q.job = job ∧ q.va = va then { s with pending := none }.checkPmp q.pa n t p checked
    else { s with pending := none }.grantFresh job va n t p dirty checked
  | none => s.grantFresh job va n t p dirty checked

/-- One explicit access of `n` bytes at `va`, for the instruction `job` (none: a fetch). The spec gives meaning to an
access that lies in one page (R48), is naturally aligned (D2) and is made in U- or S-mode (R10). -/
def State.grant (s : State) (job : Option Instr) (va : Word) (n : Nat) (t : AccessType) (dirty checked : Bool) : Grant :=
  if (pageOffset va).toNat + n > pageSize then .refused .pageCrossing
  else if va.toNat % n ≠ 0 then .refused .misalignedAccess
  else match s.mode.privilege with
    | none => .refused .machineModeAccess
    | some p => s.resolve job va n t p dirty checked

/-- The outcome of an instruction or a fetch that makes one explicit access and goes on with `run` at its physical
address. -/
def Grant.andThen (g : Grant) (va : Word) (run : Nat → State → Outcome) : Outcome :=
  match g with
  | .refused r => .refused r
  | .trap k s => .next (s.takeTrap k va)
  | .updated s => .next s
  | .granted a s => run a s

/-- The refusal of a word that is no instruction of the spec (R82). -/
def DecodeError.refusal (e : DecodeError) (w : Word) : Refusal :=
  match e with
  | .truncated => .notInTable w
  | .notInTable => .notInTable w
  | .reservedLr => .reservedLr w

/-- Runs a fetched word. -/
def runWord (run : Instr → State → Outcome) (w : Word) (s : State) : Outcome :=
  match decodeWord w with
  | .ok i => run i s
  | .error e => .refused (DecodeError.refusal e w)

/-- `Fetch(pc)` (R93, R140), then the instruction. -/
def State.fetchAndRun (s : State) (run : Instr → State → Outcome) : Outcome :=
  if s.pc.toNat % 4 ≠ 0 then .fault .misalignedPc
  else (s.grant none s.pc 4 .fetch true true).andThen s.pc fun a s1 => runWord run (physRead s1.mem a 4) s1

/-- What every step does first: the speculative accesses (R127), and a fresh argument for the free values. -/
def State.beforeStep (s : State) : State := { s.speculate with free := s.free + 1 }

/-- One step of the hart: the pending explicit access of an instruction goes on (R131, R132), else the next
instruction is fetched and run. -/
def State.hartStep (s : State) (run : Instr → State → Outcome) : Outcome :=
  match s.pending with
  | some ⟨some i, _, _⟩ => run i s
  | _ => s.fetchAndRun run

/-- The third kind of step of a hart (R127, 00_scope.md section 6): the step that is due is one of speculative A updates
alone. With `A_SPECULATIVE = true`, under scheme `Update` and Sv32, it is enabled in every state and may come at any
time, before, between and after instructions; elsewhere there is no such step. -/
def State.speculativeStep (s : State) : Bool :=
  s.cfg.aSpeculative && decide (s.cfg.adScheme = .update) && decide (s.satp.mode = .sv32) && Config.speculatesAlone s.free

/-- One step: speculation alone, or what the hart speculates on and then its own step. -/
def State.stepWith (s : State) (run : Instr → State → Outcome) : Outcome :=
  if s.speculativeStep then .next s.beforeStep else s.beforeStep.hartStep run

/-- The machine-level address the next fetch reads, in a state whose fetch succeeds; of `pc` itself elsewhere. -/
def State.fetchAddr (s : State) : Nat :=
  match s.grant none s.pc 4 .fetch true true with
  | .granted a _ => a
  | .updated s1 =>
    match s1.pending with
    | some q => machineAddr s.cfg q.pa
    | none => machineAddr s.cfg (bareAddr s.pc)
  | _ => machineAddr s.cfg (bareAddr s.pc)

/-- `s` with the word stored where the next instruction is fetched, and no data access pending in front of it. -/
def State.placeWord (s : State) (w : Word) : State :=
  let s0 := match s.pending with
    | some ⟨some _, _, _⟩ => { s with pending := none }
    | _ => s
  { s0 with mem := physWrite s0.mem s0.fetchAddr 4 w }

end Sys2Proof.Machine
end

