-- ==== Sys2Proof/Machine/Atomics.lean ====
section
/-! DEFINITION. Load-reserved, store-conditional and the AMOs (42_instructions.md sections 4 and 5), which the hart has
when `HAS_A = true`. The `aq` and `rl` bits order the access for remote harts only (R130) and change nothing here. -/

namespace Sys2Proof.Machine

/-- An instruction of the "A" extension, on a hart that has it. -/
def withAtomics (s : State) (run : Outcome) : Outcome := if s.cfg.hasA then run else .refused .atomicsAbsent

/-- `LR.W`, R149: an access of type Load; the reservation set holds the four bytes and any others of their page. -/
def execLrW (rd rs1 : Reg) (aq rl : Bool) (s : State) : Outcome :=
  let ea := s.readReg rs1
  withAtomics s <| (s.grant (some (.lrW rd rs1 aq rl)) ea 4 .load true true).andThen ea fun a s1 =>
    .next { s1.writeReg rd (physRead s1.mem a 4) with
            reservation := some ⟨ea, a, Config.reservationExtent s1.free⟩ }.advance

/-- `SC.W`, R150: translated as a Store whether or not it succeeds (R92). A failing one writes no memory, and whether
it needs the D bit is a free value (R137, U6). -/
def execScW (rd rs2 rs1 : Reg) (aq rl : Bool) (s : State) : Outcome :=
  let ea := s.readReg rs1
  let v := s.readReg rs2
  let success := s.reserved ea
  withAtomics s <|
    (s.grant (some (.scW rd rs2 rs1 aq rl)) ea 4 .store (success || Config.failedScDirty s.free) success).andThen ea
      fun a s1 =>
        .next { (if success then { s1 with mem := physWrite s1.mem a 4 v }.writeReg rd 0#32
                 else s1.writeReg rd 1#32) with reservation := none }.advance

/-- What the AMOs share: ONE access of type Store (R92), the word replaced by `op old x[rs2]`, the old word in `rd`
(42_instructions.md section 5). -/
def amo (i : Instr) (op : Word → Word → Word) (rd rs2 rs1 : Reg) (s : State) : Outcome :=
  let ea := s.readReg rs1
  let v := s.readReg rs2
  withAtomics s <| (s.grant (some i) ea 4 .store true true).andThen ea fun a s1 =>
    .next ({ s1 with mem := physWrite s1.mem a 4 (op (physRead s1.mem a 4) v) }.writeReg rd
      (physRead s1.mem a 4)).advance

/-- `AMOSWAP.W`, R151. -/
def execAmoswapW (rd rs2 rs1 : Reg) (aq rl : Bool) (s : State) : Outcome :=
  amo (.amoswapW rd rs2 rs1 aq rl) (fun _ v => v) rd rs2 rs1 s

/-- `AMOADD.W`, R152. -/
def execAmoaddW (rd rs2 rs1 : Reg) (aq rl : Bool) (s : State) : Outcome :=
  amo (.amoaddW rd rs2 rs1 aq rl) (fun old v => old + v) rd rs2 rs1 s

/-- `AMOXOR.W`, R153. -/
def execAmoxorW (rd rs2 rs1 : Reg) (aq rl : Bool) (s : State) : Outcome :=
  amo (.amoxorW rd rs2 rs1 aq rl) (fun old v => old ^^^ v) rd rs2 rs1 s

/-- `AMOAND.W`, R154. -/
def execAmoandW (rd rs2 rs1 : Reg) (aq rl : Bool) (s : State) : Outcome :=
  amo (.amoandW rd rs2 rs1 aq rl) (fun old v => old &&& v) rd rs2 rs1 s

/-- `AMOOR.W`, R155. -/
def execAmoorW (rd rs2 rs1 : Reg) (aq rl : Bool) (s : State) : Outcome :=
  amo (.amoorW rd rs2 rs1 aq rl) (fun old v => old ||| v) rd rs2 rs1 s

/-- `AMOMIN.W`, R156. -/
def execAmominW (rd rs2 rs1 : Reg) (aq rl : Bool) (s : State) : Outcome :=
  amo (.amominW rd rs2 rs1 aq rl) minSigned rd rs2 rs1 s

/-- `AMOMAX.W`, R157. -/
def execAmomaxW (rd rs2 rs1 : Reg) (aq rl : Bool) (s : State) : Outcome :=
  amo (.amomaxW rd rs2 rs1 aq rl) maxSigned rd rs2 rs1 s

/-- `AMOMINU.W`, R158. -/
def execAmominuW (rd rs2 rs1 : Reg) (aq rl : Bool) (s : State) : Outcome :=
  amo (.amominuW rd rs2 rs1 aq rl) minUnsigned rd rs2 rs1 s

/-- `AMOMAXU.W`, R159. -/
def execAmomaxuW (rd rs2 rs1 : Reg) (aq rl : Bool) (s : State) : Outcome :=
  amo (.amomaxuW rd rs2 rs1 aq rl) maxUnsigned rd rs2 rs1 s

end Sys2Proof.Machine
end

