-- ==== Sys2Proof/Machine/Fences.lean ====
section
/-! DEFINITION. The fences (42_instructions.md section 6). -/

namespace Sys2Proof.Machine

/-- `FENCE`, R160: it orders accesses as other harts and devices observe them; on a single hart it only advances the
pc. It reads and writes no register and makes no access. -/
def execFence (_fm _pred _succ : BitVec 4) (_rs1 _rd : Reg) (s : State) : Outcome := .next s.advance

/-- `SFENCE.VMA`, R161: in U-mode an illegal instruction; else the cached translations it names are removed, global
mappings only where `rs2` is `x0` (R62). It makes no access. What an illegal instruction records is a free value. -/
def execSfenceVma (rs1 rs2 : Reg) (s : State) : Outcome :=
  match s.mode with
  | .user => .next (s.takeTrap .illegalInstruction (Config.illegalTval s.free))
  | _ =>
    .next (s.flushCache (if rs1 = 0#5 then none else some (s.readReg rs1))
      (if rs2 = 0#5 then none else some (s.readReg rs2))).advance

end Sys2Proof.Machine
end

