-- ==== Sys2Proof/Machine/Loads.lean ====
section
/-! DEFINITION. The loads (42_instructions.md section 2). -/

namespace Sys2Proof.Machine

/-- What the loads share: one access of type Load (R91), the value extended into `rd`, `pc + 4` (R141-R145, R162). -/
def load (i : Instr) (rd : Reg) (ea : Word) (n : Nat) (extend : Word → Word) (s : State) : Outcome :=
  (s.grant (some i) ea n .load true true).andThen ea fun a s1 =>
    .next (s1.writeReg rd (extend (physRead s1.mem a n))).advance

/-- `LB`, R141. -/
def execLb (rd rs1 : Reg) (imm : BitVec 12) (s : State) : Outcome :=
  load (.lb rd rs1 imm) rd (s.effAddr rs1 imm) 1 sext8 s

/-- `LH`, R142. -/
def execLh (rd rs1 : Reg) (imm : BitVec 12) (s : State) : Outcome :=
  load (.lh rd rs1 imm) rd (s.effAddr rs1 imm) 2 sext16 s

/-- `LW`, R143. -/
def execLw (rd rs1 : Reg) (imm : BitVec 12) (s : State) : Outcome :=
  load (.lw rd rs1 imm) rd (s.effAddr rs1 imm) 4 id s

/-- `LBU`, R144. -/
def execLbu (rd rs1 : Reg) (imm : BitVec 12) (s : State) : Outcome :=
  load (.lbu rd rs1 imm) rd (s.effAddr rs1 imm) 1 zext8 s

/-- `LHU`, R145. -/
def execLhu (rd rs1 : Reg) (imm : BitVec 12) (s : State) : Outcome :=
  load (.lhu rd rs1 imm) rd (s.effAddr rs1 imm) 2 zext16 s

end Sys2Proof.Machine
end

