-- ==== Sys2Proof/Machine/Stores.lean ====
section
/-! DEFINITION. The stores (42_instructions.md section 3). -/

namespace Sys2Proof.Machine

/-- What the stores share: one access of type Store (R92), the low `n` bytes of `v` written, `pc + 4` (R146-R148). -/
def store (i : Instr) (ea : Word) (n : Nat) (v : Word) (s : State) : Outcome :=
  (s.grant (some i) ea n .store true true).andThen ea fun a s1 =>
    .next { s1 with mem := physWrite s1.mem a n v }.advance

/-- `SB`, R146. -/
def execSb (rs2 rs1 : Reg) (imm : BitVec 12) (s : State) : Outcome :=
  store (.sb rs2 rs1 imm) (s.effAddr rs1 imm) 1 (s.readReg rs2) s

/-- `SH`, R147. -/
def execSh (rs2 rs1 : Reg) (imm : BitVec 12) (s : State) : Outcome :=
  store (.sh rs2 rs1 imm) (s.effAddr rs1 imm) 2 (s.readReg rs2) s

/-- `SW`, R148. -/
def execSw (rs2 rs1 : Reg) (imm : BitVec 12) (s : State) : Outcome :=
  store (.sw rs2 rs1 imm) (s.effAddr rs1 imm) 4 (s.readReg rs2) s

end Sys2Proof.Machine
end

