-- ==== Sys2Proof/Safety.lean ====
section
/-! DEFINITION. The terms claims use: the invariant of the machine, the launch premises of 70_reset_and_hazards.md
R201-R203, and when a translation cache agrees with the page tables (92_eei_decisions.md D9). The step enforces none
of the premises. -/

namespace Sys2Proof.Machine

/-- What every step keeps: memory canonical and inside the `PALEN`-bit address space (R15), `pc` aligned (R22), and a
pending access within the page offset of its virtual address (R32, R131). -/
structure State.Inv (s : State) : Prop where
  memCanonical : s.mem.wf = true
  memInRange : ∀ c ∈ s.mem, c.1 < 2 ^ palen s.cfg
  pcAligned : s.pc.toNat % 4 = 0
  pendingOffset : ∀ q, s.pending = some q → q.pa.extractLsb' 0 12 = pageOffset q.va

/-- The four bytes of the PTE at a physical address. -/
def State.pteAt (s : State) (addr : PhysAddr) : Word := physRead s.mem (machineAddr s.cfg addr) 4

/-- A PTE address the walk can come to from the current root: an entry of the root table, or an entry of the table a
valid pointer of the root table points to (R26, R202). -/
inductive State.Reaches (s : State) : (level : Nat) → (addr : PhysAddr) → Prop
  | root (index : TableIndex) : State.Reaches s 1 (pteAddr s.satp.ppn index)
  | next (top index : TableIndex)
      (h : pteKind s.cfg 1 (s.pteAt (pteAddr s.satp.ppn top)) = .pointer) :
      State.Reaches s 0 (pteAddr (ptePpn (s.pteAt (pteAddr s.satp.ppn top))) index)

/-- A valid PTE with R = W = X = 0 (R72). -/
def isPointer (pte : Word) : Bool := pteV pte && !pteR pte && !pteW pte && !pteX pte

/-- A valid PTE with any of R, W, X set (R72). -/
def isLeaf (pte : Word) : Bool := pteV pte && (pteR pte || pteW pte || pteX pte)

/-- The obligations of R201 on one PTE of a level: writable pages are readable (5), a pointer has D, A and U clear (6)
and does not stand at level 0 (12), a megapage leaf is aligned (7). -/
def pteObeys (level : Nat) (pte : Word) : Prop :=
  (isLeaf pte = true → pteW pte = true → pteR pte = true) ∧
  (isPointer pte = true → level ≠ 0 ∧ pteD pte = false ∧ pteA pte = false ∧ pteU pte = false) ∧
  (isLeaf pte = true → level ≠ 0 → ppn0 (ptePpn pte) = 0#10)

/-- What premise (a) of R202 asks of every PTE reachable from the current root: the obligations of R201 that one PTE can
meet or miss. -/
def State.TablesObey (s : State) : Prop := ∀ level addr, s.Reaches level addr → pteObeys level (s.pteAt addr)

/-- The premise of R203: every reachable leaf has A set, and D set where it is writable. -/
def State.AdPreset (s : State) : Prop :=
  ∀ level addr, s.Reaches level addr → isLeaf (s.pteAt addr) = true →
    pteA (s.pteAt addr) = true ∧ (pteW (s.pteAt addr) = true → pteD (s.pteAt addr) = true)

/-- Premise (b) of R202 for one store of `n` bytes: it writes no byte of a PTE reachable from the current root. -/
def State.AvoidsTables (s : State) (a n : Nat) : Prop :=
  ∀ level addr, s.Reaches level addr →
    a + n ≤ machineAddr s.cfg addr ∨ machineAddr s.cfg addr + 4 ≤ a

/-- The per-hart premises of R202, and an access in flight or a cached translation from no earlier run (D9, D10). -/
def State.LaunchPremise (s : State) : Prop :=
  s.mode ≠ .machine ∧ s.mxr = false ∧ s.reservation = none ∧ s.pending = none ∧ s.tlb = []

/-- `s` with another root table in force. -/
def State.withRoot (s : State) (root : Ppn) : State := { s with satp := { s.satp with ppn := root } }

/-- Two PTEs are the same mapping: the same page number and the same U, X, W, R and V bits. G, A, D and RSW may differ. -/
def sameMapping (pte pte' : Word) : Prop := pte &&& 0xFFFFFC1F#32 = pte' &&& 0xFFFFFC1F#32

/-- Obligation 8 of R201: a mapping that is marked global in one of the address spaces is the same in all of them. -/
def State.GlobalsAgree (s : State) (roots : List Ppn) : Prop :=
  ∀ r ∈ roots, ∀ r' ∈ roots, ∀ va lf, (s.withRoot r).walk va = .leaf lf → lf.global = true →
    ∃ lf', (s.withRoot r').walk va = .leaf lf' ∧ lf'.level = lf.level ∧ sameMapping lf'.pte lf.pte

/-- The two permitted schemes on the same state (R122). -/
def State.withScheme (s : State) (scheme : AdScheme) : State := { s with cfg := { s.cfg with adScheme := scheme } }

/-- The address of the root PTE that the walk for `va` reads (R42, R95). -/
def State.rootAddr (s : State) (va : Word) : PhysAddr := pteAddr s.satp.ppn (vpnIndex va 1)

/-- The address of the level-0 PTE that the walk for `va` reads when the root PTE is a pointer (R37, R42, R99). -/
def State.nextAddr (s : State) (va : Word) : PhysAddr := pteAddr (ptePpn (s.pteAt (s.rootAddr va))) (vpnIndex va 0)

/-- The walk for `va` reads the PTE of this level at this address: the PMP check lets it read the root PTE, and where
that is a pointer, the level-0 PTE (R93, R95, R113). -/
inductive State.WalkReads (s : State) (va : Word) : (level : Nat) → (addr : PhysAddr) → Prop
  | root (h : pmpCheck s.cfg (s.rootAddr va) 4 .load .S = true) : State.WalkReads s va 1 (s.rootAddr va)
  | next (h : pmpCheck s.cfg (s.rootAddr va) 4 .load .S = true)
      (hp : pteKind s.cfg 1 (s.pteAt (s.rootAddr va)) = .pointer)
      (h0 : pmpCheck s.cfg (s.nextAddr va) 4 .load .S = true) : State.WalkReads s va 0 (s.nextAddr va)

/-- The explicit access an instruction makes. -/
structure Access where
  ea : Word
  size : Nat
  type : AccessType
  /-- Whether the access needs the D bit, if it is a store. -/
  dirty : Bool
  /-- Whether memory is accessed, and so PMP-checked. -/
  checked : Bool
  deriving DecidableEq, Repr

/-- The explicit access of each instruction: loads and LR are of type Load (R91), stores, SC and AMOs of type Store
(R92); the fences make none (R160, R161). -/
def State.accessOf (s : State) : Instr → Option Access
  | .lb _ rs1 imm => some ⟨s.effAddr rs1 imm, 1, .load, true, true⟩
  | .lh _ rs1 imm => some ⟨s.effAddr rs1 imm, 2, .load, true, true⟩
  | .lw _ rs1 imm => some ⟨s.effAddr rs1 imm, 4, .load, true, true⟩
  | .lbu _ rs1 imm => some ⟨s.effAddr rs1 imm, 1, .load, true, true⟩
  | .lhu _ rs1 imm => some ⟨s.effAddr rs1 imm, 2, .load, true, true⟩
  | .sb _ rs1 imm => some ⟨s.effAddr rs1 imm, 1, .store, true, true⟩
  | .sh _ rs1 imm => some ⟨s.effAddr rs1 imm, 2, .store, true, true⟩
  | .sw _ rs1 imm => some ⟨s.effAddr rs1 imm, 4, .store, true, true⟩
  | .lrW _ rs1 _ _ => some ⟨s.readReg rs1, 4, .load, true, true⟩
  | .scW _ _ rs1 _ _ =>
    some ⟨s.readReg rs1, 4, .store, s.reserved (s.readReg rs1) || Config.failedScDirty s.free, s.reserved (s.readReg rs1)⟩
  | .amoswapW _ _ rs1 _ _ => some ⟨s.readReg rs1, 4, .store, true, true⟩
  | .amoaddW _ _ rs1 _ _ => some ⟨s.readReg rs1, 4, .store, true, true⟩
  | .amoxorW _ _ rs1 _ _ => some ⟨s.readReg rs1, 4, .store, true, true⟩
  | .amoandW _ _ rs1 _ _ => some ⟨s.readReg rs1, 4, .store, true, true⟩
  | .amoorW _ _ rs1 _ _ => some ⟨s.readReg rs1, 4, .store, true, true⟩
  | .amominW _ _ rs1 _ _ => some ⟨s.readReg rs1, 4, .store, true, true⟩
  | .amomaxW _ _ rs1 _ _ => some ⟨s.readReg rs1, 4, .store, true, true⟩
  | .amominuW _ _ rs1 _ _ => some ⟨s.readReg rs1, 4, .store, true, true⟩
  | .amomaxuW _ _ rs1 _ _ => some ⟨s.readReg rs1, 4, .store, true, true⟩
  | .fence .. => none
  | .sfenceVma .. => none

/-- What becomes of the access of an instruction. -/
def State.grantOf (s : State) (i : Instr) (a : Access) : Grant := s.grant (some i) a.ea a.size a.type a.dirty a.checked

/-- The cached PTE is what its word of memory holds now, or a leaf in whose word the hart itself has set A or D since,
as scheme `Update` has it do. -/
def TlbEntry.agrees (c : Config) (e : TlbEntry) (now : Word) : Prop :=
  now = e.pte ∨
    (c.adScheme = .update ∧ pteKind c e.level e.pte = .leaf ∧ now = e.pte ||| (now &&& neededBits true))

/-- The cache holds nothing that disagrees with memory (D9): a cached PTE for an address is one that the walk for that
address reads, as memory holds it. -/
def State.CacheAgrees (s : State) : Prop :=
  ∀ e ∈ s.tlb, ∀ va, e.hits s.asid va = true →
    s.WalkReads va e.level (e.leaf va).addr ∧ e.agrees s.cfg (s.pteAt (e.leaf va).addr)

/-- The step from `s` answers `o`, unless it is one of speculative A updates alone (R127), which answers the state before
with what the hart did of its own accord, and no more. -/
def State.StepAnswers (s : State) (o : Outcome) : Prop := step s = if s.speculativeStep then .next s.beforeStep else o

/-- The step from `s` runs the instruction `i` in the state `b`: one whose access is pending, or the one it fetches. -/
inductive State.Executes (s : State) (i : Instr) (b : State) : Prop
  | resumed (va : Word) (pa : PhysAddr) (hs : s.speculativeStep = false) (hq : s.pending = some ⟨some i, va, pa⟩)
      (hb : b = s.beforeStep)
  | fetched (a : Nat) (hs : s.speculativeStep = false) (hq : ∀ q, s.pending = some q → q.job = none) (hp : s.pc.toNat % 4 = 0)
      (hg : s.beforeStep.grant none s.pc 4 .fetch true true = .granted a b)
      (hd : decodeWord (physRead b.mem a 4) = .ok i)

/-- The step from `s` stores to the byte of memory `x` by an explicit store, SC or AMO. -/
def State.Stores (s : State) (x : Nat) : Prop :=
  ∃ i b acc a s1, s.Executes i b ∧ Instr.wellFormed b.cfg i = true ∧ b.accessOf i = some acc ∧ acc.type = .store ∧
    acc.checked = true ∧ b.grantOf i acc = .granted a s1 ∧ a ≤ x ∧ x < a + acc.size

/-- The step from `s` fetches the byte of memory `x`. -/
def State.Fetches (s : State) (x : Nat) : Prop :=
  ∃ a s1, s.speculativeStep = false ∧ (∀ q, s.pending = some q → q.job = none) ∧ s.pc.toNat % 4 = 0 ∧
    s.beforeStep.grant none s.pc 4 .fetch true true = .granted a s1 ∧ a ≤ x ∧ x < a + 4

/-- `t` is `s`, or comes after it in the run. -/
inductive Runs : State → State → Prop
  | refl (s : State) : Runs s s
  | next {s t u : State} (h : step s = .next t) (hr : Runs t u) : Runs s u

/-- Premise (b) of R202 for a run (D9): no explicit store, SC or AMO writes a byte of a PTE reachable from a root in use.
That no instruction writes `satp` or SUM is no premise here: none does (D11). -/
def State.StaticTables (s : State) (roots : List Ppn) : Prop :=
  ∀ u x, Runs s u → u.Stores x → ∀ r ∈ roots, (u.withRoot r).AvoidsTables x 1

/-- Premise (c) of R202 for a run (D9): no explicit store writes a byte that is later fetched. -/
def State.StoresNoLaterFetch (s : State) : Prop :=
  ∀ u w x, Runs s u → Runs u w → u.Stores x → ¬w.Fetches x

/-- The premise of R60 for a run: no byte that is fetched is stored to during the run, before or after. -/
def State.StaticCode (s : State) : Prop :=
  ∀ u w x, Runs s u → Runs s w → u.Stores x → ¬w.Fetches x

/-- The launch premises of R202, R60 and D9 whole, for a hart that may use these root tables: those on the hart; and
under Sv32 tables that meet R201 and stay as they are, and code that stays as it is. The step enforces none of them. -/
structure State.LaunchPremises (s : State) (roots : List Ppn) : Prop where
  hart : s.LaunchPremise
  rootInUse : s.satp.mode = .sv32 → s.satp.ppn ∈ roots
  tablesObey : s.satp.mode = .sv32 → ∀ r ∈ roots, (s.withRoot r).TablesObey
  globalsAgree : s.satp.mode = .sv32 → s.GlobalsAgree roots
  staticTables : s.satp.mode = .sv32 → s.StaticTables roots
  staticCode : s.StaticCode

/-- The access has a meaning in the spec and nothing else in the way of its translation: it is naturally aligned, so in
one page (R48, D2), the mode has the privilege `p` (R10), and no access is pending. -/
def State.Attempts (s : State) (va : Word) (n : Nat) (p : Privilege) : Prop :=
  (pageOffset va).toNat + n ≤ pageSize ∧ va.toNat % n = 0 ∧ s.mode.privilege = some p ∧ s.pending = none

/-- The state's translations are those of the walk: Sv32 is selected and the hart has no translation cache (R93, D9). -/
def State.Walks (s : State) : Prop := s.satp.mode = .sv32 ∧ s.cfg.translationCache = false

/-- Every register that no load, store, atomic or fence writes, and every parameter, is as before: mode, `satp`, the
status bits, the trap registers, the model's counter. -/
def SameSystem (s t : State) : Prop :=
  t.cfg = s.cfg ∧ t.mode = s.mode ∧ t.satp = s.satp ∧ t.sum = s.sum ∧ t.mxr = s.mxr ∧ t.sie = s.sie ∧
  t.spie = s.spie ∧ t.spp = s.spp ∧ t.mie = s.mie ∧ t.mpie = s.mpie ∧ t.mpp = s.mpp ∧ t.sepc = s.sepc ∧
  t.scause = s.scause ∧ t.stval = s.stval ∧ t.stvec = s.stvec ∧ t.mepc = s.mepc ∧ t.mcause = s.mcause ∧
  t.mtval = s.mtval ∧ t.mtvec = s.mtvec ∧ t.medeleg = s.medeleg ∧ t.free = s.free

/-- The cache is as before on a hart that has none; on one that has, an access may have filled it. -/
def SameCache (s t : State) : Prop := s.cfg.translationCache = false → t.tlb = s.tlb

/-- A trap into S-mode was taken from `s` in going to `t` (R180). -/
def TrappedToSupervisor (s t : State) : Prop :=
  t.mode = .supervisor ∧ t.sepc = s.pc ∧ t.pc = vectorBase s.stvec ∧ t.regs = s.regs

/-- A trap into M-mode was taken from `s` in going to `t` (R180). -/
def TrappedToMachine (s t : State) : Prop :=
  t.mode = .machine ∧ t.mepc = s.pc ∧ t.pc = vectorBase s.mtvec ∧ t.regs = s.regs

/-- The table of R117: which access types a leaf with these X, W and R bits passes (`MXR = 0`). -/
def xwrGrants : (x w r : Bool) → AccessType → Bool
  | false, false, true, t => decide (t = .load)
  | false, true, false, _ => false
  | false, true, true, t => decide (t = .load) || decide (t = .store)
  | true, false, false, t => decide (t = .fetch)
  | true, false, true, t => decide (t = .fetch) || decide (t = .load)
  | true, true, false, _ => false
  | true, true, true, _ => true
  | false, false, false, _ => false

/-- The table of R116: which accesses pass the U check, by privilege, the leaf's U bit, access type and SUM. -/
def userGrants : Privilege → (u : Bool) → AccessType → (sum : Bool) → Bool
  | .U, true, _, _ => true
  | .U, false, _, _ => false
  | .S, false, _, _ => true
  | .S, true, .fetch, _ => false
  | .S, true, .load, sum => sum
  | .S, true, .store, sum => sum

/-- The little-endian halfword at an address (R44). -/
def halfAt (m : Memory) (a : Nat) : BitVec 16 := m.read (a + 1) ++ m.read a

/-- The little-endian word at an address (R44). -/
def wordAt (m : Memory) (a : Nat) : Word := m.read (a + 3) ++ m.read (a + 2) ++ m.read (a + 1) ++ m.read a

/-- What no instruction's own effect changes beside its destinations, once its access is performed: `pc` moves on by 4,
the system registers stay, nothing is pending, and a hart without a cache has none (R164, R162). -/
def AdvancesFrom (s t : State) : Prop :=
  t.pc = s.pc + 4#32 ∧ SameSystem s t ∧ t.pending = none ∧ SameCache s t

/-- A load that is granted address `a` completes: `value` of memory at `a` in `rd` (a write to `x0` is discarded), every
other register, all of memory and the reservation as before. -/
def LoadDoes (i : Instr) (rd : Reg) (ea : State → Word) (n : Nat) (value : Memory → Nat → Word) : Prop :=
  ∀ s a s1, s.grant (some i) (ea s) n .load true true = .granted a s1 →
    ∃ t, exec i s = .next t ∧ AdvancesFrom s t ∧ t.mem = s.mem ∧ t.reservation = s.reservation ∧
      ∀ r, t.readReg r = if r = rd ∧ r ≠ 0#5 then value s.mem a else s.readReg r

/-- A store that is granted address `a` completes: byte `k` of `x[rs2]` at `a + k` for each of its `n` bytes, every other
byte, every register and the reservation as before. -/
def StoreDoes (i : Instr) (rs2 : Reg) (ea : State → Word) (n : Nat) : Prop :=
  ∀ s a s1, s.mem.wf = true → s.grant (some i) (ea s) n .store true true = .granted a s1 →
    ∃ t, exec i s = .next t ∧ AdvancesFrom s t ∧ t.reservation = s.reservation ∧ (∀ r, t.readReg r = s.readReg r) ∧
      (∀ k, k < n → t.mem.read (a + k) = (s.readReg rs2).extractLsb' (8 * k) 8) ∧
      ∀ x, (x < a ∨ a + n ≤ x) → t.mem.read x = s.mem.read x

/-- An AMO that is granted address `a` completes: the word at `a` becomes `op old x[rs2]`, the old word goes to `rd` (a
write to `x0` is discarded), every other byte and register and the reservation as before. -/
def AmoDoes (i : Instr) (rd rs2 rs1 : Reg) (op : Word → Word → Word) : Prop :=
  ∀ s a s1, s.mem.wf = true → s.cfg.hasA = true →
    s.grant (some i) (s.readReg rs1) 4 .store true true = .granted a s1 →
    ∃ t, exec i s = .next t ∧ AdvancesFrom s t ∧ t.reservation = s.reservation ∧
      (∀ r, t.readReg r = if r = rd ∧ r ≠ 0#5 then wordAt s.mem a else s.readReg r) ∧
      wordAt t.mem a = op (wordAt s.mem a) (s.readReg rs2) ∧
      ∀ x, (x < a ∨ a + 4 ≤ x) → t.mem.read x = s.mem.read x

end Sys2Proof.Machine
end

