-- ==== Sys2Proof/Certificates/Slice0/Obligations.lean ====
section
/-! DEFINITION. The statements for the provers. The rule each formalises stands in its docstring; the terms they use
are those of Safety.lean. -/

open Sys2Proof Sys2Proof.Machine

/-! ## Encodings -/

/-- Every instruction's word and bytes decode to it, with every operand (30_encoding.md R76-R78). -/
def Obligations.DecodeInvertsEncode : Prop :=
  ∀ i : Instr, decodeWord (encode i) = .ok i ∧ decode (bytesOfWord (encode i)) = .ok (i, [])

/-- A word that decodes has one meaning: the decoded instruction's word is that word. -/
def Obligations.EncodeInvertsDecode : Prop :=
  ∀ (w : Word) (i : Instr), decodeWord w = .ok i → encode i = w

/-- R78: a word is an instruction of a row iff `w & mask = match`. -/
def Obligations.DecodeFollowsTheTable : Prop :=
  ∀ (w : Word) (i : Instr),
    w &&& (tableRow i).2 = (tableRow i).1 ↔ ∃ j, decodeWord w = .ok j ∧ tableRow j = tableRow i

/-- Words of the decoding table of 95_test_vectors.md section 2.7, and an AMO with `aq` and `rl` set (R76). -/
def Obligations.WrittenWordsDecode : Prop :=
  decodeWord 0x0045A303#32 = .ok (.lw 6 11 4) ∧ decodeWord 0x00552223#32 = .ok (.sw 5 10 4) ∧
  decodeWord 0x1005232F#32 = .ok (.lrW 6 10 false false) ∧ decodeWord 0x185523AF#32 = .ok (.scW 7 5 10 false false) ∧
  decodeWord 0x065623AF#32 = .ok (.amoaddW 7 5 12 true true) ∧
  decodeWord 0x0330000F#32 = .ok (.fence 0 3 3 0 0) ∧ decodeWord 0x12B50073#32 = .ok (.sfenceVma 10 11)

/-- R84: `MakePTE` composes a PTE value, and its fields read back. -/
def Obligations.MakePteComposesFields : Prop :=
  ∀ (ppn : Ppn) (rsw : BitVec 2) (d a g u x w r v : Bool),
    (makePte ppn rsw d a g u x w r v).toNat =
      ppn.toNat * 1024 + rsw.toNat * 256 + d.toNat * 128 + a.toNat * 64 + g.toNat * 32 + u.toNat * 16 + x.toNat * 8 +
        w.toNat * 4 + r.toNat * 2 + v.toNat ∧
    ptePpn (makePte ppn rsw d a g u x w r v) = ppn ∧ pteRsw (makePte ppn rsw d a g u x w r v) = rsw ∧
    pteD (makePte ppn rsw d a g u x w r v) = d ∧ pteA (makePte ppn rsw d a g u x w r v) = a ∧
    pteG (makePte ppn rsw d a g u x w r v) = g ∧ pteU (makePte ppn rsw d a g u x w r v) = u ∧
    pteX (makePte ppn rsw d a g u x w r v) = x ∧ pteW (makePte ppn rsw d a g u x w r v) = w ∧
    pteR (makePte ppn rsw d a g u x w r v) = r ∧ pteV (makePte ppn rsw d a g u x w r v) = v

/-- The `satp` word of R12 and its record determine each other, and MODE is bit 31, ASID 30:22, PPN 21:0. -/
def Obligations.SatpWordLayout : Prop :=
  (∀ r : Satp, satpOfWord (satpWord r) = r) ∧ (∀ w : Word, satpWord (satpOfWord w) = w) ∧
  ∀ r : Satp, ((satpWord r).getLsbD 31 = true ↔ r.mode = .sv32) ∧ (satpWord r).extractLsb' 22 9 = r.asid ∧
    (satpWord r).extractLsb' 0 22 = r.ppn

/-- R14: SUM is bit 18 of `sstatus`, and the same bit is visible as bit 18 of `mstatus`. -/
def Obligations.SumIsBit18OfBothStatusWords : Prop :=
  ∀ s : State, s.sstatus.getLsbD 18 = s.sum ∧ s.mstatus.getLsbD 18 = s.sum

/-! ## Steps -/

/-- When the bytes at the address the fetch is granted decode to `i`, the step runs `i`, in the state the fetch leaves:
that before the step but for the hart's own speculation, the model's counter and the cache (R140). The one other thing a
step can be is a step of speculation alone (R127); when it is one is the model's free value (log 20). -/
def Obligations.StepRunsTheFetchedInstruction : Prop :=
  ∀ (s : State) (i : Instr) (a : Nat) (s1 : State),
    (∀ q, s.pending = some q → q.job = none) → s.pc.toNat % 4 = 0 →
    s.beforeStep.grant none s.pc 4 .fetch true true = .granted a s1 →
    decode [s1.mem.read a, s1.mem.read (a + 1), s1.mem.read (a + 2), s1.mem.read (a + 3)] = .ok (i, []) →
    s.StepAnswers (exec i s1) ∧ s1.mem = s.beforeStep.mem ∧ s1.regs = s.regs ∧ s1.pc = s.pc ∧
      s1.reservation = s.beforeStep.reservation ∧ s1.pending = none ∧ SameSystem { s with free := s.free + 1 } s1 ∧
      SameCache s s1

/-- R131, R132: an instruction whose access is pending is not fetched again; the step goes on with it, unless it is one of
speculation alone (R127, log 20).
That the instruction resumes without a new fetch is the model's choice (log 19). -/
def Obligations.StepResumesThePendingAccess : Prop :=
  ∀ (s : State) (i : Instr) (va : Word) (pa : PhysAddr),
    s.pending = some ⟨some i, va, pa⟩ → s.StepAnswers (exec i s.beforeStep)

/-- R82: a fetched word that is no instruction of the table is refused by name, not taken for an illegal instruction. -/
def Obligations.StepRefusesOtherWords : Prop :=
  ∀ (s : State) (a : Nat) (s1 : State),
    (∀ q, s.pending = some q → q.job = none) → s.pc.toNat % 4 = 0 →
    s.beforeStep.grant none s.pc 4 .fetch true true = .granted a s1 →
    (∀ i, physRead s1.mem a 4 &&& (tableRow i).2 ≠ (tableRow i).1) →
    s.StepAnswers (.refused (.notInTable (physRead s1.mem a 4))) ∨
      s.StepAnswers (.refused (.reservedLr (physRead s1.mem a 4)))

/-- R127: what the hart does of its own accord, first in every step, changes no byte of memory but the flag byte of a leaf PTE
that the walk of some access reaches, in which A is clear and whose checks grant that access; there it sets A, never D
or any other bit. It changes nothing else but the cache and the model's counter, and it loses a reservation that holds a
byte it changes (H4). A step may be that alone, with no instruction in it, and only where the implementation speculates so.
When it speculates, and when a step is that alone, is the model's free value (log 20), and that a reservation is lost so is the model's (log 22). -/
def Obligations.SpeculationSetsOnlyAccessedBits : Prop :=
  ∀ s : State, s.mem.wf = true →
    (∃ m l r, s.beforeStep = { s with mem := m, tlb := l, reservation := r, free := s.free + 1 }) ∧
    (∀ x, s.beforeStep.mem.read x ≠ s.mem.read x →
      s.cfg.aSpeculative = true ∧ s.cfg.adScheme = .update ∧ s.satp.mode = .sv32 ∧
      s.beforeStep.mem.read x = s.mem.read x ||| 0x40#8 ∧
      ∃ va t p lf, s.walk va = .leaf lf ∧ s.Reaches lf.level lf.addr ∧ isLeaf (s.pteAt lf.addr) = true ∧
        pteA (s.pteAt lf.addr) = false ∧ s.leafPermits t p lf = true ∧ x = machineAddr s.cfg lf.addr) ∧
    (s.beforeStep.reservation = s.reservation ∨ s.beforeStep.reservation = none) ∧
    (∀ r x, s.reservation = some r → r.holdsByte x = true → s.beforeStep.mem.read x ≠ s.mem.read x →
      s.beforeStep.reservation = none) ∧
    ((step s = .next s.beforeStep ∧ s.cfg.aSpeculative = true ∧ s.cfg.adScheme = .update ∧ s.satp.mode = .sv32) ∨
      step s = s.beforeStep.hartStep exec)

/-- R127, R122: with `A_SPECULATIVE = false`, under scheme `Fault`, or under Bare, there is no speculative update, and no
step of them alone: every step is one of the instruction that is due. -/
def Obligations.NoSpeculativeUpdateUnlessConfigured : Prop :=
  ∀ s : State, (s.cfg.aSpeculative = false ∨ s.cfg.adScheme = .fault ∨ s.satp.mode = .bare) →
    s.beforeStep.mem = s.mem ∧ step s = s.beforeStep.hartStep exec

/-! ## Translation -/

/-- R38: under Bare the virtual address is the physical address, bit for bit, for every access type, privilege and
memory: no page table is read, no permission is checked, no page fault can occur. -/
def Obligations.BareTranslatesNothing : Prop :=
  ∀ (s : State) (m : Memory) (va : Word) (t : AccessType) (p : Privilege) (dirty : Bool), s.satp.mode = .bare →
    { s with mem := m }.translate va t p dirty = .done (bareAddr va) ∧ (bareAddr va).toNat = va.toNat ∧
      machineAddr s.cfg (bareAddr va) = va.toNat

/-- R96: a PTE read at any level with V = 0 fails the translation, whatever its other bits. -/
def Obligations.InvalidPteRaises : Prop :=
  ∀ (s : State) (va : Word) (level : Nat) (addr : PhysAddr) (t : AccessType) (p : Privilege) (dirty : Bool),
    s.satp.mode = .sv32 → s.WalkReads va level addr → pteV (s.pteAt addr) = false →
    s.translateByWalk va t p dirty = .pageFault

/-- R97: a valid PTE with W = 1 and R = 0 fails the translation, at both levels and for every access type. -/
def Obligations.ReservedPermissionsRaise : Prop :=
  ∀ (s : State) (va : Word) (level : Nat) (addr : PhysAddr) (t : AccessType) (p : Privilege) (dirty : Bool),
    s.satp.mode = .sv32 → s.WalkReads va level addr → pteV (s.pteAt addr) = true →
    pteW (s.pteAt addr) = true → pteR (s.pteAt addr) = false →
    s.translateByWalk va t p dirty = .pageFault

/-- R99: a pointer PTE at level 0 has no next level and fails the translation. -/
def Obligations.LastLevelPointerRaises : Prop :=
  ∀ (s : State) (va : Word) (addr : PhysAddr) (t : AccessType) (p : Privilege) (dirty : Bool),
    s.satp.mode = .sv32 → s.WalkReads va 0 addr → isPointer (s.pteAt addr) = true →
    s.translateByWalk va t p dirty = .pageFault

/-- R112: D, A or U set in a pointer: under `Ignore` the PTE is what it is with them clear, under `Fault` the
translation fails. -/
def Obligations.PointerReservedBitsFollowParameter : Prop :=
  (∀ (c : Config) (level : Nat) (pte : Word), c.nonleafDau = .ignore → isPointer pte = true →
    pteKind c level pte = pteKind c level (pte &&& 0xFFFFFF2F#32) ∧ (level ≠ 0 → pteKind c level pte = .pointer)) ∧
  ∀ (s : State) (va : Word) (level : Nat) (addr : PhysAddr) (t : AccessType) (p : Privilege) (dirty : Bool),
    s.satp.mode = .sv32 → s.cfg.nonleafDau = .fault → s.WalkReads va level addr → isPointer (s.pteAt addr) = true →
    (pteD (s.pteAt addr) = true ∨ pteA (s.pteAt addr) = true ∨ pteU (s.pteAt addr) = true) →
    s.translateByWalk va t p dirty = .pageFault

/-- R117: the outcome of a valid, aligned leaf with A = 1 (and D = 1 for stores) that passes the U check, by its X, W
and R bits and the access type, with `MXR = 0`. -/
def Obligations.LeafPermissionTable : Prop :=
  ∀ (s : State) (va : Word) (level : Nat) (addr : PhysAddr) (t : AccessType) (p : Privilege),
    s.satp.mode = .sv32 → s.mxr = false → s.WalkReads va level addr → isLeaf (s.pteAt addr) = true →
    pteA (s.pteAt addr) = true → (t = .store → pteD (s.pteAt addr) = true) →
    (level ≠ 0 → ppn0 (ptePpn (s.pteAt addr)) = 0#10) → userGrants p (pteU (s.pteAt addr)) t s.sum = true →
    s.translateByWalk va t p true =
      if xwrGrants (pteX (s.pteAt addr)) (pteW (s.pteAt addr)) (pteR (s.pteAt addr)) t
      then .done (leafAddr level (s.pteAt addr) va) else .pageFault

/-- R116: the outcome of the U check on such a leaf that passes the R, W and X checks. -/
def Obligations.UserBitTable : Prop :=
  ∀ (s : State) (va : Word) (level : Nat) (addr : PhysAddr) (t : AccessType) (p : Privilege),
    s.satp.mode = .sv32 → s.mxr = false → s.WalkReads va level addr → isLeaf (s.pteAt addr) = true →
    pteA (s.pteAt addr) = true → (t = .store → pteD (s.pteAt addr) = true) →
    (level ≠ 0 → ppn0 (ptePpn (s.pteAt addr)) = 0#10) →
    xwrGrants (pteX (s.pteAt addr)) (pteW (s.pteAt addr)) (pteR (s.pteAt addr)) t = true →
    s.translateByWalk va t p true =
      if userGrants p (pteU (s.pteAt addr)) t s.sum then .done (leafAddr level (s.pteAt addr) va) else .pageFault

/-- R106: a leaf found at level 1 with `PPN[0] != 0` fails every access through it, with the page fault of the access's
type (R115). -/
def Obligations.MisalignedMegapageRaises : Prop :=
  ∀ (s : State) (va : Word) (addr : PhysAddr) (t : AccessType) (p : Privilege) (dirty : Bool),
    s.satp.mode = .sv32 → s.WalkReads va 1 addr → isLeaf (s.pteAt addr) = true →
    ppn0 (ptePpn (s.pteAt addr)) ≠ 0#10 →
    s.translateByWalk va t p dirty = .pageFault ∧
    ∀ (job : Option Instr) (n : Nat) (checked : Bool), s.cfg.translationCache = false → s.Attempts va n p →
      s.grant job va n t dirty checked = .trap (pageFaultOf t) s

/-- R108: the physical address a translation answers is `PPN ++ va[11:0]` for a leaf at level 0 and
`PPN[1] ++ va[21:0]` for one at level 1, which equals `PPN * 4096 + va[21:0]`. -/
def Obligations.PhysicalAddressOfLeaf : Prop :=
  ∀ (s : State) (va : Word) (level : Nat) (addr : PhysAddr) (t : AccessType) (p : Privilege) (dirty : Bool)
    (pa : PhysAddr), s.satp.mode = .sv32 → s.WalkReads va level addr → isLeaf (s.pteAt addr) = true →
    s.translateByWalk va t p dirty = .done pa →
    (level = 0 → pa.toNat = (ptePpn (s.pteAt addr)).toNat * 4096 + va.toNat % 4096) ∧
    (level = 1 → pa.toNat = (ppn1 (ptePpn (s.pteAt addr))).toNat * 2 ^ 22 + va.toNat % 2 ^ 22 ∧
      pa.toNat = (ptePpn (s.pteAt addr)).toNat * 4096 + va.toNat % 2 ^ 22)

/-- R90: a fetch from a page that does not have execute permission raises the fetch page fault, at `pc`. A step of
speculation alone (R127) makes no fetch. -/
def Obligations.UnexecutablePageRaisesFetchFault : Prop :=
  ∀ (s : State) (p : Privilege) (level : Nat) (addr : PhysAddr),
    s.beforeStep.Walks → s.beforeStep.Attempts s.pc 4 p → s.beforeStep.WalkReads s.pc level addr →
    isLeaf (s.beforeStep.pteAt addr) = true → pteX (s.beforeStep.pteAt addr) = false →
    s.StepAnswers (.next (s.beforeStep.takeTrap .fetchPageFault s.pc))

/-- R91: a load or load-reserved whose effective address lies within a page without read permission raises the load
page fault, at that address (`MXR = 0`). -/
def Obligations.UnreadablePageRaisesLoadFault : Prop :=
  ∀ (s : State) (i : Instr) (a : Access) (p : Privilege) (level : Nat) (addr : PhysAddr),
    s.accessOf i = some a → Instr.wellFormed s.cfg i = true → a.type = .load → s.Walks → s.mxr = false →
    s.Attempts a.ea a.size p → s.WalkReads a.ea level addr →
    isLeaf (s.pteAt addr) = true → pteR (s.pteAt addr) = false →
    exec i s = .next (s.takeTrap .loadPageFault a.ea)

/-- R92: a store, store-conditional (succeeding or not) or AMO whose effective address lies within a page without write
permission raises the store page fault, at that address, readable or not; none of them ever raises a load fault. -/
def Obligations.UnwritablePageRaisesStoreFault : Prop :=
  (∀ (s : State) (i : Instr) (a : Access) (p : Privilege) (level : Nat) (addr : PhysAddr),
    s.accessOf i = some a → Instr.wellFormed s.cfg i = true → a.type = .store → s.Walks →
    s.Attempts a.ea a.size p → s.WalkReads a.ea level addr →
    isLeaf (s.pteAt addr) = true → pteW (s.pteAt addr) = false →
    exec i s = .next (s.takeTrap .storePageFault a.ea)) ∧
  ∀ (s : State) (i : Instr) (a : Access) (k : TrapKind) (s1 : State),
    s.accessOf i = some a → a.type = .store → s.grantOf i a = .trap k s1 →
    k = .storePageFault ∨ k = .storeAccessFault

/-- R103: an access that user mode is granted under Sv32 goes through a leaf with U = 1: the one its walk finds, from
the root or (with a cache only) from a cached PTE. -/
def Obligations.UserAccessNeedsUserPage : Prop :=
  ∀ (s : State) (job : Option Instr) (va : Word) (n : Nat) (t : AccessType) (dirty checked : Bool) (a : Nat) (s1 : State),
    s.mode = .user → s.satp.mode = .sv32 → s.pending = none → s.grant job va n t dirty checked = .granted a s1 →
    ∃ lf, s.lookup va t .U dirty = .leaf lf ∧ (s.cfg.translationCache = false → s.walk va = .leaf lf) ∧
      pteKind s.cfg lf.level lf.pte = .leaf ∧ pteU lf.pte = true ∧
      a = machineAddr s.cfg (leafAddr lf.level lf.pte va)

/-- R123: under scheme `Fault`, a clear A bit, or a clear D bit on a write, raises the page fault of the access's type,
which an instruction takes with its effective address and a fetch with `pc`; and translation writes nothing: no access
of any kind is ever a PTE update. -/
def Obligations.ClearBitsRaiseUnderSchemeFault : Prop :=
  (∀ (s : State) (i : Instr) (a : Access) (p : Privilege) (lf : Leaf),
    s.accessOf i = some a → Instr.wellFormed s.cfg i = true → s.cfg.adScheme = .fault → s.Walks →
    s.Attempts a.ea a.size p → s.walk a.ea = .leaf lf →
    (pteA lf.pte = false ∨ (a.type = .store ∧ a.dirty = true ∧ pteD lf.pte = false)) →
    exec i s = .next (s.takeTrap (pageFaultOf a.type) a.ea)) ∧
  (∀ (s : State) (p : Privilege) (lf : Leaf), s.cfg.adScheme = .fault → s.beforeStep.Walks →
    s.beforeStep.Attempts s.pc 4 p → s.beforeStep.walk s.pc = .leaf lf → pteA lf.pte = false →
    step s = .next (s.beforeStep.takeTrap .fetchPageFault s.pc)) ∧
  ∀ (s : State) (job : Option Instr) (va : Word) (n : Nat) (t : AccessType) (dirty checked : Bool) (s1 : State),
    s.cfg.adScheme = .fault → s.grant job va n t dirty checked ≠ .updated s1

/-- R124, R131, R132: under scheme `Update`, an access whose leaf grants it and lacks a needed bit has that leaf PTE
written back with A set, and D set for a write, and every other bit unchanged; the access is then pending at its
physical address. Nothing else changes but a reservation that holds a byte of the PTE, which is lost (H4).
That the update is a whole step, with the access pending, is the model's choice (log 19), and that a reservation is lost
so (log 22). -/
def Obligations.ClearBitsAreSetUnderSchemeUpdate : Prop :=
  ∀ (s : State) (job : Option Instr) (va : Word) (n : Nat) (t : AccessType) (p : Privilege) (dirty checked : Bool)
    (lf : Leaf), s.cfg.adScheme = .update → s.Walks → s.Attempts va n p → s.walk va = .leaf lf →
    s.leafPermits t p lf = true → pmpCheck s.cfg lf.addr 4 .store .S = true →
    (pteA lf.pte = false ∨ (t = .store ∧ dirty = true ∧ pteD lf.pte = false)) →
    ∃ s1 pte, s.grant job va n t dirty checked = .updated s1 ∧
      s1 = { s with mem := physWrite s.mem (machineAddr s.cfg lf.addr) 4 pte,
                    reservation := s.reservation.filter fun r => !r.touched (machineAddr s.cfg lf.addr) 4,
                    pending := some ⟨job, va, leafAddr lf.level lf.pte va⟩ } ∧
      pteA pte = true ∧ pteD pte = (pteD lf.pte || (decide (t = .store) && dirty)) ∧
      ∀ b, b ≠ 6 → b ≠ 7 → pte.getLsbD b = lf.pte.getLsbD b

/-- R26, R134, R121, R125: a PTE update changes one byte of memory, the flag byte of the leaf PTE that the access's walk
finds, which is a leaf in memory and grants the access; in it it sets A, and D for a store alone; it clears no bit and
changes no other byte. Without a cache that walk is the one from the root. -/
def Obligations.PteUpdateOnlySetsAccessedAndDirty : Prop :=
  ∀ (s : State) (job : Option Instr) (va : Word) (n : Nat) (t : AccessType) (dirty checked : Bool) (s1 : State),
    s.mem.wf = true → s.grant job va n t dirty checked = .updated s1 →
    ∃ p lf, s.mode.privilege = some p ∧ s.lookup va t p dirty = .leaf lf ∧
      (s.cfg.translationCache = false → s.walk va = .leaf lf) ∧
      lf.pte = s.pteAt lf.addr ∧ isLeaf lf.pte = true ∧ s.leafPermits t p lf = true ∧
      s1.mem.read (machineAddr s.cfg lf.addr) =
        s.mem.read (machineAddr s.cfg lf.addr) ||| (if t = .store ∧ dirty = true then 0xC0#8 else 0x40#8) ∧
      ∀ x, x ≠ machineAddr s.cfg lf.addr → s1.mem.read x = s.mem.read x

/-- R109, R111, R114: what a leaf answers does not depend on its G and RSW bits, and an update writes them back
unchanged; nor does the walk's translation depend on those bits of any PTE it reads, a pointer or a leaf; nor on
`satp.ASID`. -/
def Obligations.GlobalRswAsidDoNotMatter : Prop :=
  (∀ (s : State) (va : Word) (t : AccessType) (p : Privilege) (dirty : Bool) (lf : Leaf) (pte : Word),
    (∀ b, b ≠ 5 → b ≠ 8 → b ≠ 9 → pte.getLsbD b = lf.pte.getLsbD b) →
    (s.useLeaf va t p dirty lf = .pageFault → s.useLeaf va t p dirty { lf with pte := pte } = .pageFault) ∧
    (s.useLeaf va t p dirty lf = .accessFault → s.useLeaf va t p dirty { lf with pte := pte } = .accessFault) ∧
    (∀ pa, s.useLeaf va t p dirty lf = .done pa → s.useLeaf va t p dirty { lf with pte := pte } = .done pa) ∧
    ∀ pa addr old, s.useLeaf va t p dirty lf = .update pa addr old →
      ∃ new, s.useLeaf va t p dirty { lf with pte := pte } = .update pa addr new ∧
        ∀ b, b ≠ 6 → b ≠ 7 → new.getLsbD b = pte.getLsbD b) ∧
  (∀ (s s' : State) (m : Memory) (va : Word) (t : AccessType) (p : Privilege) (dirty : Bool), s' = { s with mem := m } →
    (∀ b, b ≠ 5 → b ≠ 8 → b ≠ 9 → (s'.pteAt (s.rootAddr va)).getLsbD b = (s.pteAt (s.rootAddr va)).getLsbD b) →
    (pteKind s.cfg 1 (s.pteAt (s.rootAddr va)) = .pointer → ∀ b, b ≠ 5 → b ≠ 8 → b ≠ 9 →
      (s'.pteAt (s.nextAddr va)).getLsbD b = (s.pteAt (s.nextAddr va)).getLsbD b) →
    (s.translateByWalk va t p dirty = .pageFault → s'.translateByWalk va t p dirty = .pageFault) ∧
    (s.translateByWalk va t p dirty = .accessFault → s'.translateByWalk va t p dirty = .accessFault) ∧
    (∀ pa, s.translateByWalk va t p dirty = .done pa → s'.translateByWalk va t p dirty = .done pa) ∧
    ∀ pa addr old, s.translateByWalk va t p dirty = .update pa addr old →
      ∃ new, s'.translateByWalk va t p dirty = .update pa addr new ∧
        ∀ b, b ≠ 6 → b ≠ 7 → new.getLsbD b = (s'.pteAt addr).getLsbD b) ∧
  ∀ (s : State) (asid : BitVec 9) (va : Word) (t : AccessType) (p : Privilege) (dirty : Bool),
    { s with satp := { s.satp with asid := asid } }.translateByWalk va t p dirty = s.translateByWalk va t p dirty

/-- R203: where every reachable leaf has A set, and D where it is writable, the two schemes agree on every walk, no
access of a hart without a cache is a PTE update, nor of one whose cache agrees with memory, and speculation writes no
memory. -/
def Obligations.SchemesAgreeWhenBitsPreset : Prop :=
  ∀ s : State, s.AdPreset →
    (∀ (va : Word) (t : AccessType) (p : Privilege) (dirty : Bool),
      (s.withScheme .fault).translateByWalk va t p dirty = (s.withScheme .update).translateByWalk va t p dirty) ∧
    (∀ (job : Option Instr) (va : Word) (n : Nat) (t : AccessType) (dirty checked : Bool) (s1 : State),
      (s.cfg.translationCache = false ∨ s.CacheAgrees) → s.grant job va n t dirty checked ≠ .updated s1) ∧
    s.beforeStep.mem = s.mem

/-- D9, R114: with a cache that holds nothing that disagrees with the page tables, every translation, whatever cached
PTEs the hart chooses to use, is the cache-free one of R93; and so it is in every state of a run from a state that meets
the launch premises.
What a cache holds and answers is the model's (log 24). -/
def Obligations.AgreeingCacheIsInvisible : Prop :=
  (∀ (s : State) (va : Word) (t : AccessType) (p : Privilege) (dirty : Bool), s.CacheAgrees →
    s.translate va t p dirty = s.translateByWalk va t p dirty) ∧
  ∀ (s u : State) (roots : List Ppn) (va : Word) (t : AccessType) (p : Privilege) (dirty : Bool), s.mem.wf = true →
    s.LaunchPremises roots → Runs s u → u.translate va t p dirty = u.translateByWalk va t p dirty

/-- R19, D9: a cache that agrees with the page tables still does after it is filled, after it is flushed, and after any
step that stores to no byte of a PTE the walk can reach, PTE updates and speculation by the hart among what it does.
What a cache takes up is the model's choice (log 24). -/
def Obligations.FillFlushAndStepKeepAgreement : Prop :=
  (∀ (s : State) (va : Word) (fva fasid : Option Word), s.CacheAgrees →
    (s.fillCache va).CacheAgrees ∧ (s.flushCache fva fasid).CacheAgrees) ∧
  ∀ s t : State, s.mem.wf = true → s.CacheAgrees → (∀ x, s.Stores x → s.AvoidsTables x 1) → step s = .next t →
    t.CacheAgrees

/-- R110, C1: with a cache, the outcome is that of the current table, or that of a cached PTE for the address that is
global or of the current address space, as what it was when it was read: the page fault of an invalid PTE; what the walk
finds in the table that a pointer names; for a leaf, the page fault where its checks fail or (scheme `Fault`) a bit is
clear, what the walk finds at that PTE in memory where a bit is to be set, and its address where it grants the access.
What a cached PTE answers is the model's choice (log 24). -/
def Obligations.TranslationIsWalkedOrCached : Prop :=
  ∀ (s : State) (va : Word) (t : AccessType) (p : Privilege) (dirty : Bool),
    s.translate va t p dirty = s.translateByWalk va t p dirty ∨
    (s.satp.mode = .sv32 ∧ s.cfg.translationCache = true ∧ ∃ e ∈ s.tlb,
      (e.above = true ∨ (pteV e.pte = true ∧ pteG e.pte = true) ∨ e.asid = s.asid) ∧
      (if e.level ≠ 0 ∧ pteV e.pte = true ∧ (pteR e.pte = true ∨ pteW e.pte = true ∨ pteX e.pte = true)
        then e.vpn.extractLsb' 10 10 = va.extractLsb' 22 10 else e.vpn = vpnOf va) ∧
      ((pteKind s.cfg e.level e.pte = .invalid ∧ s.translate va t p dirty = .pageFault) ∨
        (pteKind s.cfg e.level e.pte = .pointer ∧ s.translate va t p dirty =
          s.useWalk va t p dirty
            (walkFrom s.cfg s.mem va (e.level - 1) (ptePpn e.pte) (e.above || pteG e.pte))) ∨
        (pteKind s.cfg e.level e.pte = .leaf ∧
          (if s.leafPermits t p (e.leaf va) = false then s.translate va t p dirty = .pageFault
            else if needsUpdate t dirty e.pte = false then
              s.translate va t p dirty = .done (leafAddr e.level e.pte va)
            else if s.cfg.adScheme = .fault then s.translate va t p dirty = .pageFault
            else s.translate va t p dirty =
              s.useWalk va t p dirty (walkFrom s.cfg s.mem va e.level e.table e.above)))))

/-- R176, R41, R40: a failed PMP check of a PTE read, of a PTE update, or of the explicit access raises the access fault
of the access's own type: under Sv32, under Bare, with a cache, and where a pending access goes on; with no denial an
access never raises one. -/
def Obligations.PmpDenialRaisesAccessFault : Prop :=
  (∀ (s : State) (job : Option Instr) (va : Word) (n : Nat) (t : AccessType) (p : Privilege) (dirty checked : Bool),
    s.Walks → s.Attempts va n p →
    (pmpCheck s.cfg (s.rootAddr va) 4 .load .S = false ∨
      (pmpCheck s.cfg (s.rootAddr va) 4 .load .S = true ∧
        pteKind s.cfg 1 (s.pteAt (s.rootAddr va)) = .pointer ∧ pmpCheck s.cfg (s.nextAddr va) 4 .load .S = false) ∨
      (∃ lf, s.walk va = .leaf lf ∧ s.leafPermits t p lf = true ∧
        (pteA lf.pte = false ∨ (t = .store ∧ dirty = true ∧ pteD lf.pte = false)) ∧ s.cfg.adScheme = .update ∧
        pmpCheck s.cfg lf.addr 4 .store .S = false) ∨
      (∃ pa, checked = true ∧ s.translateByWalk va t p dirty = .done pa ∧ pmpCheck s.cfg pa n t p = false)) →
    s.grant job va n t dirty checked = .trap (accessFaultOf t) s) ∧
  (∀ (s : State) (job : Option Instr) (va : Word) (n : Nat) (t : AccessType) (p : Privilege) (dirty : Bool),
    s.satp.mode = .bare → s.Attempts va n p → pmpCheck s.cfg (bareAddr va) n t p = false →
    s.grant job va n t dirty true = .trap (accessFaultOf t) s) ∧
  (∀ (s : State) (job : Option Instr) (va : Word) (n : Nat) (t : AccessType) (p : Privilege) (dirty : Bool)
    (pa : PhysAddr), s.Attempts va n p → s.translate va t p dirty = .done pa → pmpCheck s.cfg pa n t p = false →
    ∃ l, s.grant job va n t dirty true = .trap (accessFaultOf t) { s with tlb := l }) ∧
  (∀ (s : State) (job : Option Instr) (va : Word) (n : Nat) (t : AccessType) (p : Privilege) (dirty : Bool)
    (pa : PhysAddr), { s with pending := none }.Attempts va n p → s.pending = some ⟨job, va, pa⟩ →
    pmpCheck s.cfg pa n t p = false →
    s.grant job va n t dirty true = .trap (accessFaultOf t) { s with pending := none }) ∧
  ∀ (s : State) (job : Option Instr) (va : Word) (n : Nat) (t : AccessType) (dirty checked : Bool) (k : TrapKind)
    (s1 : State), s.cfg.pmpDenied = [] → s.grant job va n t dirty checked = .trap k s1 → k = pageFaultOf t

/-! ## Exceptions -/

/-- R162, R180, R185: what becomes of its access is the outcome of an instruction. An exception is taken with the
effective address, has the access's type, and finds every register, all of memory and `pc` as the instruction did.
R115, R173: a translation that fails raises the page fault, or the access fault, of the access's type. -/
def Obligations.AccessDecidesTheOutcome : Prop :=
  (∀ (s : State) (i : Instr) (a : Access), s.accessOf i = some a → Instr.wellFormed s.cfg i = true →
    (∀ r, s.grantOf i a = .refused r → exec i s = .refused r) ∧
    (∀ s1, s.grantOf i a = .updated s1 → exec i s = .next s1) ∧
    ∀ k s1, s.grantOf i a = .trap k s1 → exec i s = .next (s1.takeTrap k a.ea) ∧
      (k = pageFaultOf a.type ∨ k = accessFaultOf a.type) ∧ s1.regs = s.regs ∧ s1.mem = s.mem ∧ s1.pc = s.pc ∧
      s1.reservation = s.reservation ∧ SameSystem s s1) ∧
  ∀ (s : State) (job : Option Instr) (va : Word) (n : Nat) (t : AccessType) (p : Privilege) (dirty checked : Bool),
    s.Attempts va n p →
    (s.translate va t p dirty = .pageFault → s.grant job va n t dirty checked = .trap (pageFaultOf t) s) ∧
    (s.translate va t p dirty = .accessFault → s.grant job va n t dirty checked = .trap (accessFaultOf t) s) ∧
    (s.Walks → s.translateByWalk va t p dirty = .pageFault →
      s.grant job va n t dirty checked = .trap (pageFaultOf t) s) ∧
    (s.Walks → s.translateByWalk va t p dirty = .accessFault →
      s.grant job va n t dirty checked = .trap (accessFaultOf t) s)

/-- R140, R175: a fetch that raises takes its exception with `pc`, and no part of an instruction executes. -/
def Obligations.FetchFaultTakesItsTrap : Prop :=
  ∀ (s : State) (k : TrapKind) (s1 : State),
    (∀ q, s.pending = some q → q.job = none) → s.pc.toNat % 4 = 0 →
    s.beforeStep.grant none s.pc 4 .fetch true true = .trap k s1 →
    s.StepAnswers (.next (s1.takeTrap k s.pc)) ∧ (k = .fetchPageFault ∨ k = .fetchAccessFault) ∧ s1.regs = s.regs ∧
      s1.mem = s.beforeStep.mem ∧ s1.pc = s.pc

/-- The supplement of R180: a trap into S-mode sets `sepc`, `scause`, `stval`, SPP, SPIE, SIE, the mode and `pc`; a
trap that is not delegated, or comes from M-mode, does the same to the `m` registers; neither changes anything else.
That the supplement is followed is the model's choice (log 8), and where BASE stands (log 10); so is that a trap leaves
the LR/SC reservation (log 22). -/
def Obligations.TrapEntry : Prop :=
  ∀ (s : State) (k : TrapKind) (v : Word),
    (s.mode ≠ .machine → s.medeleg.getLsbD k.code = true →
      s.takeTrap k v =
        { s with sepc := s.pc, scause := BitVec.ofNat 32 k.code, stval := v, spp := decide (s.mode = .supervisor),
                 spie := s.sie, sie := false, mode := .supervisor, pc := s.stvec &&& 0xFFFFFFFC#32, pending := none }) ∧
    ((s.mode = .machine ∨ s.medeleg.getLsbD k.code = false) →
      s.takeTrap k v =
        { s with mepc := s.pc, mcause := BitVec.ofNat 32 k.code, mtval := v, mpp := s.mode, mpie := s.mie, mie := false,
                 mode := .machine, pc := s.mtvec &&& 0xFFFFFFFC#32, pending := none })

/-- R181: a return from a trap into S-mode restores the mode, the interrupt enable and `pc` of the trapped state, sets
SPIE and makes SPP user.
The trap is that of the supplement of R180, which the model chooses to follow (log 8). The return is an operation on the
state alone, which no instruction and no step of the model runs (log 29). -/
def Obligations.TrapReturnRestores : Prop :=
  ∀ (s : State) (k : TrapKind) (v : Word), s.delegates k = true →
    (s.takeTrap k v).returnFromTrap.mode = s.mode ∧ (s.takeTrap k v).returnFromTrap.pc = s.pc ∧
    (s.takeTrap k v).returnFromTrap.sie = s.sie ∧ (s.takeTrap k v).returnFromTrap.spie = true ∧
    (s.takeTrap k v).returnFromTrap.spp = false

/-- R174: the exception codes, and no two exceptions share one. -/
def Obligations.CauseCodes : Prop :=
  TrapKind.code .fetchPageFault = 12 ∧ TrapKind.code .loadPageFault = 13 ∧ TrapKind.code .storePageFault = 15 ∧
  TrapKind.code .fetchAccessFault = 1 ∧ TrapKind.code .loadAccessFault = 5 ∧ TrapKind.code .storeAccessFault = 7 ∧
  TrapKind.code .fetchMisaligned = 0 ∧ TrapKind.code .illegalInstruction = 2 ∧ TrapKind.code .loadMisaligned = 4 ∧
  TrapKind.code .storeMisaligned = 6 ∧ ∀ j k : TrapKind, j.code = k.code → j = k

/-- R131, R132: an instruction whose access needs a PTE update does that update alone; whatever the hart speculates on
in between, in steps of its own or not (R127), the instruction then goes on at the translated address, that of R108 in the leaf its walk found, with no
further update and no page fault.
That the access resumes without a new fetch or translation is the model's choice (log 19), and that the update may lose
a reservation (log 22). -/
def Obligations.UpdateStepThenAccessStep : Prop :=
  ∀ (s : State) (i : Instr) (a : Access) (s1 : State),
    s.accessOf i = some a → Instr.wellFormed s.cfg i = true → s.grantOf i a = .updated s1 →
    exec i s = .next s1 ∧ s1.regs = s.regs ∧ s1.pc = s.pc ∧
    (s1.reservation = s.reservation ∨ s1.reservation = none) ∧ SameSystem s s1 ∧
    ∃ p lf pa, s.mode.privilege = some p ∧ s.lookup a.ea a.type p a.dirty = .leaf lf ∧
      (s.cfg.translationCache = false → s.walk a.ea = .leaf lf) ∧ pa = leafAddr lf.level lf.pte a.ea ∧
      s1.pending = some ⟨some i, a.ea, pa⟩ ∧
      ∀ u : State, u.cfg = s1.cfg → u.mode = s1.mode → u.pending = s1.pending →
        u.StepAnswers (exec i u.beforeStep) ∧ u.beforeStep.pending = s1.pending ∧
        ∀ dirty checked, ((checked = true → pmpCheck s.cfg pa a.size a.type p = true) →
            ∃ s2, u.beforeStep.grant (some i) a.ea a.size a.type dirty checked = .granted (machineAddr s.cfg pa) s2 ∧
              s2.mem = u.beforeStep.mem) ∧
          (checked = true → pmpCheck s.cfg pa a.size a.type p = false →
            ∃ s2, u.beforeStep.grant (some i) a.ea a.size a.type dirty checked = .trap (accessFaultOf a.type) s2 ∧
              s2.mem = u.beforeStep.mem)

/-! ## When an access is granted -/

/-- R38, R40: under Bare, an aligned access of U- or S-mode that PMP does not refuse is performed, at its own address. -/
def Obligations.BareAccessIsGranted : Prop :=
  ∀ (s : State) (job : Option Instr) (va : Word) (n : Nat) (t : AccessType) (p : Privilege) (dirty checked : Bool),
    s.satp.mode = .bare → s.Attempts va n p → (checked = true → pmpCheck s.cfg (bareAddr va) n t p = true) →
    s.grant job va n t dirty checked = .granted va.toNat s

/-- R40, R107, R108: under Sv32 without a cache, an aligned access whose leaf grants it and has the bits it needs, and
that PMP does not refuse, is performed, at the address of R108, with no state changed by its translation. -/
def Obligations.WalkedAccessIsGranted : Prop :=
  ∀ (s : State) (job : Option Instr) (va : Word) (n : Nat) (t : AccessType) (p : Privilege) (dirty checked : Bool)
    (lf : Leaf), s.Walks → s.Attempts va n p → s.walk va = .leaf lf → s.leafPermits t p lf = true →
    pteA lf.pte = true → (t = .store → dirty = true → pteD lf.pte = true) →
    (checked = true → pmpCheck s.cfg (leafAddr lf.level lf.pte va) n t p = true) →
    s.grant job va n t dirty checked = .granted (machineAddr s.cfg (leafAddr lf.level lf.pte va)) s

/-- R162, R164: each of the nineteen instructions that make an access (LB, LH, LW, LBU, LHU, SB, SH, SW, LR, SC and the
nine AMOs) completes in every state that permits its access: it is aligned, made in U- or S-mode, passes PMP, and either
no translation is selected or the walk finds a leaf that grants it and has the bits it needs.
For an SC that fails, that it needs no pass of PMP is the model's choice (log 23), and whether it needs the D bit is a
free value (log 21). -/
def Obligations.PermittedAccessCompletes : Prop :=
  ∀ (s : State) (i : Instr) (a : Access) (p : Privilege),
    s.accessOf i = some a → Instr.wellFormed s.cfg i = true → s.Attempts a.ea a.size p →
    ((s.satp.mode = .bare ∧ (a.checked = true → pmpCheck s.cfg (bareAddr a.ea) a.size a.type p = true)) ∨
      (s.Walks ∧ ∃ lf, s.walk a.ea = .leaf lf ∧ s.leafPermits a.type p lf = true ∧ pteA lf.pte = true ∧
        (a.type = .store → a.dirty = true → pteD lf.pte = true) ∧
        (a.checked = true → pmpCheck s.cfg (leafAddr lf.level lf.pte a.ea) a.size a.type p = true))) →
    ∃ t, exec i s = .next t ∧ AdvancesFrom s t

/-! ## Instructions -/

/-- R141-R145: the five loads, granted an address, complete: value, destination and frame.
That a load leaves the LR/SC reservation is the model's choice (log 22). -/
def Obligations.LoadsDeliverTheirBytes : Prop :=
  ∀ (rd rs1 : Reg) (imm : BitVec 12),
    LoadDoes (.lb rd rs1 imm) rd (fun s => s.readReg rs1 + imm.signExtend 32) 1
      (fun m a => (m.read a).signExtend 32) ∧
    LoadDoes (.lh rd rs1 imm) rd (fun s => s.readReg rs1 + imm.signExtend 32) 2
      (fun m a => (halfAt m a).signExtend 32) ∧
    LoadDoes (.lw rd rs1 imm) rd (fun s => s.readReg rs1 + imm.signExtend 32) 4 wordAt ∧
    LoadDoes (.lbu rd rs1 imm) rd (fun s => s.readReg rs1 + imm.signExtend 32) 1
      (fun m a => (m.read a).setWidth 32) ∧
    LoadDoes (.lhu rd rs1 imm) rd (fun s => s.readReg rs1 + imm.signExtend 32) 2
      (fun m a => (halfAt m a).setWidth 32)

/-- R146-R148: the three stores, granted an address, complete: the bytes stored and the frame.
That a store leaves the LR/SC reservation is the model's choice (log 22). -/
def Obligations.StoresWriteTheirBytes : Prop :=
  ∀ (rs2 rs1 : Reg) (imm : BitVec 12),
    StoreDoes (.sb rs2 rs1 imm) rs2 (fun s => s.readReg rs1 + imm.signExtend 32) 1 ∧
    StoreDoes (.sh rs2 rs1 imm) rs2 (fun s => s.readReg rs1 + imm.signExtend 32) 2 ∧
    StoreDoes (.sw rs2 rs1 imm) rs2 (fun s => s.readReg rs1 + imm.signExtend 32) 4

/-- R149, R58: LR, granted an address, completes: the word in `rd`, a reservation set that contains the four bytes and
lies within one base page, and the frame.
That the set is held by the address in memory beside the virtual one is the model's choice (log 22). -/
def Obligations.LoadReservedReserves : Prop :=
  ∀ (rd rs1 : Reg) (aq rl : Bool) (s : State) (a : Nat) (s1 : State), s.cfg.hasA = true →
    s.grant (some (.lrW rd rs1 aq rl)) (s.readReg rs1) 4 .load true true = .granted a s1 →
    ∃ t r, exec (.lrW rd rs1 aq rl) s = .next t ∧ AdvancesFrom s t ∧ t.mem = s.mem ∧
      (∀ x, t.readReg x = if x = rd ∧ x ≠ 0#5 then wordAt s.mem a else s.readReg x) ∧
      t.reservation = some r ∧ r.contains (s.readReg rs1) = true ∧ (∀ k, k < 4 → r.holdsByte (a + k) = true) ∧
      (∀ ea, r.contains ea = true → vpnOf ea = vpnOf (s.readReg rs1)) ∧
      (s.Inv → ∀ x, r.holdsByte x = true → x / 4096 = a / 4096)

/-- R150: SC with a valid reservation that contains its bytes, granted an address, stores `x[rs2]` there, puts 0 in
`rd`, and clears the reservation; frame. -/
def Obligations.StoreConditionalSucceeds : Prop :=
  ∀ (rd rs2 rs1 : Reg) (aq rl : Bool) (s : State) (a : Nat) (s1 : State), s.cfg.hasA = true → s.mem.wf = true →
    s.reserved (s.readReg rs1) = true →
    s.grant (some (.scW rd rs2 rs1 aq rl)) (s.readReg rs1) 4 .store true true = .granted a s1 →
    ∃ t, exec (.scW rd rs2 rs1 aq rl) s = .next t ∧ AdvancesFrom s t ∧ t.reservation = none ∧
      (∀ x, t.readReg x = if x = rd ∧ x ≠ 0#5 then 0#32 else s.readReg x) ∧
      wordAt t.mem a = s.readReg rs2 ∧ ∀ x, (x < a ∨ a + 4 ≤ x) → t.mem.read x = s.mem.read x

/-- R150, R137: SC without such a reservation, whichever way the free value settles its D condition, writes no memory,
puts 1 in `rd`, and clears the reservation; frame.
Its D condition is a free value (log 21); that it makes no PMP check is the model's choice (log 23). -/
def Obligations.StoreConditionalFails : Prop :=
  ∀ (rd rs2 rs1 : Reg) (aq rl : Bool) (s : State) (a : Nat) (s1 : State), s.cfg.hasA = true →
    s.reserved (s.readReg rs1) = false →
    s.grant (some (.scW rd rs2 rs1 aq rl)) (s.readReg rs1) 4 .store (Config.failedScDirty s.free) false
      = .granted a s1 →
    ∃ t, exec (.scW rd rs2 rs1 aq rl) s = .next t ∧ AdvancesFrom s t ∧ t.reservation = none ∧ t.mem = s.mem ∧
      ∀ x, t.readReg x = if x = rd ∧ x ≠ 0#5 then 1#32 else s.readReg x

/-- R151-R159: the nine AMOs, granted an address, complete: memory, `rd` and frame.
That the store of an AMO leaves the LR/SC reservation is the model's choice (log 22). -/
def Obligations.AmosReadModifyWrite : Prop :=
  ∀ (rd rs2 rs1 : Reg) (aq rl : Bool),
    AmoDoes (.amoswapW rd rs2 rs1 aq rl) rd rs2 rs1 (fun _ v => v) ∧
    AmoDoes (.amoaddW rd rs2 rs1 aq rl) rd rs2 rs1 (fun old v => BitVec.ofNat 32 (old.toNat + v.toNat)) ∧
    AmoDoes (.amoxorW rd rs2 rs1 aq rl) rd rs2 rs1 (fun old v => old ^^^ v) ∧
    AmoDoes (.amoandW rd rs2 rs1 aq rl) rd rs2 rs1 (fun old v => old &&& v) ∧
    AmoDoes (.amoorW rd rs2 rs1 aq rl) rd rs2 rs1 (fun old v => old ||| v) ∧
    AmoDoes (.amominW rd rs2 rs1 aq rl) rd rs2 rs1 (fun old v => if v.slt old then v else old) ∧
    AmoDoes (.amomaxW rd rs2 rs1 aq rl) rd rs2 rs1 (fun old v => if old.slt v then v else old) ∧
    AmoDoes (.amominuW rd rs2 rs1 aq rl) rd rs2 rs1 (fun old v => if v.ult old then v else old) ∧
    AmoDoes (.amomaxuW rd rs2 rs1 aq rl) rd rs2 rs1 (fun old v => if old.ult v then v else old)

/-- R160: FENCE completes in every mode and changes nothing but `pc`, whatever its fields.
That it leaves the LR/SC reservation is the model's choice (log 22). -/
def Obligations.FenceOnlyAdvances : Prop :=
  ∀ (fm pred succ : BitVec 4) (rs1 rd : Reg) (s : State),
    exec (.fence fm pred succ rs1 rd) s = .next { s with pc := s.pc + 4#32 }

/-- R161, R62: outside U-mode SFENCE.VMA completes: it removes exactly the cached PTEs it names, for all virtual
addresses or the page of `x[rs1]`, and for all address spaces or the ASID in `x[rs2]`, global mappings only where `rs2`
is `x0`; nothing else changes but `pc`.
What a cached PTE is, is the model's (log 24); that the instruction completes in M-mode is its choice (log 27); so is
that of `x[rs2]` only the implemented bits of an ASID count (log 32), and that the LR/SC reservation stays (log 22). -/
def Obligations.SfenceFlushesWhatItNames : Prop :=
  ∀ (rs1 rs2 : Reg) (s : State), s.mode ≠ .user →
    ∃ l, exec (.sfenceVma rs1 rs2) s = .next { s with pc := s.pc + 4#32, tlb := l } ∧
      ∀ e, e ∈ l ↔ e ∈ s.tlb ∧
        ¬((rs1 = 0#5 ∨ (if e.level ≠ 0 ∧ pteV e.pte = true ∧ (pteR e.pte = true ∨ pteW e.pte = true ∨ pteX e.pte = true)
              then e.vpn.extractLsb' 10 10 = (s.readReg rs1).extractLsb' 22 10 else e.vpn = vpnOf (s.readReg rs1))) ∧
          (rs2 = 0#5 ∨ (e.above = false ∧ (pteV e.pte = true → pteG e.pte = false) ∧
            e.asid = implementedAsid s.cfg ((s.readReg rs2).setWidth 9))))

/-- R161, R82: in U-mode SFENCE.VMA raises an illegal-instruction exception and flushes nothing. What the exception
records as trap value is the free value of log 11, so the statement says only that there is one. -/
def Obligations.SfenceTrapsInUserMode : Prop :=
  ∀ (rs1 rs2 : Reg) (s : State), s.mode = .user →
    ∃ v, exec (.sfenceVma rs1 rs2) s = .next (s.takeTrap .illegalInstruction v)

/-! ## Where the model stops -/

/-- R48, D2: an access that crosses a page boundary, or is not naturally aligned, is refused, not trapped and not
split.
That the page is tested first, so that a misaligned access that crosses is refused as such, is the model's choice
(log 13). -/
def Obligations.UnalignedAccessIsRefused : Prop :=
  ∀ (s : State) (i : Instr) (a : Access), s.accessOf i = some a → Instr.wellFormed s.cfg i = true →
    (a.ea.toNat % 4096 + a.size > 4096 → exec i s = .refused .pageCrossing) ∧
    (a.ea.toNat % 4096 + a.size ≤ 4096 → a.ea.toNat % a.size ≠ 0 → exec i s = .refused .misalignedAccess)

/-- R10, D13: an aligned access made in machine mode is refused, of an instruction and of a fetch. -/
def Obligations.MachineModeAccessIsRefused : Prop :=
  (∀ (s : State) (i : Instr) (a : Access), s.accessOf i = some a → Instr.wellFormed s.cfg i = true →
    s.mode = .machine → a.ea.toNat % a.size = 0 → exec i s = .refused .machineModeAccess) ∧
  ∀ s : State, s.mode = .machine → s.pc.toNat % 4 = 0 → (∀ q, s.pending = some q → q.job = none) →
    s.StepAnswers (.refused .machineModeAccess)

/-- The model's choice (log 14): without the "A" extension LR, SC and the AMOs are refused. -/
def Obligations.AtomicsNeedTheExtension : Prop :=
  ∀ (s : State) (i : Instr), s.cfg.hasA = false → Instr.isAtomic i = true → exec i s = .refused .atomicsAbsent

/-! ## The machine as a whole -/

/-- The launch state of D10 with any parameters meets the invariant and all the premises of R202; its values where the spec
gives none are the model's (log 3 to log 7). -/
def Obligations.LaunchMeetsInvariantAndPremises : Prop :=
  ∀ c : Config, (State.launch c).Inv ∧ (State.launch c).LaunchPremises [] ∧ (State.launch c).CacheAgrees

/-- Every step keeps the invariant: memory canonical and inside the address space (R15), `pc` 4-byte aligned (R22), a
pending access at the page offset of its virtual address (R32). -/
def Obligations.StepKeepsInvariant : Prop :=
  ∀ s t : State, s.Inv → step s = .next t → t.Inv

/-- D11, R17, R23: no step writes a parameter, `satp`, SUM, MXR, a trap vector or the delegation register. -/
def Obligations.StepKeepsControlRegisters : Prop :=
  ∀ s t : State, step s = .next t →
    t.cfg = s.cfg ∧ t.satp = s.satp ∧ t.sum = s.sum ∧ t.mxr = s.mxr ∧ t.stvec = s.stvec ∧ t.mtvec = s.mtvec ∧
      t.medeleg = s.medeleg

/-- R164: `pc` advances by 4 after every instruction, stays where only a PTE update was made, speculative ones
(R127) among them, and is diverted by exceptions alone; and only an exception changes the mode.
Where an exception goes is the model's choice (log 8). -/
def Obligations.OnlyExceptionsDivertControl : Prop :=
  ∀ s t : State, step s = .next t →
    (t.mode = s.mode ∧ t.pc = s.pc + 4#32) ∨
    (t.mode = s.mode ∧ t.pc = s.pc ∧ t.regs = s.regs ∧ t.pending ≠ none ∧ s.cfg.adScheme = .update) ∨
    (t.mode = s.mode ∧ t.pc = s.pc ∧ t.regs = s.regs ∧ t.pending = s.pending ∧ s.cfg.aSpeculative = true ∧
      s.cfg.adScheme = .update ∧ t = s.beforeStep) ∨
    (s.mode ≠ .machine ∧ TrappedToSupervisor s t) ∨ TrappedToMachine s t

/-- R103, R102, as isolation: what a step in user mode under Sv32 (scheme `Fault`, no cache) changes in memory lies in a
page that a leaf with U = 1 and W = 1 maps. -/
def Obligations.UserStepsWriteOnlyUserPages : Prop :=
  ∀ (s t : State) (x : Nat), s.mem.wf = true → s.mode = .user → s.Walks → s.cfg.adScheme = .fault →
    s.pending = none → step s = .next t → t.mem.read x ≠ s.mem.read x →
    ∃ va lf, s.walk va = .leaf lf ∧ pteU lf.pte = true ∧ pteW lf.pte = true ∧
      x / 4096 = (leafAddr lf.level lf.pte va).toNat / 4096
end

