-- ==== Sys2Proof/Laws/Memory.lean ====
section
/-! SUPPORT. Physical memory: reading after writing, the canonical form, and which addresses a write can list. -/

namespace Sys2Proof.Machine

@[simp] theorem read_nil (a : Nat) : Memory.read [] a = unlistedByte := rfl

theorem read_cons (x : Nat) (b : Byte) (m : Memory) (a : Nat) :
    Memory.read ((x, b) :: m) a = if a = x then b else Memory.read m a := rfl

/-- A byte below every listed address reads as an unlisted one. -/
theorem read_of_lt {lo : Nat} {m : Memory} (h : Memory.wfFrom lo m = true) {a : Nat} (ha : a < lo) :
    m.read a = unlistedByte := by
  induction m generalizing lo with
  | nil => rfl
  | cons c m ih =>
    obtain ⟨x, b⟩ := c
    simp only [Memory.wfFrom, Bool.and_eq_true, decide_eq_true_eq] at h
    obtain ⟨⟨hlo, _⟩, hm⟩ := h
    rw [read_cons, if_neg (by omega), ih hm (by omega)]

/-- The byte written reads back, in a canonical memory. -/
theorem read_write_same {lo : Nat} {m : Memory} (h : Memory.wfFrom lo m = true) (a : Nat) (v : Byte) :
    (m.write a v).read a = v := by
  induction m generalizing lo with
  | nil => unfold Memory.write; split <;> simp_all [read_cons]
  | cons c m ih =>
    obtain ⟨x, b⟩ := c
    simp only [Memory.wfFrom, Bool.and_eq_true, decide_eq_true_eq] at h
    obtain ⟨_, hm⟩ := h
    unfold Memory.write
    by_cases hlt : a < x
    · have hx : a ≠ x := by omega
      have := read_of_lt hm (a := a) (by omega)
      by_cases hv : v = unlistedByte <;> simp [hlt, hv, read_cons, hx, this]
    · by_cases hax : a = x
      · subst hax
        have := read_of_lt hm (a := a) (by omega)
        by_cases hv : v = unlistedByte <;> simp [hv, read_cons, this]
      · simp [hlt, hax, read_cons, ih hm]

/-- A write leaves every other byte as it was. -/
theorem read_write_ne {lo : Nat} {m : Memory} (h : Memory.wfFrom lo m = true) (a a' : Nat) (v : Byte)
    (hne : a' ≠ a) : (m.write a v).read a' = m.read a' := by
  induction m generalizing lo with
  | nil => unfold Memory.write; split <;> simp [read_cons, hne]
  | cons c m ih =>
    obtain ⟨x, b⟩ := c
    simp only [Memory.wfFrom, Bool.and_eq_true, decide_eq_true_eq] at h
    obtain ⟨_, hm⟩ := h
    unfold Memory.write
    by_cases hlt : a < x
    · by_cases hv : v = unlistedByte <;> simp [hlt, hv, read_cons, hne]
    · by_cases hax : a = x
      · subst hax
        by_cases hv : v = unlistedByte <;> simp [hv, read_cons, hne]
      · simp [hlt, hax, read_cons, ih hm]

/-- A write keeps the canonical form above any bound the address meets. -/
theorem wfFrom_write {lo : Nat} {m : Memory} (h : Memory.wfFrom lo m = true) {a : Nat} (ha : lo ≤ a) (v : Byte) :
    Memory.wfFrom lo (m.write a v) = true := by
  induction m generalizing lo with
  | nil => unfold Memory.write; split <;> simp_all [Memory.wfFrom]
  | cons c m ih =>
    obtain ⟨x, b⟩ := c
    have h0 := h
    simp only [Memory.wfFrom, Bool.and_eq_true, decide_eq_true_eq] at h
    obtain ⟨⟨hlo, hb⟩, hm⟩ := h
    unfold Memory.write
    by_cases hlt : a < x
    · by_cases hv : v = unlistedByte
      · simpa [hlt, hv] using h0
      · simp only [hlt, hv, if_true, if_false]
        simp [Memory.wfFrom, ha, hv, hb, hm]; omega
    · by_cases hax : a = x
      · subst hax
        by_cases hv : v = unlistedByte
        · simp only [lt_irrefl, hv, if_true, if_false]
          cases m with
          | nil => rfl
          | cons d m =>
            simp only [Memory.wfFrom, Bool.and_eq_true, decide_eq_true_eq] at hm ⊢
            exact ⟨⟨by omega, hm.1.2⟩, hm.2⟩
        · simp [hv, Memory.wfFrom, hlo, hm]
      · simp only [hlt, hax, if_false]
        simp [Memory.wfFrom, hlo, hb, ih hm (by omega)]

/-- A write keeps the canonical form. -/
theorem wf_write {m : Memory} (h : m.wf = true) (a : Nat) (v : Byte) : (m.write a v).wf = true :=
  wfFrom_write h (Nat.zero_le a) v

/-- A write lists no address but its own and those listed before. -/
theorem mem_write {m : Memory} {a : Nat} {v : Byte} {c : Host.Cell} (h : c ∈ m.write a v) : c ∈ m ∨ c.1 = a := by
  induction m with
  | nil => unfold Memory.write at h; split at h <;> simp_all
  | cons d m ih =>
    obtain ⟨x, b⟩ := d
    unfold Memory.write at h
    split at h
    · split at h
      · exact .inl h
      · rcases List.mem_cons.1 h with rfl | h
        · exact .inr rfl
        · exact .inl h
    · split at h
      · split at h
        · exact .inl (List.mem_cons_of_mem _ h)
        · rcases List.mem_cons.1 h with rfl | h
          · exact .inr rfl
          · exact .inl (List.mem_cons_of_mem _ h)
      · rcases List.mem_cons.1 h with rfl | h
        · exact .inl (by simp)
        · rcases ih h with h | h
          · exact .inl (List.mem_cons_of_mem _ h)
          · exact .inr h

/-- `PhysWrite` keeps the canonical form. -/
theorem wf_physWrite {m : Memory} (h : m.wf = true) (a n : Nat) (v : Word) : (physWrite m a n v).wf = true := by
  induction n generalizing m a v with
  | zero => exact h
  | succ n ih => exact ih (wf_write h a _) _ _

/-- `PhysWrite` lists no address but those it stores to and those listed before. -/
theorem mem_physWrite {m : Memory} {a n : Nat} {v : Word} {c : Host.Cell} (h : c ∈ physWrite m a n v) :
    c ∈ m ∨ (a ≤ c.1 ∧ c.1 < a + n) := by
  induction n generalizing m a v with
  | zero => exact .inl h
  | succ n ih =>
    rcases ih h with h | h
    · rcases mem_write h with h | h
      · exact .inl h
      · exact .inr (by omega)
    · exact .inr (by omega)

/-- `PhysWrite` leaves every byte outside the `n` it stores as it was. -/
theorem read_physWrite_outside {m : Memory} (h : m.wf = true) {a n : Nat} (v : Word) {x : Nat}
    (hx : x < a ∨ a + n ≤ x) : (physWrite m a n v).read x = m.read x := by
  induction n generalizing m a v with
  | zero => rfl
  | succ n ih =>
    rw [physWrite, ih (wf_write h _ _) _ (by omega), read_write_ne h _ _ _ (by omega)]

/-- `PhysWrite` stores byte `v[8i+7:8i]` at `a + i` (R44). -/
theorem read_physWrite_inside {m : Memory} (h : m.wf = true) {a n : Nat} (v : Word) {i : Nat} (hi : i < n) :
    (physWrite m a n v).read (a + i) = v.extractLsb' (8 * i) 8 := by
  induction n generalizing m a v i with
  | zero => omega
  | succ n ih =>
    rw [physWrite]
    cases i with
    | zero =>
      rw [read_physWrite_outside (wf_write h _ _) _ (by omega), Nat.add_zero, read_write_same h]
      ext j hj; simp
    | succ i =>
      rw [show a + (i + 1) = a + 1 + i by omega, ih (wf_write h _ _) _ (by omega)]
      ext j hj
      simp [show 8 * (i + 1) + j = 8 + (8 * i + j) by omega]

/-- Reads that see equal bytes are equal. -/
theorem physReadNat_congr {m m' : Memory} {a n : Nat} (h : ∀ i < n, m'.read (a + i) = m.read (a + i)) :
    physReadNat m' a n = physReadNat m a n := by
  induction n generalizing a with
  | zero => rfl
  | succ n ih =>
    have h0 : m'.read a = m.read a := h 0 (by omega)
    rw [physReadNat, physReadNat, h0,
      ih (fun i hi => by simpa [Nat.add_assoc, Nat.add_comm 1] using h (i + 1) (by omega))]

theorem physRead_congr {m m' : Memory} {a n : Nat} (h : ∀ i < n, m'.read (a + i) = m.read (a + i)) :
    physRead m' a n = physRead m a n := by
  rw [physRead, physRead, physReadNat_congr h]

/-- `PhysRead` after `PhysWrite` of the same bytes gives the value, cut to `n` bytes. -/
theorem physReadNat_physWrite {m : Memory} (h : m.wf = true) (a n : Nat) (v : Word) :
    physReadNat (physWrite m a n v) a n = v.toNat % 256 ^ n := by
  induction n generalizing m a v with
  | zero => simp [physReadNat, Nat.mod_one]
  | succ n ih =>
    have h0 : (physWrite m a (n + 1) v).read a = v.setWidth 8 := by
      rw [physWrite, read_physWrite_outside (wf_write h _ _) _ (by omega), read_write_same h]
    rw [physReadNat, h0, physWrite, ih (wf_write h _ _), BitVec.toNat_setWidth, BitVec.toNat_ushiftRight,
      Nat.shiftRight_eq_div_pow, show (2 : Nat) ^ 8 = 256 by decide, Nat.pow_succ', Nat.mod_mul]

/-- A word written reads back whole. -/
theorem physRead_physWrite_word {m : Memory} (h : m.wf = true) (a : Nat) (v : Word) :
    physRead (physWrite m a 4 v) a 4 = v := by
  rw [physRead, physReadNat_physWrite h]
  apply BitVec.eq_of_toNat_eq
  simp [Nat.mod_eq_of_lt v.isLt]

/-- A word of memory is its four bytes, the first the least significant (R44, R75). -/
theorem physRead_word (m : Memory) (a : Nat) :
    physRead m a 4 = wordOfBytes (m.read a) (m.read (a + 1)) (m.read (a + 2)) (m.read (a + 3)) := by
  apply BitVec.eq_of_toNat_eq
  have h0 := (m.read a).isLt
  have h1 := (m.read (a + 1)).isLt
  have h2 := (m.read (a + 2)).isLt
  have h3 := (m.read (a + 3)).isLt
  simp only [physRead, physReadNat, wordOfBytes, BitVec.toNat_append, BitVec.toNat_ofNat]
  rw [← Nat.shiftLeft_add_eq_or_of_lt h0, ← Nat.shiftLeft_add_eq_or_of_lt h1, ← Nat.shiftLeft_add_eq_or_of_lt h2]
  simp only [Nat.shiftLeft_eq, Nat.add_assoc]
  norm_num
  omega

/-- Zero-extension to `PALEN` bits leaves the address the same number (R39). -/
theorem machineAddr_eq (c : Config) (pa : PhysAddr) : machineAddr c pa = pa.toNat := by
  simp only [machineAddr, BitVec.toNat_setWidth]
  exact Nat.mod_eq_of_lt (lt_of_lt_of_le pa.isLt (Nat.pow_le_pow_right (by decide) (by unfold palen; omega)))

/-- Every PMP predicate is a list of denials: the finite list of the accesses it refuses (R41, D5). -/
theorem pmpCheck_any_predicate (c : Config) (P : PhysAddr → Nat → AccessType → Privilege → Bool) :
    ∃ l, ∀ pa n t p, (n = 1 ∨ n = 2 ∨ n = 4) → pmpCheck { c with pmpDenied := l } pa n t p = P pa n t p := by
  classical
  let all : List PmpDenial := (List.range (2 ^ 34)).flatMap fun a => [1, 2, 4].flatMap fun n =>
    [AccessType.fetch, .load, .store].flatMap fun t => [Privilege.U, .S].map fun p => ⟨a, a, n, t, p⟩
  refine ⟨all.filter fun d => !P (BitVec.ofNat 34 d.first) d.size d.access d.priv, fun pa n t p hn => ?_⟩
  have hall : (⟨pa.toNat, pa.toNat, n, t, p⟩ : PmpDenial) ∈ all := by
    simp only [all, List.mem_flatMap, List.mem_map, List.mem_range]
    exact ⟨pa.toNat, pa.isLt, n, by simpa using hn, t, by cases t <;> simp, p, by cases p <;> simp, rfl⟩
  have hself : BitVec.ofNat 34 pa.toNat = pa := by simp
  cases hP : P pa n t p
  · simp only [pmpCheck, Bool.not_eq_false', List.any_eq_true]
    refine ⟨_, List.mem_filter.2 ⟨hall, ?_⟩, by simp [PmpDenial.covers]⟩
    simp [hP]
  · simp only [pmpCheck, Bool.not_eq_true', List.any_eq_false, List.mem_filter]
    rintro ⟨f, l, sz, t', p'⟩ ⟨hd, hnot⟩ hc
    simp only [all, List.mem_flatMap, List.mem_map] at hd
    obtain ⟨a, -, n', -, t'', -, p'', -, he⟩ := hd
    cases he
    simp only [PmpDenial.covers, Bool.and_eq_true, decide_eq_true_eq] at hc
    obtain ⟨⟨⟨⟨h1, h2⟩, rfl⟩, rfl⟩, rfl⟩ := hc
    have : f = pa.toNat := by omega
    subst this
    simp [hP] at hnot

end Sys2Proof.Machine
end

