-- ==== Sys2Proof/Laws/State.lean ====
section
/-! SUPPORT. What each named update of the state does to each field: one lemma per field per update, so that no proof
unfolds a record update. -/

namespace Sys2Proof.Machine

/-! `advance` -/

@[simp] theorem advance_cfg (s : State) : (s.advance).cfg = s.cfg := rfl
@[simp] theorem advance_regs (s : State) : (s.advance).regs = s.regs := rfl
@[simp] theorem advance_mode (s : State) : (s.advance).mode = s.mode := rfl
@[simp] theorem advance_satp (s : State) : (s.advance).satp = s.satp := rfl
@[simp] theorem advance_sum (s : State) : (s.advance).sum = s.sum := rfl
@[simp] theorem advance_mxr (s : State) : (s.advance).mxr = s.mxr := rfl
@[simp] theorem advance_sie (s : State) : (s.advance).sie = s.sie := rfl
@[simp] theorem advance_spie (s : State) : (s.advance).spie = s.spie := rfl
@[simp] theorem advance_spp (s : State) : (s.advance).spp = s.spp := rfl
@[simp] theorem advance_mie (s : State) : (s.advance).mie = s.mie := rfl
@[simp] theorem advance_mpie (s : State) : (s.advance).mpie = s.mpie := rfl
@[simp] theorem advance_mpp (s : State) : (s.advance).mpp = s.mpp := rfl
@[simp] theorem advance_sepc (s : State) : (s.advance).sepc = s.sepc := rfl
@[simp] theorem advance_scause (s : State) : (s.advance).scause = s.scause := rfl
@[simp] theorem advance_stval (s : State) : (s.advance).stval = s.stval := rfl
@[simp] theorem advance_stvec (s : State) : (s.advance).stvec = s.stvec := rfl
@[simp] theorem advance_mepc (s : State) : (s.advance).mepc = s.mepc := rfl
@[simp] theorem advance_mcause (s : State) : (s.advance).mcause = s.mcause := rfl
@[simp] theorem advance_mtval (s : State) : (s.advance).mtval = s.mtval := rfl
@[simp] theorem advance_mtvec (s : State) : (s.advance).mtvec = s.mtvec := rfl
@[simp] theorem advance_medeleg (s : State) : (s.advance).medeleg = s.medeleg := rfl
@[simp] theorem advance_reservation (s : State) : (s.advance).reservation = s.reservation := rfl
@[simp] theorem advance_tlb (s : State) : (s.advance).tlb = s.tlb := rfl
@[simp] theorem advance_pending (s : State) : (s.advance).pending = s.pending := rfl
@[simp] theorem advance_free (s : State) : (s.advance).free = s.free := rfl
@[simp] theorem advance_mem (s : State) : (s.advance).mem = s.mem := rfl

@[simp] theorem advance_pc (s : State) : s.advance.pc = s.pc + 4#32 := rfl

/-! `writeReg` -/

@[simp] theorem writeReg_cfg (s : State) (r : Reg) (v : Word) : (s.writeReg r v).cfg = s.cfg := by
  unfold State.writeReg; split <;> rfl
@[simp] theorem writeReg_pc (s : State) (r : Reg) (v : Word) : (s.writeReg r v).pc = s.pc := by
  unfold State.writeReg; split <;> rfl
@[simp] theorem writeReg_mode (s : State) (r : Reg) (v : Word) : (s.writeReg r v).mode = s.mode := by
  unfold State.writeReg; split <;> rfl
@[simp] theorem writeReg_satp (s : State) (r : Reg) (v : Word) : (s.writeReg r v).satp = s.satp := by
  unfold State.writeReg; split <;> rfl
@[simp] theorem writeReg_sum (s : State) (r : Reg) (v : Word) : (s.writeReg r v).sum = s.sum := by
  unfold State.writeReg; split <;> rfl
@[simp] theorem writeReg_mxr (s : State) (r : Reg) (v : Word) : (s.writeReg r v).mxr = s.mxr := by
  unfold State.writeReg; split <;> rfl
@[simp] theorem writeReg_sie (s : State) (r : Reg) (v : Word) : (s.writeReg r v).sie = s.sie := by
  unfold State.writeReg; split <;> rfl
@[simp] theorem writeReg_spie (s : State) (r : Reg) (v : Word) : (s.writeReg r v).spie = s.spie := by
  unfold State.writeReg; split <;> rfl
@[simp] theorem writeReg_spp (s : State) (r : Reg) (v : Word) : (s.writeReg r v).spp = s.spp := by
  unfold State.writeReg; split <;> rfl
@[simp] theorem writeReg_mie (s : State) (r : Reg) (v : Word) : (s.writeReg r v).mie = s.mie := by
  unfold State.writeReg; split <;> rfl
@[simp] theorem writeReg_mpie (s : State) (r : Reg) (v : Word) : (s.writeReg r v).mpie = s.mpie := by
  unfold State.writeReg; split <;> rfl
@[simp] theorem writeReg_mpp (s : State) (r : Reg) (v : Word) : (s.writeReg r v).mpp = s.mpp := by
  unfold State.writeReg; split <;> rfl
@[simp] theorem writeReg_sepc (s : State) (r : Reg) (v : Word) : (s.writeReg r v).sepc = s.sepc := by
  unfold State.writeReg; split <;> rfl
@[simp] theorem writeReg_scause (s : State) (r : Reg) (v : Word) : (s.writeReg r v).scause = s.scause := by
  unfold State.writeReg; split <;> rfl
@[simp] theorem writeReg_stval (s : State) (r : Reg) (v : Word) : (s.writeReg r v).stval = s.stval := by
  unfold State.writeReg; split <;> rfl
@[simp] theorem writeReg_stvec (s : State) (r : Reg) (v : Word) : (s.writeReg r v).stvec = s.stvec := by
  unfold State.writeReg; split <;> rfl
@[simp] theorem writeReg_mepc (s : State) (r : Reg) (v : Word) : (s.writeReg r v).mepc = s.mepc := by
  unfold State.writeReg; split <;> rfl
@[simp] theorem writeReg_mcause (s : State) (r : Reg) (v : Word) : (s.writeReg r v).mcause = s.mcause := by
  unfold State.writeReg; split <;> rfl
@[simp] theorem writeReg_mtval (s : State) (r : Reg) (v : Word) : (s.writeReg r v).mtval = s.mtval := by
  unfold State.writeReg; split <;> rfl
@[simp] theorem writeReg_mtvec (s : State) (r : Reg) (v : Word) : (s.writeReg r v).mtvec = s.mtvec := by
  unfold State.writeReg; split <;> rfl
@[simp] theorem writeReg_medeleg (s : State) (r : Reg) (v : Word) : (s.writeReg r v).medeleg = s.medeleg := by
  unfold State.writeReg; split <;> rfl
@[simp] theorem writeReg_reservation (s : State) (r : Reg) (v : Word) : (s.writeReg r v).reservation = s.reservation := by
  unfold State.writeReg; split <;> rfl
@[simp] theorem writeReg_tlb (s : State) (r : Reg) (v : Word) : (s.writeReg r v).tlb = s.tlb := by
  unfold State.writeReg; split <;> rfl
@[simp] theorem writeReg_pending (s : State) (r : Reg) (v : Word) : (s.writeReg r v).pending = s.pending := by
  unfold State.writeReg; split <;> rfl
@[simp] theorem writeReg_free (s : State) (r : Reg) (v : Word) : (s.writeReg r v).free = s.free := by
  unfold State.writeReg; split <;> rfl
@[simp] theorem writeReg_mem (s : State) (r : Reg) (v : Word) : (s.writeReg r v).mem = s.mem := by
  unfold State.writeReg; split <;> rfl

/-! `writePte` -/

@[simp] theorem writePte_cfg (s : State) (addr : PhysAddr) (pte : Word) : (s.writePte addr pte).cfg = s.cfg := rfl
@[simp] theorem writePte_regs (s : State) (addr : PhysAddr) (pte : Word) : (s.writePte addr pte).regs = s.regs := rfl
@[simp] theorem writePte_pc (s : State) (addr : PhysAddr) (pte : Word) : (s.writePte addr pte).pc = s.pc := rfl
@[simp] theorem writePte_mode (s : State) (addr : PhysAddr) (pte : Word) : (s.writePte addr pte).mode = s.mode := rfl
@[simp] theorem writePte_satp (s : State) (addr : PhysAddr) (pte : Word) : (s.writePte addr pte).satp = s.satp := rfl
@[simp] theorem writePte_sum (s : State) (addr : PhysAddr) (pte : Word) : (s.writePte addr pte).sum = s.sum := rfl
@[simp] theorem writePte_mxr (s : State) (addr : PhysAddr) (pte : Word) : (s.writePte addr pte).mxr = s.mxr := rfl
@[simp] theorem writePte_sie (s : State) (addr : PhysAddr) (pte : Word) : (s.writePte addr pte).sie = s.sie := rfl
@[simp] theorem writePte_spie (s : State) (addr : PhysAddr) (pte : Word) : (s.writePte addr pte).spie = s.spie := rfl
@[simp] theorem writePte_spp (s : State) (addr : PhysAddr) (pte : Word) : (s.writePte addr pte).spp = s.spp := rfl
@[simp] theorem writePte_mie (s : State) (addr : PhysAddr) (pte : Word) : (s.writePte addr pte).mie = s.mie := rfl
@[simp] theorem writePte_mpie (s : State) (addr : PhysAddr) (pte : Word) : (s.writePte addr pte).mpie = s.mpie := rfl
@[simp] theorem writePte_mpp (s : State) (addr : PhysAddr) (pte : Word) : (s.writePte addr pte).mpp = s.mpp := rfl
@[simp] theorem writePte_sepc (s : State) (addr : PhysAddr) (pte : Word) : (s.writePte addr pte).sepc = s.sepc := rfl
@[simp] theorem writePte_scause (s : State) (addr : PhysAddr) (pte : Word) : (s.writePte addr pte).scause = s.scause := rfl
@[simp] theorem writePte_stval (s : State) (addr : PhysAddr) (pte : Word) : (s.writePte addr pte).stval = s.stval := rfl
@[simp] theorem writePte_stvec (s : State) (addr : PhysAddr) (pte : Word) : (s.writePte addr pte).stvec = s.stvec := rfl
@[simp] theorem writePte_mepc (s : State) (addr : PhysAddr) (pte : Word) : (s.writePte addr pte).mepc = s.mepc := rfl
@[simp] theorem writePte_mcause (s : State) (addr : PhysAddr) (pte : Word) : (s.writePte addr pte).mcause = s.mcause := rfl
@[simp] theorem writePte_mtval (s : State) (addr : PhysAddr) (pte : Word) : (s.writePte addr pte).mtval = s.mtval := rfl
@[simp] theorem writePte_mtvec (s : State) (addr : PhysAddr) (pte : Word) : (s.writePte addr pte).mtvec = s.mtvec := rfl
@[simp] theorem writePte_medeleg (s : State) (addr : PhysAddr) (pte : Word) : (s.writePte addr pte).medeleg = s.medeleg := rfl
@[simp] theorem writePte_tlb (s : State) (addr : PhysAddr) (pte : Word) : (s.writePte addr pte).tlb = s.tlb := rfl
@[simp] theorem writePte_pending (s : State) (addr : PhysAddr) (pte : Word) : (s.writePte addr pte).pending = s.pending := rfl
@[simp] theorem writePte_free (s : State) (addr : PhysAddr) (pte : Word) : (s.writePte addr pte).free = s.free := rfl

@[simp] theorem writePte_mem (s : State) (addr : PhysAddr) (pte : Word) :
    (s.writePte addr pte).mem = physWrite s.mem (machineAddr s.cfg addr) 4 pte := rfl

/-- A PTE write loses a reservation that holds a byte of the PTE, and keeps any other (H4). -/
@[simp] theorem writePte_reservation (s : State) (addr : PhysAddr) (pte : Word) :
    (s.writePte addr pte).reservation = s.reservation.filter fun r => !r.touched (machineAddr s.cfg addr) 4 := rfl

/-! `flushCache` -/

@[simp] theorem flushCache_cfg (s : State) (va asid : Option Word) : (s.flushCache va asid).cfg = s.cfg := rfl
@[simp] theorem flushCache_regs (s : State) (va asid : Option Word) : (s.flushCache va asid).regs = s.regs := rfl
@[simp] theorem flushCache_pc (s : State) (va asid : Option Word) : (s.flushCache va asid).pc = s.pc := rfl
@[simp] theorem flushCache_mode (s : State) (va asid : Option Word) : (s.flushCache va asid).mode = s.mode := rfl
@[simp] theorem flushCache_satp (s : State) (va asid : Option Word) : (s.flushCache va asid).satp = s.satp := rfl
@[simp] theorem flushCache_sum (s : State) (va asid : Option Word) : (s.flushCache va asid).sum = s.sum := rfl
@[simp] theorem flushCache_mxr (s : State) (va asid : Option Word) : (s.flushCache va asid).mxr = s.mxr := rfl
@[simp] theorem flushCache_sie (s : State) (va asid : Option Word) : (s.flushCache va asid).sie = s.sie := rfl
@[simp] theorem flushCache_spie (s : State) (va asid : Option Word) : (s.flushCache va asid).spie = s.spie := rfl
@[simp] theorem flushCache_spp (s : State) (va asid : Option Word) : (s.flushCache va asid).spp = s.spp := rfl
@[simp] theorem flushCache_mie (s : State) (va asid : Option Word) : (s.flushCache va asid).mie = s.mie := rfl
@[simp] theorem flushCache_mpie (s : State) (va asid : Option Word) : (s.flushCache va asid).mpie = s.mpie := rfl
@[simp] theorem flushCache_mpp (s : State) (va asid : Option Word) : (s.flushCache va asid).mpp = s.mpp := rfl
@[simp] theorem flushCache_sepc (s : State) (va asid : Option Word) : (s.flushCache va asid).sepc = s.sepc := rfl
@[simp] theorem flushCache_scause (s : State) (va asid : Option Word) : (s.flushCache va asid).scause = s.scause := rfl
@[simp] theorem flushCache_stval (s : State) (va asid : Option Word) : (s.flushCache va asid).stval = s.stval := rfl
@[simp] theorem flushCache_stvec (s : State) (va asid : Option Word) : (s.flushCache va asid).stvec = s.stvec := rfl
@[simp] theorem flushCache_mepc (s : State) (va asid : Option Word) : (s.flushCache va asid).mepc = s.mepc := rfl
@[simp] theorem flushCache_mcause (s : State) (va asid : Option Word) : (s.flushCache va asid).mcause = s.mcause := rfl
@[simp] theorem flushCache_mtval (s : State) (va asid : Option Word) : (s.flushCache va asid).mtval = s.mtval := rfl
@[simp] theorem flushCache_mtvec (s : State) (va asid : Option Word) : (s.flushCache va asid).mtvec = s.mtvec := rfl
@[simp] theorem flushCache_medeleg (s : State) (va asid : Option Word) : (s.flushCache va asid).medeleg = s.medeleg := rfl
@[simp] theorem flushCache_reservation (s : State) (va asid : Option Word) : (s.flushCache va asid).reservation = s.reservation := rfl
@[simp] theorem flushCache_pending (s : State) (va asid : Option Word) : (s.flushCache va asid).pending = s.pending := rfl
@[simp] theorem flushCache_free (s : State) (va asid : Option Word) : (s.flushCache va asid).free = s.free := rfl
@[simp] theorem flushCache_mem (s : State) (va asid : Option Word) : (s.flushCache va asid).mem = s.mem := rfl

/-! `fillCache` -/

/-- Taking up one PTE changes the cache alone. -/
theorem cachePte_eq (s : State) (va : Word) (level : Nat) (table : Ppn) (above : Bool) :
    ∃ l, s.cachePte va level table above = { s with tlb := l } := by
  unfold State.cachePte
  simp only
  split <;> exact ⟨_, rfl⟩

theorem cacheNext_eq (s : State) (va : Word) (e : TlbEntry) : ∃ l, s.cacheNext va e = { s with tlb := l } := by
  unfold State.cacheNext
  split
  · exact cachePte_eq ..
  · exact ⟨_, rfl⟩

/-- A property that taking up a PTE keeps, filling the cache keeps. -/
theorem fillCache_induction {P : State → Prop} {s : State} {va : Word} (h0 : P s)
    (hroot : s.cfg.translationCache = true → s.satp.mode = .sv32 → P (s.cachePte va rootLevel s.satp.ppn false))
    (hnext : ∀ x e, e.hits s.asid va = true → e ∈ (s.cachePte va rootLevel s.satp.ppn false).tlb → P x →
      P (x.cacheNext va e)) : P (s.fillCache va) := by
  unfold State.fillCache
  split
  · rename_i h
    simp only [Bool.and_eq_true, decide_eq_true_eq] at h
    obtain ⟨l, hl⟩ := cachePte_eq s va rootLevel s.satp.ppn false
    have ha : (s.cachePte va rootLevel s.satp.ppn false).asid = s.asid := by rw [hl]; rfl
    have hP := hroot h.1 h.2
    simp only [State.cacheHits, ha]
    generalize s.cachePte va rootLevel s.satp.ppn false = x at *
    have hall : ∀ e ∈ x.tlb.filter (fun e => e.hits s.asid va), e.hits s.asid va = true ∧ e ∈ x.tlb :=
      fun e he => (List.mem_filter.1 he).symm
    generalize x.tlb.filter (fun e => e.hits s.asid va) = es at hall
    generalize hx : x.tlb = tlb at hall hnext
    clear hx hl ha hroot
    induction es generalizing x with
    | nil => exact hP
    | cons e es ih =>
      exact ih _ (hnext x e (hall e List.mem_cons_self).1 (hall e List.mem_cons_self).2 hP)
        fun e' he' => hall e' (List.mem_cons_of_mem _ he')
  · exact h0

/-- Filling the cache changes the cache alone. -/
theorem fillCache_eq (s : State) (va : Word) : ∃ l, s.fillCache va = { s with tlb := l } := by
  refine fillCache_induction (P := fun x => ∃ l, x = { s with tlb := l }) ⟨_, rfl⟩ (fun _ _ => cachePte_eq ..) ?_
  rintro x e - - ⟨l, rfl⟩
  exact cacheNext_eq _ va e

@[simp] theorem fillCache_cfg (s : State) (va : Word) : (s.fillCache va).cfg = s.cfg := by
  obtain ⟨l, h⟩ := fillCache_eq s va; rw [h]
@[simp] theorem fillCache_regs (s : State) (va : Word) : (s.fillCache va).regs = s.regs := by
  obtain ⟨l, h⟩ := fillCache_eq s va; rw [h]
@[simp] theorem fillCache_pc (s : State) (va : Word) : (s.fillCache va).pc = s.pc := by
  obtain ⟨l, h⟩ := fillCache_eq s va; rw [h]
@[simp] theorem fillCache_mode (s : State) (va : Word) : (s.fillCache va).mode = s.mode := by
  obtain ⟨l, h⟩ := fillCache_eq s va; rw [h]
@[simp] theorem fillCache_satp (s : State) (va : Word) : (s.fillCache va).satp = s.satp := by
  obtain ⟨l, h⟩ := fillCache_eq s va; rw [h]
@[simp] theorem fillCache_sum (s : State) (va : Word) : (s.fillCache va).sum = s.sum := by
  obtain ⟨l, h⟩ := fillCache_eq s va; rw [h]
@[simp] theorem fillCache_mxr (s : State) (va : Word) : (s.fillCache va).mxr = s.mxr := by
  obtain ⟨l, h⟩ := fillCache_eq s va; rw [h]
@[simp] theorem fillCache_sie (s : State) (va : Word) : (s.fillCache va).sie = s.sie := by
  obtain ⟨l, h⟩ := fillCache_eq s va; rw [h]
@[simp] theorem fillCache_spie (s : State) (va : Word) : (s.fillCache va).spie = s.spie := by
  obtain ⟨l, h⟩ := fillCache_eq s va; rw [h]
@[simp] theorem fillCache_spp (s : State) (va : Word) : (s.fillCache va).spp = s.spp := by
  obtain ⟨l, h⟩ := fillCache_eq s va; rw [h]
@[simp] theorem fillCache_mie (s : State) (va : Word) : (s.fillCache va).mie = s.mie := by
  obtain ⟨l, h⟩ := fillCache_eq s va; rw [h]
@[simp] theorem fillCache_mpie (s : State) (va : Word) : (s.fillCache va).mpie = s.mpie := by
  obtain ⟨l, h⟩ := fillCache_eq s va; rw [h]
@[simp] theorem fillCache_mpp (s : State) (va : Word) : (s.fillCache va).mpp = s.mpp := by
  obtain ⟨l, h⟩ := fillCache_eq s va; rw [h]
@[simp] theorem fillCache_sepc (s : State) (va : Word) : (s.fillCache va).sepc = s.sepc := by
  obtain ⟨l, h⟩ := fillCache_eq s va; rw [h]
@[simp] theorem fillCache_scause (s : State) (va : Word) : (s.fillCache va).scause = s.scause := by
  obtain ⟨l, h⟩ := fillCache_eq s va; rw [h]
@[simp] theorem fillCache_stval (s : State) (va : Word) : (s.fillCache va).stval = s.stval := by
  obtain ⟨l, h⟩ := fillCache_eq s va; rw [h]
@[simp] theorem fillCache_stvec (s : State) (va : Word) : (s.fillCache va).stvec = s.stvec := by
  obtain ⟨l, h⟩ := fillCache_eq s va; rw [h]
@[simp] theorem fillCache_mepc (s : State) (va : Word) : (s.fillCache va).mepc = s.mepc := by
  obtain ⟨l, h⟩ := fillCache_eq s va; rw [h]
@[simp] theorem fillCache_mcause (s : State) (va : Word) : (s.fillCache va).mcause = s.mcause := by
  obtain ⟨l, h⟩ := fillCache_eq s va; rw [h]
@[simp] theorem fillCache_mtval (s : State) (va : Word) : (s.fillCache va).mtval = s.mtval := by
  obtain ⟨l, h⟩ := fillCache_eq s va; rw [h]
@[simp] theorem fillCache_mtvec (s : State) (va : Word) : (s.fillCache va).mtvec = s.mtvec := by
  obtain ⟨l, h⟩ := fillCache_eq s va; rw [h]
@[simp] theorem fillCache_medeleg (s : State) (va : Word) : (s.fillCache va).medeleg = s.medeleg := by
  obtain ⟨l, h⟩ := fillCache_eq s va; rw [h]
@[simp] theorem fillCache_reservation (s : State) (va : Word) : (s.fillCache va).reservation = s.reservation := by
  obtain ⟨l, h⟩ := fillCache_eq s va; rw [h]
@[simp] theorem fillCache_pending (s : State) (va : Word) : (s.fillCache va).pending = s.pending := by
  obtain ⟨l, h⟩ := fillCache_eq s va; rw [h]
@[simp] theorem fillCache_free (s : State) (va : Word) : (s.fillCache va).free = s.free := by
  obtain ⟨l, h⟩ := fillCache_eq s va; rw [h]
@[simp] theorem fillCache_mem (s : State) (va : Word) : (s.fillCache va).mem = s.mem := by
  obtain ⟨l, h⟩ := fillCache_eq s va; rw [h]

/-! `returnFromTrap` -/

@[simp] theorem returnFromTrap_cfg (s : State) : (s.returnFromTrap).cfg = s.cfg := rfl
@[simp] theorem returnFromTrap_regs (s : State) : (s.returnFromTrap).regs = s.regs := rfl
@[simp] theorem returnFromTrap_satp (s : State) : (s.returnFromTrap).satp = s.satp := rfl
@[simp] theorem returnFromTrap_sum (s : State) : (s.returnFromTrap).sum = s.sum := rfl
@[simp] theorem returnFromTrap_mxr (s : State) : (s.returnFromTrap).mxr = s.mxr := rfl
@[simp] theorem returnFromTrap_mie (s : State) : (s.returnFromTrap).mie = s.mie := rfl
@[simp] theorem returnFromTrap_mpie (s : State) : (s.returnFromTrap).mpie = s.mpie := rfl
@[simp] theorem returnFromTrap_mpp (s : State) : (s.returnFromTrap).mpp = s.mpp := rfl
@[simp] theorem returnFromTrap_sepc (s : State) : (s.returnFromTrap).sepc = s.sepc := rfl
@[simp] theorem returnFromTrap_scause (s : State) : (s.returnFromTrap).scause = s.scause := rfl
@[simp] theorem returnFromTrap_stval (s : State) : (s.returnFromTrap).stval = s.stval := rfl
@[simp] theorem returnFromTrap_stvec (s : State) : (s.returnFromTrap).stvec = s.stvec := rfl
@[simp] theorem returnFromTrap_mepc (s : State) : (s.returnFromTrap).mepc = s.mepc := rfl
@[simp] theorem returnFromTrap_mcause (s : State) : (s.returnFromTrap).mcause = s.mcause := rfl
@[simp] theorem returnFromTrap_mtval (s : State) : (s.returnFromTrap).mtval = s.mtval := rfl
@[simp] theorem returnFromTrap_mtvec (s : State) : (s.returnFromTrap).mtvec = s.mtvec := rfl
@[simp] theorem returnFromTrap_medeleg (s : State) : (s.returnFromTrap).medeleg = s.medeleg := rfl
@[simp] theorem returnFromTrap_reservation (s : State) : (s.returnFromTrap).reservation = s.reservation := rfl
@[simp] theorem returnFromTrap_tlb (s : State) : (s.returnFromTrap).tlb = s.tlb := rfl
@[simp] theorem returnFromTrap_pending (s : State) : (s.returnFromTrap).pending = s.pending := rfl
@[simp] theorem returnFromTrap_free (s : State) : (s.returnFromTrap).free = s.free := rfl
@[simp] theorem returnFromTrap_mem (s : State) : (s.returnFromTrap).mem = s.mem := rfl

/-! `takeTrap` -/

@[simp] theorem takeTrap_cfg (s : State) (k : TrapKind) (v : Word) : (s.takeTrap k v).cfg = s.cfg := by
  unfold State.takeTrap; split <;> rfl
@[simp] theorem takeTrap_regs (s : State) (k : TrapKind) (v : Word) : (s.takeTrap k v).regs = s.regs := by
  unfold State.takeTrap; split <;> rfl
@[simp] theorem takeTrap_satp (s : State) (k : TrapKind) (v : Word) : (s.takeTrap k v).satp = s.satp := by
  unfold State.takeTrap; split <;> rfl
@[simp] theorem takeTrap_sum (s : State) (k : TrapKind) (v : Word) : (s.takeTrap k v).sum = s.sum := by
  unfold State.takeTrap; split <;> rfl
@[simp] theorem takeTrap_mxr (s : State) (k : TrapKind) (v : Word) : (s.takeTrap k v).mxr = s.mxr := by
  unfold State.takeTrap; split <;> rfl
@[simp] theorem takeTrap_stvec (s : State) (k : TrapKind) (v : Word) : (s.takeTrap k v).stvec = s.stvec := by
  unfold State.takeTrap; split <;> rfl
@[simp] theorem takeTrap_mtvec (s : State) (k : TrapKind) (v : Word) : (s.takeTrap k v).mtvec = s.mtvec := by
  unfold State.takeTrap; split <;> rfl
@[simp] theorem takeTrap_medeleg (s : State) (k : TrapKind) (v : Word) : (s.takeTrap k v).medeleg = s.medeleg := by
  unfold State.takeTrap; split <;> rfl
@[simp] theorem takeTrap_reservation (s : State) (k : TrapKind) (v : Word) : (s.takeTrap k v).reservation = s.reservation := by
  unfold State.takeTrap; split <;> rfl
@[simp] theorem takeTrap_tlb (s : State) (k : TrapKind) (v : Word) : (s.takeTrap k v).tlb = s.tlb := by
  unfold State.takeTrap; split <;> rfl
@[simp] theorem takeTrap_free (s : State) (k : TrapKind) (v : Word) : (s.takeTrap k v).free = s.free := by
  unfold State.takeTrap; split <;> rfl
@[simp] theorem takeTrap_mem (s : State) (k : TrapKind) (v : Word) : (s.takeTrap k v).mem = s.mem := by
  unfold State.takeTrap; split <;> rfl

@[simp] theorem takeTrap_pending (s : State) (k : TrapKind) (v : Word) : (s.takeTrap k v).pending = none := by
  unfold State.takeTrap; split <;> rfl

/-! Reading registers -/

@[simp] theorem readReg_zero (s : State) : s.readReg 0#5 = 0#32 := rfl

@[simp] theorem advance_readReg (s : State) (r : Reg) : s.advance.readReg r = s.readReg r := rfl

/-- A register reads what its slot holds, so equal register files read alike. -/
theorem readReg_congr {s t : State} (h : t.regs = s.regs) (r : Reg) : t.readReg r = s.readReg r := by
  simp [State.readReg, h]

@[simp] theorem writeReg_zero (s : State) (v : Word) : s.writeReg 0#5 v = s := rfl

/-- A write to `x0` is discarded; any other register reads what was last written to it (R21). -/
theorem readReg_writeReg (s : State) (d r : Reg) (v : Word) :
    (s.writeReg d v).readReg r = if r = d ∧ d ≠ 0#5 then v else s.readReg r := by
  by_cases hd : d = 0#5
  · simp [hd]
  · by_cases hr : r = d
    · subst hr; simp [State.readReg, State.writeReg, hd]
    · have hn : d.toNat ≠ r.toNat := fun h => hr (BitVec.eq_of_toNat_eq h).symm
      simp [State.readReg, State.writeReg, hd, hr, hn]

/-- The bits of a PTE that the hart has updated: A, and D where `dirty`, beside those it had (R124). -/
theorem getLsbD_setNeeded (dirty : Bool) (pte : Word) (b : Nat) :
    (setNeeded dirty pte).getLsbD b = (pte.getLsbD b || (decide (b = 6) || (decide (b = 7) && dirty))) := by
  unfold setNeeded neededBits
  rw [BitVec.getLsbD_or]
  congr 1
  by_cases hb : b < 32
  · interval_cases b <;> cases dirty <;> decide
  · rw [BitVec.getLsbD_of_ge _ _ (by omega)]
    simp
    omega

end Sys2Proof.Machine
end

