-- ==== Sys2Proof/Laws/Translate.lean ====
section
/-! SUPPORT. What a translation can answer: one lemma per operation of Machine/Translate.lean. -/

namespace Sys2Proof.Machine

/-- The address of a PTE is `table * 4096 + index * 4` (R42). -/
theorem pteAddr_toNat (table : Ppn) (index : TableIndex) :
    (pteAddr table index).toNat = table.toNat * 4096 + index.toNat * 4 := by
  have hi := index.isLt
  simp only [pteAddr, BitVec.toNat_append, BitVec.toNat_ofNat]
  rw [← Nat.shiftLeft_add_eq_or_of_lt hi, ← Nat.shiftLeft_add_eq_or_of_lt (by decide)]
  simp only [Nat.shiftLeft_eq]
  omega

/-- A PTE lies whole inside the 34-bit physical address space (R46). -/
theorem pteAddr_end (table : Ppn) (index : TableIndex) : (pteAddr table index).toNat + 4 ≤ 2 ^ 34 := by
  have ht := table.isLt
  have hi := index.isLt
  rw [pteAddr_toNat]
  omega

/-- A leaf keeps the page offset of the virtual address (R32, R108). -/
theorem leafAddr_offset (level : Nat) (pte va : Word) :
    (leafAddr level pte va).extractLsb' 0 12 = pageOffset va := by
  cases level
  · ext j hj
    simp only [leafAddr, pageOffset, BitVec.getElem_extractLsb', Nat.zero_add]
    exact BitVec.getLsbD_append.trans (by simp [hj])
  · ext j hj
    simp only [leafAddr, pageOffset, BitVec.getElem_extractLsb', Nat.zero_add]
    exact BitVec.getLsbD_append.trans (by simp [show j < 22 by omega])

/-- The address a leaf maps to, as a number: `PPN * 4096 + va[11:0]` at level 0, `PPN[1] * 2^22 + va[21:0]` for a
megapage (R108). -/
theorem leafAddr_toNat (level : Nat) (pte va : Word) :
    (leafAddr level pte va).toNat =
      if level = 0 then (ptePpn pte).toNat * 4096 + va.toNat % 4096
      else (ppn1 (ptePpn pte)).toNat * 2 ^ 22 + va.toNat % 2 ^ 22 := by
  cases level
  · have h := (pageOffset va).isLt
    simp only [leafAddr, BitVec.toNat_append]
    rw [← Nat.shiftLeft_add_eq_or_of_lt h, Nat.shiftLeft_eq]
    simp [pageOffset]
  · have h := (va.extractLsb' 0 22).isLt
    simp only [leafAddr, BitVec.toNat_append]
    rw [← Nat.shiftLeft_add_eq_or_of_lt h, Nat.shiftLeft_eq]
    simp

/-- Bare mode keeps the page offset (R38). -/
theorem bareAddr_offset (va : Word) : (bareAddr va).extractLsb' 0 12 = pageOffset va := by
  simp only [bareAddr, pageOffset]
  ext j hj
  simp [BitVec.getLsbD_setWidth]
  omega

/-- A leaf found by a walk stands at the address of a PTE, and is a leaf of its level there. -/
theorem walkFrom_leaf {c : Config} {m : Memory} {va : Word} {level : Nat} {table : Ppn} {g : Bool} {lf : Leaf}
    (h : walkFrom c m va level table g = .leaf lf) :
    (∃ t i, lf.addr = pteAddr t i) ∧ pteKind c lf.level lf.pte = .leaf ∧
      lf.pte = physRead m (machineAddr c lf.addr) 4 ∧ pmpCheck c lf.addr 4 .load .S = true := by
  induction level generalizing table g with
  | zero =>
    simp only [walkFrom, examinePte] at h
    split at h
    · rename_i pte he
      split at he
      · rename_i hp
        split at he <;> try cases he
        rename_i hk
        cases h
        exact ⟨⟨_, _, rfl⟩, hk, rfl, hp⟩
      · cases he
    all_goals cases h
  | succ level ih =>
    simp only [walkFrom, examinePte] at h
    split at h
    · rename_i pte he
      split at he
      · rename_i hp
        split at he <;> try cases he
        rename_i hk
        cases h
        exact ⟨⟨_, _, rfl⟩, hk, rfl, hp⟩
      · cases he
    · exact ih h
    all_goals cases h

theorem walk_leaf {s : State} {va : Word} {lf : Leaf} (h : s.walk va = .leaf lf) :
    (∃ t i, lf.addr = pteAddr t i) ∧ pteKind s.cfg lf.level lf.pte = .leaf ∧ lf.pte = s.pteAt lf.addr ∧
      pmpCheck s.cfg lf.addr 4 .load .S = true := walkFrom_leaf h

/-- What examining one PTE answers as a leaf (R95, R99). -/
theorem examinePte_leaf {c : Config} {m : Memory} {level : Nat} {addr : PhysAddr} {pte : Word}
    (h : examinePte c m level addr = .leaf pte) :
    pmpCheck c addr 4 .load .S = true ∧ pteKind c level pte = .leaf ∧ pte = physRead m (machineAddr c addr) 4 := by
  unfold examinePte at h
  split at h
  · rename_i hp
    simp only at h
    split at h <;> cases h
    rename_i hk
    exact ⟨hp, hk, rfl⟩
  · cases h

/-- What examining one PTE answers as a pointer. -/
theorem examinePte_pointer {c : Config} {m : Memory} {level : Nat} {addr : PhysAddr} {pte : Word}
    (h : examinePte c m level addr = .pointer pte) :
    pmpCheck c addr 4 .load .S = true ∧ pteKind c level pte = .pointer ∧ pte = physRead m (machineAddr c addr) 4 := by
  unfold examinePte at h
  split at h
  · rename_i hp
    simp only at h
    split at h <;> cases h
    rename_i hk
    exact ⟨hp, hk, rfl⟩
  · cases h

/-- The walk where the root PTE is a pointer: it goes on at level 0 (R99). -/
theorem walk_of_pointer {s : State} {va : Word} (h : pmpCheck s.cfg (s.rootAddr va) 4 .load .S = true)
    (hp : pteKind s.cfg 1 (s.pteAt (s.rootAddr va)) = .pointer) :
    s.walk va = walkFrom s.cfg s.mem va 0 (ptePpn (s.pteAt (s.rootAddr va))) (pteG (s.pteAt (s.rootAddr va))) := by
  have he : examinePte s.cfg s.mem 1 (s.rootAddr va) = .pointer (s.pteAt (s.rootAddr va)) := by
    unfold State.pteAt at hp ⊢
    simp [examinePte, h, hp]
  show walkFrom s.cfg s.mem va (0 + 1) s.satp.ppn false = _
  conv_lhs => rw [walkFrom]
  simp only [State.rootAddr] at he
  simp only [Nat.zero_add, he, State.rootAddr, Bool.false_or]

/-- How the walk ends at a PTE it reads that is invalid, and at one that is a leaf. -/
theorem walk_of_reads {s : State} {va : Word} {level : Nat} {addr : PhysAddr} (h : s.WalkReads va level addr) :
    (pteKind s.cfg level (s.pteAt addr) = .invalid → s.walk va = .pageFault) ∧
    (pteKind s.cfg level (s.pteAt addr) = .leaf → ∃ g, s.walk va = .leaf ⟨level, addr, s.pteAt addr, g⟩) := by
  cases h with
  | root h =>
    unfold State.walk walkFrom rootLevel
    unfold State.pteAt State.rootAddr at *
    exact ⟨fun hk => by simp [examinePte, h, hk], fun hk => by simp [examinePte, h, hk]⟩
  | next h hp h0 =>
    rw [walk_of_pointer h hp, walkFrom]
    unfold State.nextAddr at *
    refine ⟨fun hk => ?_, fun hk => ?_⟩
    · have he : examinePte s.cfg s.mem 0 (pteAddr (ptePpn (s.pteAt (s.rootAddr va))) (vpnIndex va 0)) = .pageFault := by
        simp only [State.pteAt] at hk h0 ⊢
        simp only [examinePte, h0, hk, if_true]
      rw [he]
    · have he : examinePte s.cfg s.mem 0 (pteAddr (ptePpn (s.pteAt (s.rootAddr va))) (vpnIndex va 0)) =
          .leaf (s.pteAt (pteAddr (ptePpn (s.pteAt (s.rootAddr va))) (vpnIndex va 0))) := by
        simp only [State.pteAt] at hk h0 ⊢
        simp only [examinePte, h0, hk, if_true]
      rw [he]
      exact ⟨_, rfl⟩

/-- A leaf that a walk finds is a PTE that the walk reads. -/
theorem reads_of_walk {s : State} {va : Word} {lf : Leaf} (h : s.walk va = .leaf lf) :
    s.WalkReads va lf.level lf.addr := by
  have h1 : walkFrom s.cfg s.mem va (0 + 1) s.satp.ppn false = .leaf lf := h
  rw [walkFrom] at h1
  split at h1
  · rename_i pte he
    cases h1
    exact .root (examinePte_leaf he).1
  · rename_i pte he
    obtain ⟨hp, hk, rfl⟩ := examinePte_pointer he
    rw [walkFrom] at h1
    split at h1
    · rename_i pte2 he2
      cases h1
      exact .next hp hk (examinePte_leaf he2).1
    all_goals cases h1
  all_goals cases h1

/-- A PTE that a walk reads is one it can come to (R202). -/
theorem reaches_of_reads {s : State} {va : Word} {level : Nat} {addr : PhysAddr} (h : s.WalkReads va level addr) :
    s.Reaches level addr := by
  cases h with
  | root h => exact .root _
  | next h hp h0 => exact .next _ _ hp

/-- What the walk takes for a leaf is a valid PTE with some permission (R72, R99). -/
theorem isLeaf_of_kind {c : Config} {level : Nat} {pte : Word} (h : pteKind c level pte = .leaf) : isLeaf pte = true := by
  revert h
  unfold isLeaf pteKind
  cases pteV pte <;> cases pteR pte <;> cases pteW pte <;> cases pteX pte <;> simp
  all_goals (repeat' split) <;> simp

/-- A valid PTE with some permission is a leaf, or has the reserved permissions W without R (R97). -/
theorem kind_of_isLeaf (c : Config) (level : Nat) {pte : Word} (h : isLeaf pte = true) :
    pteKind c level pte = .leaf ∨ (pteKind c level pte = .invalid ∧ pteR pte = false ∧ pteW pte = true) := by
  revert h
  unfold isLeaf pteKind
  cases pteV pte <;> cases pteR pte <;> cases pteW pte <;> cases pteX pte <;> simp

/-- What using a leaf can answer with an address: the access is granted by the leaf, and either no bit it needs is
clear, or the scheme is `Update` and the answer is to set those bits. -/
theorem useLeaf_cases (s : State) (va : Word) (t : AccessType) (p : Privilege) (dirty : Bool) (lf : Leaf) :
    s.useLeaf va t p dirty lf = .pageFault ∨ s.useLeaf va t p dirty lf = .accessFault ∨
    (s.useLeaf va t p dirty lf = .done (leafAddr lf.level lf.pte va) ∧ s.leafPermits t p lf = true ∧
      needsUpdate t dirty lf.pte = false) ∨
    (s.useLeaf va t p dirty lf = .update (leafAddr lf.level lf.pte va) lf.addr
        (setNeeded (decide (t = .store) && dirty) lf.pte) ∧
      s.leafPermits t p lf = true ∧ needsUpdate t dirty lf.pte = true ∧ s.cfg.adScheme = .update ∧
      pmpCheck s.cfg lf.addr 4 .store .S = true) := by
  unfold State.useLeaf
  by_cases h1 : s.leafPermits t p lf <;> by_cases h2 : needsUpdate t dirty lf.pte <;> simp [h1, h2]
  split
  · simp
  · rename_i h3
    by_cases h4 : pmpCheck s.cfg lf.addr 4 .store .S <;> simp [h3, h4]

@[simp] theorem useWalk_pageFault (s : State) (va : Word) (t : AccessType) (p : Privilege) (dirty : Bool) :
    s.useWalk va t p dirty .pageFault = .pageFault := rfl

@[simp] theorem useWalk_accessFault (s : State) (va : Word) (t : AccessType) (p : Privilege) (dirty : Bool) :
    s.useWalk va t p dirty .accessFault = .accessFault := rfl

@[simp] theorem useWalk_leaf (s : State) (va : Word) (t : AccessType) (p : Privilege) (dirty : Bool) (lf : Leaf) :
    s.useWalk va t p dirty (.leaf lf) = s.useLeaf va t p dirty lf := rfl

/-- The walk of an access is that from the root in memory, or (only with a cache) that from one cached PTE that hits. -/
theorem lookup_cases (s : State) (va : Word) (t : AccessType) (p : Privilege) (dirty : Bool) :
    s.lookup va t p dirty = s.walk va ∨
    (s.cfg.translationCache = true ∧ ∃ e ∈ s.tlb, e.hits s.asid va = true ∧
      s.lookup va t p dirty = s.walkCached va t p dirty e) := by
  unfold State.lookup
  cases h : s.cachedPte va t with
  | none => exact .inl rfl
  | some e =>
    unfold State.cachedPte at h
    split at h
    · rename_i hc
      split at h
      · cases h
      · have hm := List.mem_filter.1 (List.mem_of_getElem? h)
        exact .inr ⟨hc, e, hm.1, hm.2, rfl⟩
    · cases h

/-- Without a cache the walk of an access is that from the root. -/
theorem lookup_of_no_cache {s : State} (h : s.cfg.translationCache = false) (va : Word) (t : AccessType)
    (p : Privilege) (dirty : Bool) : s.lookup va t p dirty = s.walk va := by
  rcases lookup_cases s va t p dirty with h' | ⟨h', -⟩
  · exact h'
  · rw [h] at h'
    cases h'

/-- How the walk from a cached PTE ends, by what that PTE is (R110, R125). -/
theorem walkCached_cases (s : State) (va : Word) (t : AccessType) (p : Privilege) (dirty : Bool) (e : TlbEntry) :
    (pteKind s.cfg e.level e.pte = .invalid ∧ s.walkCached va t p dirty e = .pageFault) ∨
    (pteKind s.cfg e.level e.pte = .pointer ∧ s.walkCached va t p dirty e =
      walkFrom s.cfg s.mem va (e.level - 1) (ptePpn e.pte) (e.above || pteG e.pte)) ∨
    (pteKind s.cfg e.level e.pte = .leaf ∧ s.leafPermits t p (e.leaf va) = true ∧ needsUpdate t dirty e.pte = true ∧
      s.cfg.adScheme = .update ∧
      s.walkCached va t p dirty e = walkFrom s.cfg s.mem va e.level e.table e.above) ∨
    (pteKind s.cfg e.level e.pte = .leaf ∧
      (s.leafPermits t p (e.leaf va) = false ∨ needsUpdate t dirty e.pte = false ∨ s.cfg.adScheme = .fault) ∧
      s.walkCached va t p dirty e = .leaf (e.leaf va)) := by
  unfold State.walkCached
  cases hk : pteKind s.cfg e.level e.pte
  · simp
  · simp
  · cases h1 : s.leafPermits t p (e.leaf va) <;> cases h2 : needsUpdate t dirty e.pte <;>
      cases h3 : s.cfg.adScheme <;> simp

/-- A leaf that the walk of an access finds stands at the address of a PTE and is a leaf of its level; and where the
access is to update it, it is what memory holds there (R125). -/
theorem lookup_leaf {s : State} {va : Word} {t : AccessType} {p : Privilege} {dirty : Bool} {lf : Leaf}
    (h : s.lookup va t p dirty = .leaf lf) :
    (∃ t i, lf.addr = pteAddr t i) ∧ pteKind s.cfg lf.level lf.pte = .leaf ∧
      (s.leafPermits t p lf = true → needsUpdate t dirty lf.pte = true → s.cfg.adScheme = .update →
        lf.pte = s.pteAt lf.addr) := by
  have mem : ∀ {level table g}, walkFrom s.cfg s.mem va level table g = .leaf lf →
      (∃ t i, lf.addr = pteAddr t i) ∧ pteKind s.cfg lf.level lf.pte = .leaf ∧
      (s.leafPermits t p lf = true → needsUpdate t dirty lf.pte = true → s.cfg.adScheme = .update →
        lf.pte = s.pteAt lf.addr) := fun hw => by
    obtain ⟨h1, h2, h3, -⟩ := walkFrom_leaf hw
    exact ⟨h1, h2, fun _ _ _ => h3⟩
  rcases lookup_cases s va t p dirty with hw | ⟨-, e, -, -, hc⟩
  · exact mem (hw.symm.trans h)
  · rw [h] at hc
    rcases walkCached_cases s va t p dirty e with ⟨-, h'⟩ | ⟨-, h'⟩ | ⟨-, -, -, -, h'⟩ | ⟨hk, hno, h'⟩ <;> rw [h'] at hc
    · cases hc
    · exact mem hc.symm
    · exact mem hc.symm
    · cases hc
      refine ⟨⟨_, _, rfl⟩, hk, fun h1 h2 h3 => ?_⟩
      rcases hno with h | h | h
      · rw [h] at h1; cases h1
      · exact absurd h2 (by simp [TlbEntry.leaf, h])
      · rw [h] at h3; cases h3

/-- Under Sv32 an access is translated by what its walk ends in. -/
theorem translate_sv32 {s : State} (h : s.satp.mode = .sv32) (va : Word) (t : AccessType) (p : Privilege)
    (dirty : Bool) : s.translate va t p dirty = s.useWalk va t p dirty (s.lookup va t p dirty) := by
  simp [State.translate, h]

theorem translateByWalk_sv32 {s : State} (h : s.satp.mode = .sv32) (va : Word) (t : AccessType) (p : Privilege)
    (dirty : Bool) : s.translateByWalk va t p dirty = s.useWalk va t p dirty (s.walk va) := by
  simp [State.translateByWalk, h]

/-- Without a cache the translation under Sv32 is the walk's. -/
theorem translate_of_walks {s : State} (h : s.Walks) (va : Word) (t : AccessType) (p : Privilege) (dirty : Bool) :
    s.translate va t p dirty = s.translateByWalk va t p dirty := by
  rw [translate_sv32 h.1, translateByWalk_sv32 h.1, lookup_of_no_cache h.2]

/-- What an access whose translation answers an address without an update found: nothing is selected, or its walk ended
in a leaf that grants it and has every bit it needs (R38, R107, R108). -/
theorem translate_done {s : State} {va : Word} {t : AccessType} {p : Privilege} {dirty : Bool} {pa : PhysAddr}
    (h : s.translate va t p dirty = .done pa) :
    (s.satp.mode = .bare ∧ pa = bareAddr va) ∨
    (s.satp.mode = .sv32 ∧ ∃ lf, s.lookup va t p dirty = .leaf lf ∧ s.leafPermits t p lf = true ∧
      needsUpdate t dirty lf.pte = false ∧ pa = leafAddr lf.level lf.pte va) := by
  cases hm : s.satp.mode
  · simp only [State.translate, hm] at h
    cases h
    exact .inl ⟨rfl, rfl⟩
  · rw [translate_sv32 hm] at h
    cases hl : s.lookup va t p dirty <;> rw [hl] at h
    · cases h
    · cases h
    · rename_i lf
      rw [useWalk_leaf] at h
      rcases useLeaf_cases s va t p dirty lf with h' | h' | ⟨h', h1, h2⟩ | ⟨h', -⟩ <;> rw [h'] at h <;> cases h
      exact .inr ⟨rfl, lf, rfl, h1, h2, rfl⟩

/-- A translation that answers an address keeps the page offset. -/
theorem translate_done_offset {s : State} {va : Word} {t : AccessType} {p : Privilege} {dirty : Bool} {pa : PhysAddr}
    (h : s.translate va t p dirty = .done pa) : pa.extractLsb' 0 12 = pageOffset va := by
  rcases translate_done h with ⟨-, rfl⟩ | ⟨-, lf, -, -, -, rfl⟩
  · exact bareAddr_offset va
  · exact leafAddr_offset ..

/-- A translation that updates a PTE: its walk found the leaf, as memory holds it, which grants the access and lacks a
bit it needs; the scheme is `Update`; the needed bits are set and nothing else (R113, R124, R125). -/
theorem translate_update {s : State} {va : Word} {t : AccessType} {p : Privilege} {dirty : Bool} {pa addr : PhysAddr}
    {pte : Word} (h : s.translate va t p dirty = .update pa addr pte) :
    s.satp.mode = .sv32 ∧ ∃ lf, s.lookup va t p dirty = .leaf lf ∧ (∃ t i, lf.addr = pteAddr t i) ∧
      pteKind s.cfg lf.level lf.pte = .leaf ∧ lf.pte = s.pteAt lf.addr ∧ s.leafPermits t p lf = true ∧
      needsUpdate t dirty lf.pte = true ∧ s.cfg.adScheme = .update ∧ pmpCheck s.cfg lf.addr 4 .store .S = true ∧
      pa = leafAddr lf.level lf.pte va ∧ addr = lf.addr ∧ pte = setNeeded (decide (t = .store) && dirty) lf.pte := by
  cases hm : s.satp.mode
  · simp only [State.translate, hm] at h
    cases h
  · rw [translate_sv32 hm] at h
    cases hl : s.lookup va t p dirty <;> rw [hl] at h
    · cases h
    · cases h
    · rename_i lf
      rw [useWalk_leaf] at h
      rcases useLeaf_cases s va t p dirty lf with h' | h' | ⟨h', -⟩ | ⟨h', h1, h2, h3, h4⟩ <;> rw [h'] at h <;> cases h
      obtain ⟨h5, h6, h7⟩ := lookup_leaf hl
      exact ⟨rfl, lf, rfl, h5, h6, h7 h1 h2 h3, h1, h2, h3, h4, rfl, rfl, rfl⟩

/-- A hart with no cache fills nothing. -/
theorem fillCache_off {s : State} (h : s.cfg.translationCache = false) (va : Word) : s.fillCache va = s := by
  simp [State.fillCache, h]

/-- What a PTE write does to memory that is canonical and inside the address space. -/
theorem writePte_keeps {s : State} {t : Ppn} {i : TableIndex} (pte : Word) (hm : s.mem.wf = true)
    (hr : ∀ c ∈ s.mem, c.1 < 2 ^ palen s.cfg) :
    (s.writePte (pteAddr t i) pte).mem.wf = true ∧
      ∀ c ∈ (s.writePte (pteAddr t i) pte).mem, c.1 < 2 ^ palen s.cfg := by
  refine ⟨wf_physWrite hm _ _ _, fun c hc => ?_⟩
  rcases mem_physWrite hc with h | ⟨_, h⟩
  · exact hr c h
  · rw [machineAddr_eq] at h
    have h1 := pteAddr_end t i
    have h2 : (2 : Nat) ^ 34 ≤ 2 ^ palen s.cfg := Nat.pow_le_pow_right (by decide) (by unfold palen; omega)
    omega

/-- PTEs stand at multiples of 4, so no two of them overlap (R46). -/
theorem pteAddr_aligned (table : Ppn) (index : TableIndex) : (pteAddr table index).toNat % 4 = 0 := by
  rw [pteAddr_toNat]
  omega

/-- Two memories that hold the same four bytes hold the same PTE. -/
theorem pteAt_congr {s x : State} {addr : PhysAddr} (hc : x.cfg = s.cfg)
    (h : ∀ i < 4, x.mem.read (addr.toNat + i) = s.mem.read (addr.toNat + i)) : x.pteAt addr = s.pteAt addr := by
  simp only [State.pteAt, hc, machineAddr_eq]
  exact physRead_congr h

/-- A PTE write changes that PTE and no other (R42, R46). -/
theorem pteAt_writePte {s : State} (hm : s.mem.wf = true) (t u : Ppn) (i j : TableIndex) (pte : Word) :
    (s.writePte (pteAddr t i) pte).pteAt (pteAddr u j) =
      if pteAddr t i = pteAddr u j then pte else s.pteAt (pteAddr u j) := by
  split
  · rename_i h
    rw [← h]
    exact physRead_physWrite_word hm _ _
  · rename_i h
    have hne : (pteAddr t i).toNat ≠ (pteAddr u j).toNat := fun he => h (BitVec.eq_of_toNat_eq he)
    have h1 := pteAddr_aligned t i
    have h2 := pteAddr_aligned u j
    refine pteAt_congr rfl fun k hk => ?_
    rw [writePte_mem, machineAddr_eq]
    exact read_physWrite_outside hm _ (by omega)

/-- A pointer is no leaf, at whatever level (R72, R99). -/
theorem kind_leaf_ne_pointer {c : Config} {level level' : Nat} {pte : Word} (h : pteKind c level pte = .leaf) :
    pteKind c level' pte ≠ .pointer := by
  revert h
  unfold pteKind
  cases pteV pte <;> cases pteR pte <;> cases pteW pte <;> cases pteX pte <;> simp
  all_goals (repeat' split) <;> simp

/-- What makes a PTE a leaf, at any level: it is valid, readable or executable, and not writable alone (R72, R97). -/
theorem kind_leaf_iff {c : Config} {level : Nat} {pte : Word} : pteKind c level pte = .leaf ↔
    pteV pte = true ∧ (pteR pte = true ∨ pteX pte = true) ∧ (pteW pte = true → pteR pte = true) := by
  unfold pteKind
  cases pteV pte <;> cases pteR pte <;> cases pteW pte <;> cases pteX pte <;> simp
  all_goals (repeat' split) <;> simp

/-- Setting A, or A and D, leaves a leaf a leaf (R124). -/
theorem kind_setNeeded {c : Config} {level level' : Nat} {pte : Word} (h : pteKind c level pte = .leaf) (dirty : Bool) :
    pteKind c level' (setNeeded dirty pte) = .leaf := by
  rw [kind_leaf_iff] at h ⊢
  simp only [pteV, pteR, pteW, pteX, getLsbD_setNeeded] at h ⊢
  simpa using h

/-- What a speculative access can do: nothing, or set A in a leaf its walk finds and that grants it (R127); and fill
the cache. -/
theorem setAccessed_cases (s : State) (a : SpecAccess) :
    s.setAccessed a = s ∨ ∃ lf, s.walk a.va = .leaf lf ∧ s.leafPermits a.access a.priv lf = true ∧
      pteA lf.pte = false ∧ s.setAccessed a = s.writePte lf.addr (setNeeded false lf.pte) := by
  unfold State.setAccessed
  split
  · rename_i lf hlf
    split
    · rename_i h
      simp only [Bool.and_eq_true, Bool.not_eq_true'] at h
      exact .inr ⟨lf, hlf, h.1.1, h.1.2, rfl⟩
    · exact .inl rfl
  · exact .inl rfl

theorem speculateOne_cases (s : State) (a : SpecAccess) :
    (∃ l, s.speculateOne a = { s with tlb := l }) ∨
    ∃ lf l, s.cfg.aSpeculative = true ∧ s.cfg.adScheme = .update ∧ s.walk a.va = .leaf lf ∧
      s.leafPermits a.access a.priv lf = true ∧ pteA lf.pte = false ∧
      s.speculateOne a = { s.writePte lf.addr (setNeeded false lf.pte) with tlb := l } := by
  unfold State.speculateOne
  split
  · rename_i h
    simp only [Bool.and_eq_true, decide_eq_true_eq] at h
    rcases setAccessed_cases s a with he | ⟨lf, h1, h2, h3, he⟩
    · rw [he]
      exact .inl (fillCache_eq s a.va)
    · rw [he]
      obtain ⟨l, hl⟩ := fillCache_eq (s.writePte lf.addr (setNeeded false lf.pte)) a.va
      exact .inr ⟨lf, l, h.1, h.2, h1, h2, h3, hl⟩
  · exact .inl (fillCache_eq s a.va)

/-- A property that every speculative access keeps is kept by all the hart does between two steps. -/
theorem speculate_induction {P : State → Prop} {s : State} (h0 : P s) (h : ∀ x a, P x → P (x.speculateOne a)) :
    P s.speculate := by
  unfold State.speculate
  split
  · generalize Config.speculation s.free = l
    rename_i hc
    clear hc
    induction l generalizing s with
    | nil => exact h0
    | cons a l ih => exact ih (h s a h0)
  · exact h0

/-- A PTE write keeps the reservation or loses it. -/
theorem reservation_filter (r : Option Reservation) (P : Reservation → Bool) : r.filter P = r ∨ r.filter P = none := by
  cases r with
  | none => exact .inl rfl
  | some r => cases h : P r <;> simp [h]

/-- Between two steps the hart changes memory and its cache, and may lose its reservation; nothing else. -/
theorem speculate_eq (s : State) :
    ∃ m l r, (r = s.reservation ∨ r = none) ∧ s.speculate = { s with mem := m, tlb := l, reservation := r } := by
  refine speculate_induction (P := fun x => ∃ m l r, (r = s.reservation ∨ r = none) ∧
    x = { s with mem := m, tlb := l, reservation := r }) ⟨_, _, _, .inl rfl, rfl⟩ ?_
  rintro x a ⟨m, l, r, hr, rfl⟩
  rcases speculateOne_cases { s with mem := m, tlb := l, reservation := r } a with
    ⟨l', h⟩ | ⟨lf, l', -, -, -, -, -, h⟩ <;> rw [h]
  · exact ⟨_, _, _, hr, rfl⟩
  · refine ⟨_, _, _, ?_, rfl⟩
    rcases reservation_filter r fun r => !r.touched (machineAddr s.cfg lf.addr) 4 with h' | h' <;> rw [writePte_reservation, h']
    · exact hr
    · exact .inr rfl

/-- Speculation keeps memory canonical and inside the address space. -/
theorem speculate_keeps {s : State} (hm : s.mem.wf = true) (hr : ∀ c ∈ s.mem, c.1 < 2 ^ palen s.cfg) :
    s.speculate.mem.wf = true ∧ ∀ c ∈ s.speculate.mem, c.1 < 2 ^ palen s.cfg := by
  refine (speculate_induction (P := fun x => x.cfg = s.cfg ∧ x.mem.wf = true ∧ ∀ c ∈ x.mem, c.1 < 2 ^ palen s.cfg)
    ⟨rfl, hm, hr⟩ ?_).2
  rintro x a ⟨hc, hm, hr⟩
  rcases speculateOne_cases x a with ⟨l', h⟩ | ⟨lf, l', -, -, hlf, -, -, h⟩ <;> rw [h]
  · exact ⟨hc, hm, hr⟩
  · obtain ⟨⟨t, i, ha⟩, -⟩ := walk_leaf hlf
    rw [ha]
    have := writePte_keeps (t := t) (i := i) (setNeeded false lf.pte) hm (by rwa [hc])
    exact ⟨hc, this.1, by simpa [hc] using this.2⟩

/-- Where the hart neither updates A bits speculatively nor has a cache, it does nothing of its own accord. -/
theorem speculate_off {s : State} (h1 : s.cfg.aSpeculative = false) (h2 : s.cfg.translationCache = false) :
    s.speculate = s := by
  simp [State.speculate, h1, h2]

/-- Under Bare there is nothing to speculate on. -/
theorem speculate_bare {s : State} (h : s.satp.mode = .bare) : s.speculate = s := by
  simp [State.speculate, h]

end Sys2Proof.Machine
end

