-- ==== Sys2Proof/Laws/Access.lean ====
section
/-! SUPPORT. What an explicit access can become, and what an instruction that makes one can answer. -/

namespace Sys2Proof.Machine

/-- The state with no access pending and any cache. -/
abbrev State.settled (s : State) (l : List TlbEntry) : State := { s with pending := none, tlb := l }

/-- The cache is as it was, or has been filled for one address. -/
def Refilled (s : State) (l : List TlbEntry) : Prop :=
  l = s.tlb ∨ ∃ va, l = ({ s with pending := none }.fillCache va).tlb

theorem settled_self {s : State} (h : s.pending = none) : s.settled s.tlb = s := by
  cases s
  simp_all [State.settled]

/-- The stages after translation: performed in this very state, or an access fault of the access's type. -/
theorem checkPmp_cases (s : State) (pa : PhysAddr) (n : Nat) (t : AccessType) (p : Privilege) (checked : Bool) :
    (s.checkPmp pa n t p checked = .granted (machineAddr s.cfg pa) s ∧ (checked = true → pmpCheck s.cfg pa n t p = true)) ∨
    (s.checkPmp pa n t p checked = .trap (accessFaultOf t) s ∧ checked = true ∧ pmpCheck s.cfg pa n t p = false) := by
  unfold State.checkPmp
  cases checked <;> cases hp : pmpCheck s.cfg pa n t p <;> simp

/-- How a new access, of a state with nothing pending, ends. -/
theorem grantFresh_cases {s : State} (hs : s.pending = none) (job : Option Instr) (va : Word) (n : Nat)
    (t : AccessType) (p : Privilege) (dirty checked : Bool) :
    (∃ k l, Refilled s l ∧ s.grantFresh job va n t p dirty checked = .trap k (s.settled l) ∧
      (k = pageFaultOf t ∨ k = accessFaultOf t)) ∨
    (∃ pa addr pte l, l = ((s.writePte addr pte).fillCache va).tlb ∧ s.translate va t p dirty = .update pa addr pte ∧
      s.grantFresh job va n t p dirty checked =
        .updated { s.writePte addr pte with pending := some ⟨job, va, pa⟩, tlb := l }) ∨
    (∃ pa l, Refilled s l ∧ s.translate va t p dirty = .done pa ∧
      s.grantFresh job va n t p dirty checked = .granted (machineAddr s.cfg pa) (s.settled l) ∧
      (checked = true → pmpCheck s.cfg pa n t p = true)) := by
  have hno : { s with pending := none } = s := by cases s; simp_all
  unfold State.grantFresh
  cases ht : s.translate va t p dirty with
  | pageFault => exact .inl ⟨_, s.tlb, .inl rfl, by rw [settled_self hs], .inl rfl⟩
  | accessFault => exact .inl ⟨_, s.tlb, .inl rfl, by rw [settled_self hs], .inr rfl⟩
  | update pa addr pte =>
    obtain ⟨l, hl⟩ := fillCache_eq (s.writePte addr pte) va
    exact .inr (.inl ⟨pa, addr, pte, l, by rw [hl], rfl, by simp only [hl]⟩)
  | done pa =>
    obtain ⟨l, hl⟩ := fillCache_eq s va
    have he : s.fillCache va = s.settled l := by rw [hl]; cases s; simp_all [State.settled]
    have hl' : Refilled s l := .inr ⟨va, by rw [hno, he]⟩
    simp only [he]
    rcases checkPmp_cases (s.settled l) pa n t p checked with ⟨h, hp⟩ | ⟨h, -⟩
    · exact .inr (.inr ⟨pa, l, hl', rfl, h, hp⟩)
    · exact .inl ⟨_, l, hl', h, .inr rfl⟩

/-- How an explicit access ends (R40, R131): refused; a fault of its type; a PTE update that leaves it pending; or
performed, at the address translation gives or that was pending, with memory and every register as before. The cache may
have been filled for the address. -/
theorem grant_cases (s : State) (job : Option Instr) (va : Word) (n : Nat) (t : AccessType) (dirty checked : Bool) :
    (∃ r, s.grant job va n t dirty checked = .refused r) ∨
    (∃ k l, Refilled s l ∧ s.grant job va n t dirty checked = .trap k (s.settled l) ∧
      (k = pageFaultOf t ∨ k = accessFaultOf t)) ∨
    (∃ p pa addr pte l, s.mode.privilege = some p ∧
      l = (({ s with pending := none }.writePte addr pte).fillCache va).tlb ∧
      { s with pending := none }.translate va t p dirty = .update pa addr pte ∧
      s.grant job va n t dirty checked =
        .updated { s.writePte addr pte with pending := some ⟨job, va, pa⟩, tlb := l }) ∨
    (∃ p pa l, s.mode.privilege = some p ∧ Refilled s l ∧
      ({ s with pending := none }.translate va t p dirty = .done pa ∨ s.pending = some ⟨job, va, pa⟩) ∧
      (pageOffset va).toNat + n ≤ pageSize ∧ va.toNat % n = 0 ∧
      (checked = true → pmpCheck s.cfg pa n t p = true) ∧
      s.grant job va n t dirty checked = .granted (machineAddr s.cfg pa) (s.settled l)) := by
  unfold State.grant
  split
  · exact .inl ⟨_, rfl⟩
  · rename_i hcross
    split
    · exact .inl ⟨_, rfl⟩
    · rename_i hal
      cases hm : s.mode.privilege with
      | none => exact .inl ⟨_, rfl⟩
      | some p =>
        have hno : s.pending = none → { s with pending := none } = s := fun h => by cases s; simp_all
        have fresh : s.resolve job va n t p dirty checked
              = { s with pending := none }.grantFresh job va n t p dirty checked ∨
            ∃ q, s.pending = some q ∧ q.job = job ∧ q.va = va ∧ s.resolve job va n t p dirty checked
              = { s with pending := none }.checkPmp q.pa n t p checked := by
          unfold State.resolve
          cases hq : s.pending with
          | none => exact .inl (by simp only [hno hq])
          | some q =>
            by_cases hj : q.job = job ∧ q.va = va
            · exact .inr ⟨q, rfl, hj.1, hj.2, by simp [hj]⟩
            · exact .inl (by simp only [if_neg hj])
        rcases fresh with h | ⟨q, hq, rfl, rfl, h⟩ <;> simp only [h]
        · rcases grantFresh_cases (s := { s with pending := none }) rfl job va n t p dirty checked with
            ⟨k, l, hl, h, hk⟩ | ⟨pa, addr, pte, l, hl, ht, h⟩ | ⟨pa, l, hl, ht, h, hp⟩ <;> simp only [h]
          · exact .inr (.inl ⟨k, l, hl, rfl, hk⟩)
          · exact .inr (.inr (.inl ⟨p, pa, addr, pte, l, rfl, hl, ht, rfl⟩))
          · exact .inr (.inr (.inr ⟨p, pa, l, rfl, hl, .inl ht, by omega, by omega, hp, rfl⟩))
        · rcases checkPmp_cases { s with pending := none } q.pa n t p checked with ⟨h, hp⟩ | ⟨h, -⟩ <;> simp only [h]
          · exact .inr (.inr (.inr ⟨p, q.pa, s.tlb, rfl, .inl rfl, .inr hq, by omega, by omega, hp, rfl⟩))
          · exact .inr (.inl ⟨_, s.tlb, .inl rfl, rfl, .inr rfl⟩)

/-- An access that nothing stands in the way of is a new one, made with the privilege of the mode. -/
theorem grant_of_attempts {s : State} {va : Word} {n : Nat} {p : Privilege} (h : s.Attempts va n p) (job : Option Instr)
    (t : AccessType) (dirty checked : Bool) :
    s.grant job va n t dirty checked = s.grantFresh job va n t p dirty checked := by
  obtain ⟨h1, h2, h3, h4⟩ := h
  unfold State.grant State.resolve
  rw [if_neg (by omega), if_neg (by omega), h3]
  simp [h4]

/-- The state an access is performed in differs from the one before in the pending access and the cache alone. -/
theorem grant_granted {s s1 : State} {job : Option Instr} {va : Word} {n : Nat} {t : AccessType}
    {dirty checked : Bool} {a : Nat} (h : s.grant job va n t dirty checked = .granted a s1) :
    ∃ p pa l, s.mode.privilege = some p ∧ a = machineAddr s.cfg pa ∧ s1 = s.settled l ∧ Refilled s l ∧
      ({ s with pending := none }.translate va t p dirty = .done pa ∨ s.pending = some ⟨job, va, pa⟩) ∧
      (pageOffset va).toNat + n ≤ pageSize ∧ va.toNat % n = 0 ∧
      (checked = true → pmpCheck s.cfg pa n t p = true) := by
  rcases grant_cases s job va n t dirty checked with ⟨r, h'⟩ | ⟨k, l, -, h', -⟩ |
    ⟨p, pa, addr, pte, l, -, -, -, h'⟩ | ⟨p, pa, l, hm, hl, ht, hc, ha, hp, h'⟩ <;> rw [h] at h' <;> cases h'
  exact ⟨p, pa, l, hm, rfl, rfl, hl, ht, hc, ha, hp⟩

/-- The fields of the state an access is performed in. -/
theorem granted_fields {s s1 : State} {job : Option Instr} {va : Word} {n : Nat} {t : AccessType}
    {dirty checked : Bool} {a : Nat} (h : s.grant job va n t dirty checked = .granted a s1) :
    s1.cfg = s.cfg ∧ s1.regs = s.regs ∧ s1.pc = s.pc ∧ s1.mode = s.mode ∧ s1.satp = s.satp ∧ s1.mem = s.mem ∧
      s1.reservation = s.reservation ∧ s1.free = s.free ∧ s1.pending = none := by
  obtain ⟨p, pa, l, -, -, rfl, -⟩ := grant_granted h
  simp

/-- The bytes an access is performed on lie inside the address space, in a state that keeps the invariant (R15, R48). -/
theorem granted_in_range {s s1 : State} {job : Option Instr} {va : Word} {n : Nat} {t : AccessType}
    {dirty checked : Bool} {a : Nat} (hi : s.Inv) (h : s.grant job va n t dirty checked = .granted a s1) :
    a + n ≤ 2 ^ palen s.cfg := by
  obtain ⟨p, pa, l, -, rfl, -, -, ht, hc, -, -⟩ := grant_granted h
  have ho : pa.extractLsb' 0 12 = pageOffset va := by
    rcases ht with ht | hq
    · exact translate_done_offset ht
    · exact hi.pendingOffset _ hq
  have ho' : pa.toNat % 4096 = (pageOffset va).toNat := by
    rw [← ho]
    simp
  have hlt := pa.isLt
  have h2 : (2 : Nat) ^ 34 ≤ 2 ^ palen s.cfg := Nat.pow_le_pow_right (by decide) (by unfold palen; omega)
  rw [machineAddr_eq]
  unfold pageSize at hc
  omega

/-- What an instruction that makes one access can answer as a next state: the state after a trap of the access's type,
the state after the PTE update, or what it does once the access is granted. -/
theorem andThen_next {g : Grant} {va : Word} {run : Nat → State → Outcome} {s' : State}
    (h : g.andThen va run = .next s') :
    (∃ k s1, g = .trap k s1 ∧ s' = s1.takeTrap k va) ∨ g = .updated s' ∨
      ∃ a s1, g = .granted a s1 ∧ run a s1 = .next s' := by
  cases g with
  | refused r => cases h
  | trap k s1 => cases h; exact .inl ⟨_, _, rfl, rfl⟩
  | updated s1 => cases h; exact .inr (.inl rfl)
  | granted a s1 => exact .inr (.inr ⟨_, _, rfl, h⟩)

@[simp] theorem andThen_granted (a : Nat) (s : State) (va : Word) (run : Nat → State → Outcome) :
    (Grant.granted a s).andThen va run = run a s := rfl

@[simp] theorem andThen_trap (k : TrapKind) (s : State) (va : Word) (run : Nat → State → Outcome) :
    (Grant.trap k s).andThen va run = .next (s.takeTrap k va) := rfl

@[simp] theorem andThen_updated (s : State) (va : Word) (run : Nat → State → Outcome) :
    (Grant.updated s).andThen va run = .next s := rfl

@[simp] theorem andThen_refused (r : Refusal) (va : Word) (run : Nat → State → Outcome) :
    (Grant.refused r).andThen va run = .refused r := rfl

/-- An instruction of the "A" extension that answers a next state is run by a hart that has the extension. -/
theorem withAtomics_next {s s' : State} {run : Outcome} (h : withAtomics s run = .next s') :
    s.cfg.hasA = true ∧ run = .next s' := by
  unfold withAtomics at h
  split at h
  · exact ⟨‹_›, h⟩
  · cases h

@[simp] theorem withAtomics_on {s : State} (h : s.cfg.hasA = true) (run : Outcome) : withAtomics s run = run := by
  simp [withAtomics, h]

end Sys2Proof.Machine
end

