-- ==== Sys2Proof/Laws/Decode.lean ====
section
/-! SUPPORT. The fields of a word built by the encoder, and of the immediates cut for it. -/

namespace Sys2Proof

/-- Bit `i` of a word built from the six fields (R76). -/
theorem getLsbD_joinFields (f7 : BitVec 7) (rs2 rs1 : Reg) (f3 : BitVec 3) (rd : Reg) (op : BitVec 7) (i : Nat) :
    (joinFields f7 rs2 rs1 f3 rd op).getLsbD i =
      if i < 7 then op.getLsbD i else if i < 12 then rd.getLsbD (i - 7) else if i < 15 then f3.getLsbD (i - 12)
      else if i < 20 then rs1.getLsbD (i - 15) else if i < 25 then rs2.getLsbD (i - 20) else f7.getLsbD (i - 25) := by
  refine BitVec.getLsbD_append.trans ?_
  by_cases h1 : i < 7
  · simp [h1]
  simp only [h1, if_false, BitVec.getLsbD_append, Nat.sub_sub]
  by_cases h2 : i < 12
  · simp [h2, show i - 7 < 5 by omega]
  simp only [h2, if_false, show ¬ i - 7 < 5 by omega]
  by_cases h3 : i < 15
  · simp [h3, show i - 12 < 3 by omega]
  simp only [h3, if_false, show ¬ i - (7 + 5) < 3 by omega]
  by_cases h4 : i < 20
  · simp [h4, show i - 15 < 5 by omega]
  simp only [h4, if_false, show ¬ i - (7 + (5 + 3)) < 5 by omega]
  by_cases h5 : i < 25
  · simp [h5, show i - 20 < 5 by omega]
  simp [h5, show ¬ i - 20 < 5 by omega]

section Fields
variable (f7 : BitVec 7) (rs2 rs1 : Reg) (f3 : BitVec 3) (rd : Reg) (op : BitVec 7)

@[simp] theorem opcodeOf_joinFields : opcodeOf (joinFields f7 rs2 rs1 f3 rd op) = op := by
  ext i hi; simp [← BitVec.getLsbD_eq_getElem, hi, opcodeOf, getLsbD_joinFields]

@[simp] theorem rdOf_joinFields : rdOf (joinFields f7 rs2 rs1 f3 rd op) = rd := by
  ext i hi; simp [← BitVec.getLsbD_eq_getElem, hi, rdOf, getLsbD_joinFields, show 7 + i < 12 by omega]

@[simp] theorem funct3Of_joinFields : funct3Of (joinFields f7 rs2 rs1 f3 rd op) = f3 := by
  ext i hi
  simp [← BitVec.getLsbD_eq_getElem, hi, funct3Of, getLsbD_joinFields, show ¬ 12 + i < 7 by omega, show 12 + i < 15 by omega]

@[simp] theorem rs1Of_joinFields : rs1Of (joinFields f7 rs2 rs1 f3 rd op) = rs1 := by
  ext i hi
  simp [← BitVec.getLsbD_eq_getElem, hi, rs1Of, getLsbD_joinFields, show ¬ 15 + i < 7 by omega, show ¬ 15 + i < 12 by omega,
    show 15 + i < 20 by omega]

@[simp] theorem rs2Of_joinFields : rs2Of (joinFields f7 rs2 rs1 f3 rd op) = rs2 := by
  ext i hi
  simp [← BitVec.getLsbD_eq_getElem, hi, rs2Of, getLsbD_joinFields, show ¬ 20 + i < 7 by omega, show ¬ 20 + i < 12 by omega,
    show ¬ 20 + i < 15 by omega, show 20 + i < 25 by omega]

@[simp] theorem funct7Of_joinFields : funct7Of (joinFields f7 rs2 rs1 f3 rd op) = f7 := by
  ext i hi
  simp [← BitVec.getLsbD_eq_getElem, hi, funct7Of, getLsbD_joinFields, show ¬ 25 + i < 7 by omega, show ¬ 25 + i < 12 by omega,
    show ¬ 25 + i < 15 by omega, show ¬ 25 + i < 20 by omega]

/-- A word is its six fields. -/
theorem joinFields_fields (w : Word) :
    joinFields (funct7Of w) (rs2Of w) (rs1Of w) (funct3Of w) (rdOf w) (opcodeOf w) = w := by
  apply BitVec.eq_of_getLsbD_eq
  intro i hi
  rw [getLsbD_joinFields]
  simp only [opcodeOf, rdOf, funct3Of, rs1Of, rs2Of, funct7Of, BitVec.getLsbD_extractLsb']
  repeat' split
  · simp [show i < 7 by omega]
  · simp [show i - 7 < 5 by omega, show 7 + (i - 7) = i by omega]
  · simp [show i - 12 < 3 by omega, show 12 + (i - 12) = i by omega]
  · simp [show i - 15 < 5 by omega, show 15 + (i - 15) = i by omega]
  · simp [show i - 20 < 5 by omega, show 20 + (i - 20) = i by omega]
  · simp [show i - 25 < 7 by omega, show 25 + (i - 25) = i by omega]

end Fields

/-- An immediate is its upper seven and lower five bits. -/
@[simp] theorem imm_split (imm : BitVec 12) : (imm.extractLsb' 5 7 ++ imm.extractLsb' 0 5 : BitVec 12) = imm := by
  apply BitVec.eq_of_getLsbD_eq
  intro i hi
  refine BitVec.getLsbD_append.trans ?_
  by_cases h : i < 5
  · simp [h]
  · simp [h, show i - 5 < 7 by omega, show 5 + (i - 5) = i by omega]

/-- The fields of the top seven bits of an atomic instruction. -/
@[simp] theorem funct5_aq_rl (f5 : BitVec 5) (aq rl : Bool) :
    (f5 ++ BitVec.ofBool aq ++ BitVec.ofBool rl : BitVec 7).extractLsb' 2 5 = f5 ∧
      (f5 ++ BitVec.ofBool aq ++ BitVec.ofBool rl : BitVec 7).getLsbD 1 = aq ∧
      (f5 ++ BitVec.ofBool aq ++ BitVec.ofBool rl : BitVec 7).getLsbD 0 = rl := by
  revert f5 aq rl
  decide

/-- A word is its four bytes. -/
theorem wordOfBytes_bytesOfWord (w : Word) :
    wordOfBytes (w.extractLsb' 0 8) (w.extractLsb' 8 8) (w.extractLsb' 16 8) (w.extractLsb' 24 8) = w := by
  apply BitVec.eq_of_getLsbD_eq
  intro i hi
  simp only [wordOfBytes, BitVec.getLsbD_append, BitVec.getLsbD_extractLsb']
  repeat' split
  · simp
    omega
  · rw [show 8 + (i - 8) = i by omega]
    simp
    omega
  · rw [show 16 + (i - 8 - 8) = i by omega]
    simp
    omega
  · rw [show 24 + (i - 8 - 8 - 8) = i by omega]
    simp
    omega

end Sys2Proof
end

