-- ==== Sys2Proof/Laws/Exec.lean ====
section
/-! SUPPORT. What an instruction, and a step, can answer. -/

namespace Sys2Proof.Machine

/-- An instruction that makes an access goes on with what the access becomes (R40, R162). -/
theorem exec_access {s : State} {i : Instr} {a : Access} (ha : s.accessOf i = some a)
    (hw : Instr.wellFormed s.cfg i = true) : ∃ run, exec i s = (s.grantOf i a).andThen a.ea run := by
  cases i <;> cases ha
  case lb => exact ⟨_, rfl⟩
  case lh => exact ⟨_, rfl⟩
  case lw => exact ⟨_, rfl⟩
  case lbu => exact ⟨_, rfl⟩
  case lhu => exact ⟨_, rfl⟩
  case sb => exact ⟨_, rfl⟩
  case sh => exact ⟨_, rfl⟩
  case sw => exact ⟨_, rfl⟩
  all_goals exact ⟨_, withAtomics_on (by simpa [Instr.wellFormed, Instr.isAtomic] using hw) _⟩

/-- What an instruction does to the state where it runs to its end: `pc + 4`, and registers, memory, reservation and
cache as its rule says; memory is as before, or its access is of type Store and the bytes of that access are stored; the
cache holds nothing but what it held and what a fill has taken up. -/
structure Completed (i : Instr) (s t : State) : Prop where
  system : SameSystem s t
  pc : t.pc = s.pc + 4#32
  pending : t.pending = none ∨ t.pending = s.pending
  memory : t.mem = s.mem ∨ ∃ acc a v s1, Instr.wellFormed s.cfg i = true ∧ s.accessOf i = some acc ∧
    acc.type = .store ∧ acc.checked = true ∧ s.grantOf i acc = .granted a s1 ∧ t.mem = physWrite s.mem a acc.size v
  cache : ∃ l, Refilled s l ∧ ∀ e ∈ t.tlb, e ∈ l

/-- Everything an instruction can answer as a next state: a trap from the state before, the PTE update that goes before
its access (R131), or its own effect. -/
inductive ExecNext (i : Instr) (s t : State) : Prop
  | trap (k : TrapKind) (v : Word) (l : List TlbEntry) (hl : Refilled s l) (h : t = (s.settled l).takeTrap k v)
  | updated (p : Privilege) (pa addr : PhysAddr) (pte : Word) (l : List TlbEntry) (a : Access)
      (ha : s.accessOf i = some a) (hm : s.mode.privilege = some p)
      (hl : l = (({ s with pending := none }.writePte addr pte).fillCache a.ea).tlb)
      (ht : { s with pending := none }.translate a.ea a.type p a.dirty = .update pa addr pte)
      (h : t = { s.writePte addr pte with pending := some ⟨some i, a.ea, pa⟩, tlb := l })
  | completed (h : Completed i s t)

/-- An instruction that makes one access answers as its access does, or as it does itself once the access is granted. -/
theorem ExecNext.of_access {i : Instr} {s t : State} {a : Access} {run : Nat → State → Outcome}
    (ha : s.accessOf i = some a) (h : (s.grantOf i a).andThen a.ea run = .next t)
    (hdone : ∀ b s1, s.grantOf i a = .granted b s1 → run b s1 = .next t → Completed i s t) : ExecNext i s t := by
  rcases andThen_next h with ⟨k, s1, hg, rfl⟩ | hg | ⟨b, s1, hg, hr⟩
  · rcases grant_cases s (some i) a.ea a.size a.type a.dirty a.checked with ⟨r, h'⟩ | ⟨k', l, hl, h', -⟩ |
      ⟨p, pa, addr, pte, l, -, -, -, h'⟩ | ⟨p, pa, l, -, -, -, -, -, -, h'⟩ <;>
      rw [State.grantOf, h'] at hg <;> cases hg
    exact .trap _ _ _ hl rfl
  · rcases grant_cases s (some i) a.ea a.size a.type a.dirty a.checked with ⟨r, h'⟩ | ⟨k', l, -, h', -⟩ |
      ⟨p, pa, addr, pte, l, hm, hl, ht, h'⟩ | ⟨p, pa, l, -, -, -, -, -, -, h'⟩ <;>
      rw [State.grantOf, h'] at hg <;> cases hg
    exact .updated p pa addr pte l a ha hm hl ht rfl
  · exact .completed (hdone b s1 hg hr)

/-- The effect of an instruction after its access is granted, from what it does to the state the access is performed in. -/
theorem Completed.of_granted {i : Instr} {s s1 t : State} {a : Access} {b : Nat} (ha : s.accessOf i = some a)
    (hg : s.grantOf i a = .granted b s1) (hsys : SameSystem s1 t) (hpc : t.pc = s1.pc + 4#32)
    (hpend : t.pending = s1.pending) (htlb : t.tlb = s1.tlb)
    (hmem : t.mem = s1.mem ∨ (Instr.wellFormed s.cfg i = true ∧ a.type = .store ∧ a.checked = true ∧
      ∃ v, t.mem = physWrite s1.mem b a.size v)) :
    Completed i s t := by
  obtain ⟨p, pa, l, -, -, rfl, hl, -⟩ := grant_granted hg
  refine ⟨hsys, hpc, .inl hpend, ?_, l, hl, fun e he => by rwa [htlb] at he⟩
  rcases hmem with hm | ⟨hw, ht, hc, v, hm⟩
  · exact .inl hm
  · exact .inr ⟨a, b, v, _, hw, ha, ht, hc, hg, hm⟩

/-- An instruction of a hart that has the "A" extension is well formed. -/
theorem wellFormed_of_hasA {c : Config} (h : c.hasA = true) (i : Instr) : Instr.wellFormed c i = true := by
  simp [Instr.wellFormed, h]

theorem load_next {i : Instr} {rd : Reg} {ea : Word} {n : Nat} {ext : Word → Word} {s t : State}
    (ha : s.accessOf i = some ⟨ea, n, .load, true, true⟩) (h : load i rd ea n ext s = .next t) : ExecNext i s t := by
  refine .of_access ha h fun b s1 hg hr => ?_
  cases hr
  exact .of_granted ha hg (by simp [SameSystem]) (by simp) (by simp) (by simp) (.inl (by simp))

theorem store_next {i : Instr} {ea : Word} {n : Nat} {v : Word} {s t : State}
    (ha : s.accessOf i = some ⟨ea, n, .store, true, true⟩) (hw : Instr.wellFormed s.cfg i = true)
    (h : store i ea n v s = .next t) : ExecNext i s t := by
  refine .of_access ha h fun b s1 hg hr => ?_
  cases hr
  exact .of_granted ha hg (by simp [SameSystem]) (by simp) (by simp) (by simp) (.inr ⟨hw, rfl, rfl, v, by simp⟩)

theorem amo_next {i : Instr} {op : Word → Word → Word} {rd rs2 rs1 : Reg} {s t : State}
    (ha : s.accessOf i = some ⟨s.readReg rs1, 4, .store, true, true⟩) (h : amo i op rd rs2 rs1 s = .next t) :
    ExecNext i s t := by
  have hw := wellFormed_of_hasA (withAtomics_next h).1 i
  refine .of_access ha (withAtomics_next h).2 fun b s1 hg hr => ?_
  cases hr
  exact .of_granted ha hg (by simp [SameSystem]) (by simp) (by simp) (by simp) (.inr ⟨hw, rfl, rfl, _, by simp; rfl⟩)

theorem execLrW_next {rd rs1 : Reg} {aq rl : Bool} {s t : State} (h : execLrW rd rs1 aq rl s = .next t) :
    ExecNext (.lrW rd rs1 aq rl) s t := by
  refine .of_access rfl (withAtomics_next h).2 fun b s1 hg hr => ?_
  cases hr
  exact .of_granted rfl hg (by simp [SameSystem]) (by simp) (by simp) (by simp) (.inl (by simp))

theorem execScW_next {rd rs2 rs1 : Reg} {aq rl : Bool} {s t : State} (h : execScW rd rs2 rs1 aq rl s = .next t) :
    ExecNext (.scW rd rs2 rs1 aq rl) s t := by
  have hw := wellFormed_of_hasA (withAtomics_next h).1 (.scW rd rs2 rs1 aq rl)
  refine .of_access rfl (withAtomics_next h).2 fun b s1 hg hr => ?_
  by_cases hres : s.reserved (s.readReg rs1) = true
  · simp only [hres, if_true] at hr
    cases hr
    exact .of_granted rfl hg (by simp [SameSystem]) (by simp) (by simp) (by simp)
      (.inr ⟨hw, rfl, hres, s.readReg rs2, by simp⟩)
  · simp only [hres] at hr
    cases hr
    exact .of_granted rfl hg (by simp [SameSystem]) (by simp) (by simp) (by simp) (.inl (by simp))

theorem execFence_next {fm pred succ : BitVec 4} {rs1 rd : Reg} {s t : State}
    (h : execFence fm pred succ rs1 rd s = .next t) : ExecNext (.fence fm pred succ rs1 rd) s t := by
  cases h
  exact .completed ⟨by simp [SameSystem], by simp, .inr (by simp), .inl (by simp), s.tlb, .inl rfl, by simp⟩

/-- A trap forgets the pending access. -/
theorem settled_takeTrap (s : State) (k : TrapKind) (v : Word) : (s.settled s.tlb).takeTrap k v = s.takeTrap k v := by
  unfold State.takeTrap State.delegates
  split <;> rfl

theorem execSfenceVma_next {rs1 rs2 : Reg} {s t : State} (h : execSfenceVma rs1 rs2 s = .next t) :
    ExecNext (.sfenceVma rs1 rs2) s t := by
  unfold execSfenceVma at h
  split at h
  · cases h
    exact .trap .illegalInstruction (Config.illegalTval s.free) s.tlb (.inl rfl) (settled_takeTrap ..).symm
  · cases h
    exact .completed ⟨by simp [SameSystem], by simp, .inr (by simp), .inl (by simp), s.tlb, .inl rfl,
      fun e he => (List.mem_filter.1 he).1⟩

/-- What an instruction can answer as a next state, for every instruction. -/
theorem exec_next {i : Instr} {s t : State} (h : exec i s = .next t) : ExecNext i s t := by
  cases i
  case lb => exact load_next rfl h
  case lh => exact load_next rfl h
  case lw => exact load_next rfl h
  case lbu => exact load_next rfl h
  case lhu => exact load_next rfl h
  case sb => exact store_next rfl (by simp [Instr.wellFormed, Instr.isAtomic]) h
  case sh => exact store_next rfl (by simp [Instr.wellFormed, Instr.isAtomic]) h
  case sw => exact store_next rfl (by simp [Instr.wellFormed, Instr.isAtomic]) h
  case lrW => exact execLrW_next h
  case scW => exact execScW_next h
  case fence => exact execFence_next h
  case sfenceVma => exact execSfenceVma_next h
  case amoswapW =>
    unfold exec execAmoswapW at h
    exact amo_next rfl h
  case amoaddW =>
    unfold exec execAmoaddW at h
    exact amo_next rfl h
  case amoxorW =>
    unfold exec execAmoxorW at h
    exact amo_next rfl h
  case amoandW =>
    unfold exec execAmoandW at h
    exact amo_next rfl h
  case amoorW =>
    unfold exec execAmoorW at h
    exact amo_next rfl h
  case amominW =>
    unfold exec execAmominW at h
    exact amo_next rfl h
  case amomaxW =>
    unfold exec execAmomaxW at h
    exact amo_next rfl h
  case amominuW =>
    unfold exec execAmominuW at h
    exact amo_next rfl h
  case amomaxuW =>
    unfold exec execAmomaxuW at h
    exact amo_next rfl h

/-- What comes before a step changes memory, the cache and the model's counter, and may lose the reservation; nothing
else. -/
theorem beforeStep_eq (s : State) : ∃ m l r, (r = s.reservation ∨ r = none) ∧
    s.beforeStep = { s with mem := m, tlb := l, reservation := r, free := s.free + 1 } := by
  obtain ⟨m, l, r, hr, h⟩ := speculate_eq s
  exact ⟨m, l, r, hr, by simp [State.beforeStep, h]⟩

/-- What comes before a step leaves every field but memory, the cache, the reservation and the counter. -/
theorem beforeStep_fields (s : State) :
    s.beforeStep.cfg = s.cfg ∧ s.beforeStep.regs = s.regs ∧ s.beforeStep.pc = s.pc ∧ s.beforeStep.mode = s.mode ∧
      s.beforeStep.satp = s.satp ∧ s.beforeStep.pending = s.pending := by
  obtain ⟨m, l, r, -, h⟩ := beforeStep_eq s
  rw [h]
  simp

/-- A hart with no data access pending fetches (R140). -/
theorem hartStep_of_fetch {s : State} (h : ∀ q, s.pending = some q → q.job = none) (run : Instr → State → Outcome) :
    s.hartStep run = s.fetchAndRun run := by
  unfold State.hartStep
  split
  · rename_i i va pa hq
    cases h _ hq
  · rfl

/-- What comes before a step keeps the invariant. -/
theorem beforeStep_inv {s : State} (h : s.Inv) : s.beforeStep.Inv := by
  obtain ⟨m, l, r, -, he⟩ := speculate_eq s
  obtain ⟨hm, hr⟩ := speculate_keeps h.memCanonical h.memInRange
  have hb : s.beforeStep = { s with mem := m, tlb := l, reservation := r, free := s.free + 1 } := by simp [State.beforeStep, he]
  rw [he] at hm hr
  rw [hb]
  exact ⟨hm, hr, h.pcAligned, h.pendingOffset⟩

/-- Everything a step can answer as a next state: the trap of a fetch; the PTE update that goes before a fetch; the run
of the instruction fetched, in a state that differs in the pending access and the cache alone; or the resumption of an
instruction whose access is pending. -/
inductive StepNext (b t : State) : Prop
  | fetchTrap (k : TrapKind) (l : List TlbEntry) (hl : Refilled b l) (h : t = (b.settled l).takeTrap k b.pc)
  | fetchUpdated (p : Privilege) (pa addr : PhysAddr) (pte : Word) (l : List TlbEntry)
      (hm : b.mode.privilege = some p)
      (hl : l = (({ b with pending := none }.writePte addr pte).fillCache b.pc).tlb)
      (ht : { b with pending := none }.translate b.pc .fetch p true = .update pa addr pte)
      (h : t = { b.writePte addr pte with pending := some ⟨none, b.pc, pa⟩, tlb := l })
  | run (i : Instr) (a : Nat) (l : List TlbEntry) (hq : ∀ q, b.pending = some q → q.job = none)
      (hp : b.pc.toNat % 4 = 0) (hl : Refilled b l) (hg : b.grant none b.pc 4 .fetch true true = .granted a (b.settled l))
      (hd : decodeWord (physRead b.mem a 4) = .ok i) (h : exec i (b.settled l) = .next t)
  | resumed (i : Instr) (va : Word) (pa : PhysAddr) (hq : b.pending = some ⟨some i, va, pa⟩) (h : exec i b = .next t)

theorem fetchAndRun_next {b t : State} (hq : ∀ q, b.pending = some q → q.job = none)
    (h : b.fetchAndRun exec = .next t) : StepNext b t := by
  unfold State.fetchAndRun at h
  split at h
  · cases h
  · rename_i hp
    rcases andThen_next h with ⟨k, s1, hg, rfl⟩ | hg | ⟨a, s1, hg, hr⟩
    · rcases grant_cases b none b.pc 4 .fetch true true with ⟨r, h'⟩ | ⟨k', l, hl, h', -⟩ |
        ⟨p, pa, addr, pte, l, -, -, -, h'⟩ | ⟨p, pa, l, -, -, -, -, -, -, h'⟩ <;> rw [h'] at hg <;> cases hg
      exact .fetchTrap _ _ hl rfl
    · rcases grant_cases b none b.pc 4 .fetch true true with ⟨r, h'⟩ | ⟨k', l, -, h', -⟩ |
        ⟨p, pa, addr, pte, l, hm, hl, ht, h'⟩ | ⟨p, pa, l, -, -, -, -, -, -, h'⟩ <;> rw [h'] at hg <;> cases hg
      exact .fetchUpdated p pa addr pte l hm hl ht rfl
    · obtain ⟨p, pa, l, -, -, rfl, hl, -⟩ := grant_granted hg
      unfold runWord at hr
      split at hr
      · rename_i i hi
        exact .run i a l hq (by omega) hl hg hi hr
      · cases hr

/-- A step is one of speculation alone, or the step of the hart after what it does of its own accord. -/
theorem step_eq (s : State) : s.StepAnswers (s.beforeStep.hartStep exec) := rfl

/-- Where the hart makes no speculative A updates, there is no step of them alone. -/
theorem speculativeStep_off {s : State}
    (h : s.cfg.aSpeculative = false ∨ s.cfg.adScheme = .fault ∨ s.satp.mode = .bare) : s.speculativeStep = false := by
  unfold State.speculativeStep
  rcases h with h | h | h <;> simp [h]

theorem stepAnswers_of {s : State} {o : Outcome} (h : s.beforeStep.hartStep exec = o) : s.StepAnswers o := h ▸ step_eq s

theorem step_of_off {s : State}
    (h : s.cfg.aSpeculative = false ∨ s.cfg.adScheme = .fault ∨ s.satp.mode = .bare) :
    step s = s.beforeStep.hartStep exec := by
  rw [step_eq s, speculativeStep_off h]
  rfl

/-- Everything the hart's own step can answer as a next state. -/
theorem hartStep_next {b t : State} (h : b.hartStep exec = .next t) : StepNext b t := by
  unfold State.hartStep at h
  split at h
  · rename_i i va pa hq
    exact .resumed i va pa hq h
  · rename_i hn
    refine fetchAndRun_next (fun q hq => ?_) h
    cases hj : q.job with
    | none => rfl
    | some i => exact absurd hq (by cases q; cases hj; exact hn _ _ _)

/-- Everything a step can answer as a next state: what the hart did of its own accord and no more, or what follows it. -/
theorem step_next {s t : State} (h : step s = .next t) :
    (s.speculativeStep = true ∧ t = s.beforeStep) ∨ (s.speculativeStep = false ∧ StepNext s.beforeStep t) := by
  rw [step_eq s] at h
  split at h
  · rename_i hs
    cases h
    exact .inl ⟨hs, rfl⟩
  · rename_i hs
    exact .inr ⟨Bool.eq_false_iff.2 hs, hartStep_next h⟩

theorem Runs.trans {s t u : State} (h : Runs s t) (h' : Runs t u) : Runs s u := by
  induction h with
  | refl => exact h'
  | next hs _ ih => exact .next hs (ih h')

/-- The premise of R60 gives premise (c) of R202. -/
theorem State.StaticCode.storesNoLaterFetch {s : State} (h : s.StaticCode) : s.StoresNoLaterFetch :=
  fun u w x hu hw => h u w x hu (hu.trans hw)

end Sys2Proof.Machine
end

