-- ==== Sys2Proof/Laws/PerInstr.lean ====
section
/-! SUPPORT. The per-instruction families of LAWS.json. `EncodeMatchesRow`: the word the encoder writes is of the
instruction's row of the opcode table, `w & mask = match` (30_encoding.md R78). -/

namespace Sys2Proof.Laws

/-- `w & mask = match` for the word of the instruction and its own row. -/
def EncodeMatchesRow.Statement (i : Instr) : Prop := encode i &&& (tableRow i).2 = (tableRow i).1

/-- The bitwise and of two words is the and of their fields. -/
theorem joinFields_and (f7 g7 : BitVec 7) (rs2 qs2 rs1 qs1 : Reg) (f3 g3 : BitVec 3) (rd qd : Reg) (op oq : BitVec 7) :
    joinFields f7 rs2 rs1 f3 rd op &&& joinFields g7 qs2 qs1 g3 qd oq =
      joinFields (f7 &&& g7) (rs2 &&& qs2) (rs1 &&& qs1) (f3 &&& g3) (rd &&& qd) (op &&& oq) := by
  apply BitVec.eq_of_getLsbD_eq
  intro i hi
  simp only [BitVec.getLsbD_and, getLsbD_joinFields]
  repeat' split
  all_goals rfl

/-- The mask of the rows that fix funct3 and opcode. -/
theorem mask_funct3_opcode : (0x0000707F#32 : Word) = joinFields 0#7 0#5 0#5 7#3 0#5 127#7 := by decide

/-- The mask of the rows that also fix funct5. -/
theorem mask_funct5 : (0xF800707F#32 : Word) = joinFields 124#7 0#5 0#5 7#3 0#5 127#7 := by decide

/-- The and with the masks of R78, for a word of the I, S or FENCE formats. -/
theorem row_of_fields (f7 : BitVec 7) (rs2 rs1 : Reg) (f3 : BitVec 3) (rd : Reg) (op : BitVec 7) :
    joinFields f7 rs2 rs1 f3 rd op &&& 0x0000707F#32 = joinFields 0#7 0#5 0#5 f3 0#5 op := by
  rw [mask_funct3_opcode, joinFields_and]
  simp only [BitVec.and_zero]
  rw [show f3 &&& 7#3 = f3 by revert f3; decide, show op &&& 127#7 = op by revert op; decide]

/-- The and with the mask of SC and the AMOs. -/
theorem row_of_atomic (f5 : BitVec 5) (aq rl : Bool) (rs2 rs1 rd : Reg) :
    encodeAtomic f5 aq rl rs2 rs1 rd &&& 0xF800707F#32 = joinFields (f5 ++ 0#2) 0#5 0#5 2#3 0#5 47#7 := by
  rw [encodeAtomic, mask_funct5, joinFields_and]
  simp only [BitVec.and_zero]
  rw [show (f5 ++ BitVec.ofBool aq ++ BitVec.ofBool rl : BitVec 7) &&& 124#7 = f5 ++ 0#2 by revert f5 aq rl; decide]
  rfl

theorem EncodeMatchesRow.lb (rd rs1 : Reg) (imm : BitVec 12) : EncodeMatchesRow.Statement (.lb rd rs1 imm) :=
  row_of_fields ..

theorem EncodeMatchesRow.lh (rd rs1 : Reg) (imm : BitVec 12) : EncodeMatchesRow.Statement (.lh rd rs1 imm) :=
  row_of_fields ..

theorem EncodeMatchesRow.lw (rd rs1 : Reg) (imm : BitVec 12) : EncodeMatchesRow.Statement (.lw rd rs1 imm) :=
  row_of_fields ..

theorem EncodeMatchesRow.lbu (rd rs1 : Reg) (imm : BitVec 12) : EncodeMatchesRow.Statement (.lbu rd rs1 imm) :=
  row_of_fields ..

theorem EncodeMatchesRow.lhu (rd rs1 : Reg) (imm : BitVec 12) : EncodeMatchesRow.Statement (.lhu rd rs1 imm) :=
  row_of_fields ..

theorem EncodeMatchesRow.sb (rs2 rs1 : Reg) (imm : BitVec 12) : EncodeMatchesRow.Statement (.sb rs2 rs1 imm) :=
  row_of_fields ..

theorem EncodeMatchesRow.sh (rs2 rs1 : Reg) (imm : BitVec 12) : EncodeMatchesRow.Statement (.sh rs2 rs1 imm) :=
  row_of_fields ..

theorem EncodeMatchesRow.sw (rs2 rs1 : Reg) (imm : BitVec 12) : EncodeMatchesRow.Statement (.sw rs2 rs1 imm) :=
  row_of_fields ..

theorem EncodeMatchesRow.lrW (rd rs1 : Reg) (aq rl : Bool) : EncodeMatchesRow.Statement (.lrW rd rs1 aq rl) := by
  have hm : (0xF9F0707F#32 : Word) = joinFields 124#7 31#5 0#5 7#3 0#5 127#7 := by decide
  simp only [EncodeMatchesRow.Statement, encode, tableRow, encodeAtomic]
  rw [hm, joinFields_and]
  simp only [BitVec.and_zero, BitVec.zero_and]
  cases aq <;> cases rl <;> decide

theorem EncodeMatchesRow.scW (rd rs2 rs1 : Reg) (aq rl : Bool) :
    EncodeMatchesRow.Statement (.scW rd rs2 rs1 aq rl) := (row_of_atomic ..).trans rfl

theorem EncodeMatchesRow.amoswapW (rd rs2 rs1 : Reg) (aq rl : Bool) :
    EncodeMatchesRow.Statement (.amoswapW rd rs2 rs1 aq rl) := (row_of_atomic ..).trans rfl

theorem EncodeMatchesRow.amoaddW (rd rs2 rs1 : Reg) (aq rl : Bool) :
    EncodeMatchesRow.Statement (.amoaddW rd rs2 rs1 aq rl) := (row_of_atomic ..).trans rfl

theorem EncodeMatchesRow.amoxorW (rd rs2 rs1 : Reg) (aq rl : Bool) :
    EncodeMatchesRow.Statement (.amoxorW rd rs2 rs1 aq rl) := (row_of_atomic ..).trans rfl

theorem EncodeMatchesRow.amoandW (rd rs2 rs1 : Reg) (aq rl : Bool) :
    EncodeMatchesRow.Statement (.amoandW rd rs2 rs1 aq rl) := (row_of_atomic ..).trans rfl

theorem EncodeMatchesRow.amoorW (rd rs2 rs1 : Reg) (aq rl : Bool) :
    EncodeMatchesRow.Statement (.amoorW rd rs2 rs1 aq rl) := (row_of_atomic ..).trans rfl

theorem EncodeMatchesRow.amominW (rd rs2 rs1 : Reg) (aq rl : Bool) :
    EncodeMatchesRow.Statement (.amominW rd rs2 rs1 aq rl) := (row_of_atomic ..).trans rfl

theorem EncodeMatchesRow.amomaxW (rd rs2 rs1 : Reg) (aq rl : Bool) :
    EncodeMatchesRow.Statement (.amomaxW rd rs2 rs1 aq rl) := (row_of_atomic ..).trans rfl

theorem EncodeMatchesRow.amominuW (rd rs2 rs1 : Reg) (aq rl : Bool) :
    EncodeMatchesRow.Statement (.amominuW rd rs2 rs1 aq rl) := (row_of_atomic ..).trans rfl

theorem EncodeMatchesRow.amomaxuW (rd rs2 rs1 : Reg) (aq rl : Bool) :
    EncodeMatchesRow.Statement (.amomaxuW rd rs2 rs1 aq rl) := (row_of_atomic ..).trans rfl

theorem EncodeMatchesRow.fence (fm pred succ : BitVec 4) (rs1 rd : Reg) :
    EncodeMatchesRow.Statement (.fence fm pred succ rs1 rd) :=
  row_of_fields ..

theorem EncodeMatchesRow.sfenceVma (rs1 rs2 : Reg) : EncodeMatchesRow.Statement (.sfenceVma rs1 rs2) := by
  have hm : (0xFE007FFF#32 : Word) = joinFields 127#7 0#5 0#5 7#3 31#5 127#7 := by decide
  simp only [EncodeMatchesRow.Statement, encode, tableRow]
  rw [hm, joinFields_and]
  simp only [BitVec.and_zero]
  decide

end Sys2Proof.Laws
end

