-- ==== Sys2Proof/Tests/Slice0.lean ====
section
/-! SUPPORT. Tests: words of the spec's encodings and vectors of 95_test_vectors.md, one step each, and for every
obligation with hypotheses a state that meets them. Expected values come from the spec's tables or from its rules by
hand, not from the model. -/

namespace Sys2Proof.Tests

open Sys2Proof.Machine

/-! ## Well-formedness -/

/-- A hart without the "A" extension. -/
def noAtomics : Config := { Config.standard with hasA := false }

theorem test_wellFormed_refuses_lr : Instr.wellFormed noAtomics (.lrW 6 10 false false) = false := by decide
theorem test_wellFormed_refuses_sc : Instr.wellFormed noAtomics (.scW 7 5 10 false false) = false := by decide
theorem test_wellFormed_refuses_amo : Instr.wellFormed noAtomics (.amoaddW 7 5 12 false false) = false := by decide
theorem test_wellFormed_accepts :
    Instr.wellFormed noAtomics (.lw 6 10 0) = true ∧ Instr.wellFormed Config.standard (.scW 7 5 10 true true) = true := by
  decide

/-! ## Decoding: the words of 95_test_vectors.md section 2.7, and for the rows it leaves out words written out from the
formats of R76 and the columns of R78 -/

theorem test_decode_lb : decodeWord 0b111111111100_01010_000_00101_0000011#32 = .ok (.lb 5 10 0xFFC) := by decide
theorem test_decode_lh : decodeWord 0x00659403#32 = .ok (.lh 8 11 6) := by decide
theorem test_decode_lw : decodeWord 0x00052283#32 = .ok (.lw 5 10 0) := by decide
theorem test_decode_lbu : decodeWord 0x0055C383#32 = .ok (.lbu 7 11 5) := by decide
theorem test_decode_lhu : decodeWord 0b000000000010_00001_101_11111_0000011#32 = .ok (.lhu 31 1 2) := by decide
theorem test_decode_sb : decodeWord 0b1000000_00010_00011_000_00001_0100011#32 = .ok (.sb 2 3 0x801) := by decide
theorem test_decode_sh : decodeWord 0b0000000_00110_01010_001_00010_0100011#32 = .ok (.sh 6 10 2) := by decide
theorem test_decode_sw : decodeWord 0x00652423#32 = .ok (.sw 6 10 8) := by decide
theorem test_decode_lrW : decodeWord 0x1005232F#32 = .ok (.lrW 6 10 false false) := by decide
theorem test_decode_scW : decodeWord 0x185523AF#32 = .ok (.scW 7 5 10 false false) := by decide
theorem test_decode_amoswapW : decodeWord 0x0856A42F#32 = .ok (.amoswapW 8 5 13 false false) := by decide
theorem test_decode_amoaddW : decodeWord 0x005623AF#32 = .ok (.amoaddW 7 5 12 false false) := by decide
theorem test_decode_amoxorW :
    decodeWord 0b00100_1_0_00101_01100_010_00111_0101111#32 = .ok (.amoxorW 7 5 12 true false) := by decide
theorem test_decode_amoandW :
    decodeWord 0b01100_0_1_00101_01100_010_00111_0101111#32 = .ok (.amoandW 7 5 12 false true) := by decide
theorem test_decode_amoorW :
    decodeWord 0b01000_0_0_00101_01100_010_00111_0101111#32 = .ok (.amoorW 7 5 12 false false) := by decide
theorem test_decode_amominW :
    decodeWord 0b10000_0_0_00101_01100_010_00111_0101111#32 = .ok (.amominW 7 5 12 false false) := by decide
theorem test_decode_amomaxW :
    decodeWord 0b10100_0_0_00101_01100_010_00111_0101111#32 = .ok (.amomaxW 7 5 12 false false) := by decide
theorem test_decode_amominuW :
    decodeWord 0b11000_0_0_00101_01100_010_00111_0101111#32 = .ok (.amominuW 7 5 12 false false) := by decide
theorem test_decode_amomaxuW :
    decodeWord 0b11100_0_0_00101_01100_010_00111_0101111#32 = .ok (.amomaxuW 7 5 12 false false) := by decide
theorem test_decode_fence : decodeWord 0x0330000F#32 = .ok (.fence 0 3 3 0 0) := by decide
theorem test_decode_sfenceVma :
    decodeWord 0x12B50073#32 = .ok (.sfenceVma 10 11) ∧ decodeWord 0x12000073#32 = .ok (.sfenceVma 0 0) := by decide

/-- 95_test_vectors.md section 4: `addi` is no row of the table; `LR.W` with `rs2 != 0` is reserved (R82). -/
theorem test_decode_refuses :
    decodeWord 0x00000013#32 = .error .notInTable ∧ decodeWord 0x1015232F#32 = .error .reservedLr ∧
    decode [0x13, 0, 0] = .error .truncated := by decide

/-- The word as the opcode table numbers its bits. -/
theorem test_decodeTableWord : decodeTableWord 32 0x00552223 = some (.sw 5 10 4) := by decide

/-! ## The start state of 95_test_vectors.md section 3.1 -/

/-- Words placed in memory. -/
def place (m : Memory) : List (Nat × Word) → Memory
  | [] => m
  | (a, w) :: rest => place (physWrite m a 4 w) rest

/-- The page tables of section 3.1. -/
def tables : Memory := place []
  [(0x80000004, 0x20000401#32), (0x80000100, 0x20000801#32), (0x80000400, 0x201000DF#32), (0x80001000, 0x2000404B#32),
   (0x80001004, 0x20004443#32), (0x80002000, 0x200080C7#32), (0x80002004, 0x20008043#32), (0x80002008, 0x20008407#32),
   (0x8000200C, 0x20008849#32)]

/-- S-mode, Sv32 with the root table at `0x80000000`, page faults delegated to a handler at `0x00400800`. -/
def start : State :=
  { State.reset with
    satp := ⟨.sv32, 0, 0x80000⟩, pc := 0x00400000#32, stvec := 0x00400800#32, medeleg := 0xB000#32, mem := tables }

/-- The start state with further words in memory. -/
def withWords (l : List (Nat × Word)) : State := { start with mem := place tables l }

/-- The data word of section 2.6 at VA `0x10000000`, whose address is in `x10`; `0x12345678` in `x5`. -/
def data : State := ((withWords [(0x80020000, 0xF2349280#32)]).writeReg 10 0x10000000#32).writeReg 5 0x12345678#32

/-- The same page, with the operands of the AMO table of section 2.6. -/
def amoData (old v : Word) : State := ((withWords [(0x80020000, old)]).writeReg 10 0x10000000#32).writeReg 5 v

/-- The outcome is a next state with the property. -/
def nextIs (o : Outcome) (p : State → Bool) : Bool :=
  match o with
  | .next t => p t
  | _ => false

theorem nextIs_next {o : Outcome} (h : nextIs o (fun _ => true) = true) : ∃ t, o = .next t := by
  cases o with
  | next t => exact ⟨t, rfl⟩
  | fault r => cases h
  | refused r => cases h

/-! ## Instructions: 95_test_vectors.md section 2.6 -/

theorem test_lb : nextIs (exec (.lb 6 10 0) data) (fun t => t.readReg 6 == 0xFFFFFF80#32) = true := by decide
theorem test_lb_offset : nextIs (exec (.lb 6 10 3) data) (fun t => t.readReg 6 == 0xFFFFFFF2#32) = true := by decide
theorem test_lbu : nextIs (exec (.lbu 6 10 0) data) (fun t => t.readReg 6 == 0x00000080#32) = true := by decide
theorem test_lh : nextIs (exec (.lh 6 10 0) data) (fun t => t.readReg 6 == 0xFFFF9280#32) = true := by decide
theorem test_lhu : nextIs (exec (.lhu 6 10 0) data) (fun t => t.readReg 6 == 0x00009280#32) = true := by decide
theorem test_lw_into_base :
    nextIs (exec (.lw 10 10 0) data) (fun t => t.readReg 10 == 0xF2349280#32 && t.pc == 0x00400004#32) = true := by decide
/-- `lw x0, 0(rs1)` on an unreadable page still raises the load page fault. -/
theorem test_lw_x0_faults :
    nextIs (exec (.lw 0 10 0) (data.writeReg 10 0x10003000#32))
      (fun t => t.scause == 13#32 && t.stval == 0x10003000#32 && t.sepc == 0x00400000#32) = true := by decide
theorem test_sb :
    nextIs (exec (.sb 5 10 1) data) (fun t => physRead t.mem 0x80020000 4 == 0xF2347880#32) = true := by decide
theorem test_sh :
    nextIs (exec (.sh 5 10 2) data) (fun t => physRead t.mem 0x80020000 4 == 0x56789280#32) = true := by decide
theorem test_sw :
    nextIs (exec (.sw 5 10 0) data) (fun t => physRead t.mem 0x80020000 4 == 0x12345678#32) = true := by decide
/-- Program P1, its last instruction: a store to the read-only alias. -/
theorem test_sw_read_only :
    nextIs (exec (.sw 5 11 0) (data.writeReg 11 0x10001000#32))
      (fun t => t.scause == 15#32 && t.stval == 0x10001000#32 && physRead t.mem 0x80020000 4 == 0xF2349280#32) = true := by
  decide
theorem test_lrW :
    nextIs (exec (.lrW 6 10 false false) data)
      (fun t => t.readReg 6 == 0xF2349280#32 && t.reserved 0x10000000#32) = true := by decide
/-- A reservation set does not reach the next page (E7). -/
theorem test_lrW_page :
    nextIs (exec (.lrW 6 10 false false) (data.writeReg 10 0x10000FFC#32)) (fun t => !t.reserved 0x10001000#32) = true := by
  decide
theorem test_scW_reserved :
    nextIs (exec (.scW 7 5 10 false false) { data with reservation := some ⟨0x10000000#32, 0x80020000, 0#4096⟩ })
      (fun t => t.readReg 7 == 0#32 && physRead t.mem 0x80020000 4 == 0x12345678#32 && t.reservation == none) = true := by
  decide
theorem test_scW_not_reserved :
    nextIs (exec (.scW 7 5 10 false false) data)
      (fun t => t.readReg 7 == 1#32 && physRead t.mem 0x80020000 4 == 0xF2349280#32) = true := by decide
theorem test_amoswapW :
    nextIs (exec (.amoswapW 7 5 10 false false) (amoData 0x80000000#32 1#32))
      (fun t => t.readReg 7 == 0x80000000#32 && physRead t.mem 0x80020000 4 == 0x00000001#32) = true := by decide
theorem test_amoaddW :
    nextIs (exec (.amoaddW 7 5 10 false false) (amoData 0x80000000#32 1#32))
      (fun t => t.readReg 7 == 0x80000000#32 && physRead t.mem 0x80020000 4 == 0x80000001#32) = true := by decide
/-- The sum wraps; the source register is also the destination. -/
theorem test_amoaddW_wraps :
    nextIs (exec (.amoaddW 5 5 10 false false) (amoData 0xFFFFFFFF#32 1#32))
      (fun t => t.readReg 5 == 0xFFFFFFFF#32 && physRead t.mem 0x80020000 4 == 0x00000000#32) = true := by decide
theorem test_amoxorW :
    nextIs (exec (.amoxorW 7 5 10 false false) (amoData 0x80000000#32 1#32))
      (fun t => t.readReg 7 == 0x80000000#32 && physRead t.mem 0x80020000 4 == 0x80000001#32) = true := by decide
theorem test_amoandW :
    nextIs (exec (.amoandW 7 5 10 false false) (amoData 0x80000000#32 1#32))
      (fun t => t.readReg 7 == 0x80000000#32 && physRead t.mem 0x80020000 4 == 0x00000000#32) = true := by decide
theorem test_amoorW :
    nextIs (exec (.amoorW 7 5 10 false false) (amoData 0x80000000#32 1#32))
      (fun t => t.readReg 7 == 0x80000000#32 && physRead t.mem 0x80020000 4 == 0x80000001#32) = true := by decide
theorem test_amominW :
    nextIs (exec (.amominW 7 5 10 false false) (amoData 0x80000000#32 1#32))
      (fun t => t.readReg 7 == 0x80000000#32 && physRead t.mem 0x80020000 4 == 0x80000000#32) = true := by decide
theorem test_amomaxW :
    nextIs (exec (.amomaxW 7 5 10 false false) (amoData 0x80000000#32 1#32))
      (fun t => t.readReg 7 == 0x80000000#32 && physRead t.mem 0x80020000 4 == 0x00000001#32) = true := by decide
theorem test_amominuW :
    nextIs (exec (.amominuW 7 5 10 false false) (amoData 0x80000000#32 1#32))
      (fun t => t.readReg 7 == 0x80000000#32 && physRead t.mem 0x80020000 4 == 0x00000001#32) = true := by decide
theorem test_amomaxuW :
    nextIs (exec (.amomaxuW 7 5 10 false false) (amoData 0x80000000#32 1#32))
      (fun t => t.readReg 7 == 0x80000000#32 && physRead t.mem 0x80020000 4 == 0x80000000#32) = true := by decide
/-- E5: an AMO on an unreadable page raises the store page fault. -/
theorem test_amo_unreadable :
    nextIs (exec (.amoswapW 7 5 10 false false) (data.writeReg 10 0x10003000#32))
      (fun t => t.scause == 15#32 && t.readReg 7 == 0#32) = true := by decide
theorem test_fence : nextIs (exec (.fence 0 3 3 0 0) data) (fun t => t.pc == 0x00400004#32) = true := by decide
theorem test_sfenceVma : nextIs (exec (.sfenceVma 0 0) data) (fun t => t.pc == 0x00400004#32) = true := by decide
/-- `SFENCE.VMA` in U-mode: exception code 2, not delegated here, so into M-mode. -/
theorem test_sfenceVma_user :
    nextIs (exec (.sfenceVma 0 0) { data with mode := .user })
      (fun t => t.mcause == 2#32 && t.mode == .machine && t.mepc == 0x00400000#32) = true := by decide

/-! ## Steps -/

/-- Program P1, its first instruction, fetched through the page tables. -/
theorem test_step_p1 :
    nextIs (step ((withWords [(0x80010000, 0x00552223#32)]).writeReg 5 0xDEADBEEF#32 |>.writeReg 10 0x10000000#32))
      (fun t => t.pc == 0x00400004#32 && physRead t.mem 0x80020004 4 == 0xDEADBEEF#32) = true := by decide
/-- Program P2, the fetch at `0x00401000`, and its variant in U-mode. -/
theorem test_step_p2 :
    nextIs (step { start with pc := 0x00401000#32 })
      (fun t => t.scause == 12#32 && t.stval == 0x00401000#32 && t.sepc == 0x00401000#32) = true ∧
    nextIs (step { start with pc := 0x00400FF8#32, mode := .user })
      (fun t => t.scause == 12#32 && t.stval == 0x00400FF8#32 && t.spp == false) = true := by decide
/-- Program P3: `lw` on a page with A = 0 under scheme `Fault`. -/
theorem test_step_p3_fault :
    nextIs (step ((withWords [(0x80010000, 0x00062303#32)]).writeReg 12 0x10002000#32))
      (fun t => t.scause == 13#32 && t.stval == 0x10002000#32 && physRead t.mem 0x80002008 4 == 0x20008407#32) = true := by
  decide
/-- Program P3 under scheme `Update`: the first step of `lw` sets A and leaves the access pending. -/
theorem test_step_p3_update :
    nextIs (step (((withWords [(0x80010000, 0x00062303#32)]).writeReg 12 0x10002000#32).withScheme .update))
      (fun t => t.pc == 0x00400000#32 && physRead t.mem 0x80002008 4 == 0x20008447#32 &&
        t.pending == some ⟨some (.lw 6 12 0), 0x10002000#32, 0x080021000#34⟩) = true := by decide
/-- Program P4: megapage, SUM, and a supervisor fetch from a user page. -/
theorem test_step_p4 :
    nextIs (exec (.lw 6 14 4) ((withWords [(0x80412348, 0x11223344#32)]).writeReg 14 0x40012344#32))
      (fun t => t.scause == 13#32 && t.stval == 0x40012348#32) = true ∧
    nextIs (exec (.lw 6 14 4) { (withWords [(0x80412348, 0x11223344#32)]).writeReg 14 0x40012344#32 with sum := true })
      (fun t => t.readReg 6 == 0x11223344#32) = true ∧
    nextIs (step { start with pc := 0x40000000#32, sum := true })
      (fun t => t.scause == 12#32 && t.stval == 0x40000000#32) = true := by decide
/-- `data` with the word at `0x10000000` reserved. -/
def reserving : State := { data with reservation := some ⟨0x10000000#32, 0x80020000, 0#4096⟩ }

/-- H4: a hart that has reserved a PTE and then sets a bit in it has lost the reservation; that of another word it keeps. -/
theorem test_pte_write_breaks_reservation :
    (reserving.writePte 0x080020000#34 0x20008447#32).reservation.isNone = true ∧
    (reserving.writePte 0x080020004#34 0x20008849#32).reservation.isSome = true := by decide +kernel
/-- A word placed by `withFetchWord` is the one the next step runs, from reset and under Sv32 (log 30). -/
theorem test_withFetchWord :
    nextIs (step (State.reset.withFetchWord 32 0x00052283)) (fun t => t.pc == 4#32 && t.readReg 5 == 0x00052283#32) = true ∧
    nextIs (step (start.withFetchWord 32 0x0330000F)) (fun t => t.pc == 0x00400004#32) = true := by decide

/-! ## Walks: 95_test_vectors.md sections 2.2 to 2.5 -/

/-- A state with these words in memory and nothing else. -/
def vec (l : List (Nat × Word)) : State := { start with mem := place [] l }

/-- The walk of V1 with this leaf. -/
def leafVec (pte : Word) : State := vec [(0x80000120, 0x20000401#32), (0x80001D14, pte)]

theorem test_v1 :
    (leafVec 0xEAF378C7#32).translateByWalk 0x12345678#32 .load .S true = .done 0x3ABCDE678#34 ∧
    (leafVec 0xEAF378C7#32).translateByWalk 0x12345678#32 .fetch .S true = .pageFault := by decide
theorem test_v2 :
    (vec [(0x80000120, 0x3AB000DF#32)]).translateByWalk 0x12345678#32 .load .U true = .done 0x0EAF45678#34 ∧
    (vec [(0x80000120, 0xEAB000C7#32)]).translateByWalk 0x12345678#32 .store .S true = .done 0x3AAF45678#34 := by decide
theorem test_v3 :
    (vec [(0x80000120, 0x3AB004DF#32)]).translateByWalk 0x12345678#32 .load .U true = .pageFault := by decide
theorem test_v4 : State.reset.translate 0x12345678#32 .fetch .U true = .done 0x012345678#34 := by decide
theorem test_v8 :
    (vec [(0x80000FFC, 0xFFFFFC01#32), (0x3FFFFFFFC, 0xFFFFFCCF#32)]).translateByWalk 0xFFFFFFFF#32 .load .S true
      = .done 0x3FFFFFFFF#34 ∧
    (vec [(0x80000000, 0x00000401#32), (0x00001000, 0x00000043#32)]).translateByWalk 0#32 .load .S true = .done 0#34 := by
  decide
theorem test_v10 :
    (vec [(0x80000120, 0x20000411#32), (0x80001D14, 0xEAF378C7#32)]).translateByWalk 0x12345678#32 .load .S true
      = .done 0x3ABCDE678#34 := by decide

/-- Whether the leaf with these flag bytes grants a fetch, a load and a store. -/
def grants (p : Privilege) (sum : Bool) (flags : Word) : List Bool :=
  [AccessType.fetch, .load, .store].map fun t =>
    { leafVec (0xEAF37800#32 ||| flags) with sum := sum }.translateByWalk 0x12345678#32 t p true == .done 0x3ABCDE678#34

/-- Section 2.3, row by row: XWR 001 to 111. -/
theorem test_permission_matrix :
    [0xC3#32, 0xC5#32, 0xC7#32, 0xC9#32, 0xCB#32, 0xCD#32, 0xCF#32].map (grants .S false) =
      [[false, true, false], [false, false, false], [false, true, true], [true, false, false], [true, true, false],
        [false, false, false], [true, true, true]] := by decide
/-- Section 2.4, the rows for `p = S` and U = 1, then `p = U` and U = 0. -/
theorem test_user_matrix :
    grants .S false 0xDF#32 = [false, false, false] ∧ grants .S true 0xDF#32 = [false, true, true] ∧
    grants .U false 0xDF#32 = [true, true, true] ∧ grants .U true 0xCF#32 = [false, false, false] := by decide
/-- Section 2.5 under scheme `Update`: the PTE after the access. -/
theorem test_ad_update :
    [(0x07#32, AccessType.load), (0x07#32, .store), (0x47#32, .store), (0x87#32, .load), (0x09#32, .fetch)].map
        (fun x => ((leafVec (0xEAF37800#32 ||| x.1)).withScheme .update).translateByWalk 0x12345678#32 x.2 .S true) =
      [.update 0x3ABCDE678#34 0x080001D14#34 0xEAF37847#32, .update 0x3ABCDE678#34 0x080001D14#34 0xEAF378C7#32,
        .update 0x3ABCDE678#34 0x080001D14#34 0xEAF378C7#32, .update 0x3ABCDE678#34 0x080001D14#34 0xEAF378C7#32,
        .update 0x3ABCDE678#34 0x080001D14#34 0xEAF37849#32] := by decide

/-! ## States that meet the hypotheses of the obligations -/

/-- The start state with code at `pc`: `sw x5, 4(x10)`. -/
def codeAt : State := (withWords [(0x80010000, 0x00552223#32)]).writeReg 10 0x10000000#32

/-- Nothing pending, so no pending data access. -/
theorem noPending {s : State} (h : s.pending = none) : ∀ q, s.pending = some q → q.job = none := by simp [h]

theorem test_witness_EncodeInvertsDecode : decodeWord 0x12B50073#32 = .ok (.sfenceVma 10 11) := by decide

theorem test_witness_DecodeFollowsTheTable :
    0x00052283#32 &&& (tableRow (.lw 0 0 0)).2 = (tableRow (.lw 0 0 0)).1 ∧ decodeWord 0x00052283#32 = .ok (.lw 5 10 0) ∧
    tableRow (.lw 5 10 0) = tableRow (.lw 0 0 0) := by decide

theorem test_witness_StepRunsTheFetchedInstruction :
    (∀ q, codeAt.pending = some q → q.job = none) ∧ codeAt.pc.toNat % 4 = 0 ∧
    codeAt.beforeStep.grant none codeAt.pc 4 .fetch true true = .granted 0x80010000 codeAt.beforeStep ∧
    decode [codeAt.beforeStep.mem.read 0x80010000, codeAt.beforeStep.mem.read 0x80010001,
      codeAt.beforeStep.mem.read 0x80010002, codeAt.beforeStep.mem.read 0x80010003] = .ok (.sw 5 10 4, []) :=
  ⟨noPending rfl, by decide, by decide, by decide⟩

theorem test_witness_StepResumesThePendingAccess :
    { start with pending := some ⟨some (.lw 6 12 0), 0x10002000#32, 0x080021000#34⟩ }.pending =
      some ⟨some (.lw 6 12 0), 0x10002000#32, 0x080021000#34⟩ := rfl

/-- The start state with a word of no row, and with the reserved `LR.W`, at `pc`. -/
def addiAt : State := withWords [(0x80010000, 0x00000013#32)]
def reservedAt : State := withWords [(0x80010000, 0x1015232F#32)]

theorem test_witness_StepRefusesOtherWords_unlisted :
    (∀ q, addiAt.pending = some q → q.job = none) ∧ addiAt.pc.toNat % 4 = 0 ∧
    addiAt.beforeStep.grant none addiAt.pc 4 .fetch true true = .granted 0x80010000 addiAt.beforeStep ∧
    ∀ i, physRead addiAt.beforeStep.mem 0x80010000 4 &&& (tableRow i).2 ≠ (tableRow i).1 :=
  ⟨noPending rfl, by decide, by decide, fun i => by cases i <;> simp only [tableRow] <;> decide⟩

theorem test_witness_StepRefusesOtherWords_reserved :
    (∀ q, reservedAt.pending = some q → q.job = none) ∧ reservedAt.pc.toNat % 4 = 0 ∧
    reservedAt.beforeStep.grant none reservedAt.pc 4 .fetch true true = .granted 0x80010000 reservedAt.beforeStep ∧
    ∀ i, physRead reservedAt.beforeStep.mem 0x80010000 4 &&& (tableRow i).2 ≠ (tableRow i).1 :=
  ⟨noPending rfl, by decide, by decide, fun i => by cases i <;> simp only [tableRow] <;> decide⟩

theorem test_witness_SpeculationSetsOnlyAccessedBits : data.mem.wf = true ∧ reserving.mem.wf = true := by decide

theorem test_witness_NoSpeculativeUpdateUnlessConfigured :
    (start.withScheme .update).cfg.aSpeculative = false ∧
    { start with cfg := { Config.standard with aSpeculative := true } }.cfg.adScheme = .fault ∧
    State.reset.satp.mode = .bare := by decide

theorem test_witness_BareTranslatesNothing : State.reset.satp.mode = .bare := rfl

/-- V5: an invalid PTE at level 1, and one at level 0 (all zero). -/
def invalidTop : State := vec [(0x80000120, 0xFFFFFFFE#32)]

theorem test_witness_InvalidPteRaises :
    (invalidTop.satp.mode = .sv32 ∧ invalidTop.WalkReads 0x12345678#32 1 0x080000120#34 ∧
      pteV (invalidTop.pteAt 0x080000120#34) = false) ∧
    ((leafVec 0#32).WalkReads 0x12345678#32 0 0x080001D14#34 ∧ pteV ((leafVec 0#32).pteAt 0x080001D14#34) = false) :=
  ⟨⟨rfl, .root (by decide), by decide⟩, .next (by decide) (by decide) (by decide), by decide⟩

/-- V6, and the reserved permissions at level 1. -/
def reservedTop : State := vec [(0x80000120, 0xEAF378CD#32)]

theorem test_witness_ReservedPermissionsRaise :
    (reservedTop.satp.mode = .sv32 ∧ reservedTop.WalkReads 0x12345678#32 1 0x080000120#34 ∧
      pteV (reservedTop.pteAt 0x080000120#34) = true ∧ pteW (reservedTop.pteAt 0x080000120#34) = true ∧
      pteR (reservedTop.pteAt 0x080000120#34) = false) ∧
    ((leafVec 0xEAF378C5#32).WalkReads 0x12345678#32 0 0x080001D14#34 ∧
      pteV ((leafVec 0xEAF378C5#32).pteAt 0x080001D14#34) = true ∧
      pteW ((leafVec 0xEAF378C5#32).pteAt 0x080001D14#34) = true ∧
      pteR ((leafVec 0xEAF378C5#32).pteAt 0x080001D14#34) = false) :=
  ⟨⟨rfl, .root (by decide), by decide, by decide, by decide⟩, .next (by decide) (by decide) (by decide), by decide,
    by decide, by decide⟩

/-- V7. -/
theorem test_witness_LastLevelPointerRaises :
    (leafVec 0x20000C01#32).satp.mode = .sv32 ∧ (leafVec 0x20000C01#32).WalkReads 0x12345678#32 0 0x080001D14#34 ∧
    isPointer ((leafVec 0x20000C01#32).pteAt 0x080001D14#34) = true :=
  ⟨rfl, .next (by decide) (by decide) (by decide), by decide⟩

/-- V10 under `NONLEAF_DAU = Fault`. -/
def strictPointer (pte : Word) : State :=
  { vec [(0x80000120, pte)] with cfg := { Config.standard with nonleafDau := .fault } }

theorem test_witness_PointerReservedBitsFollowParameter :
    (Config.standard.nonleafDau = .ignore ∧ isPointer 0x200004D1#32 = true) ∧
    ∀ pte ∈ [0x20000411#32, 0x20000441#32, 0x20000481#32],
      (strictPointer pte).satp.mode = .sv32 ∧ (strictPointer pte).cfg.nonleafDau = .fault ∧
      (strictPointer pte).WalkReads 0x12345678#32 1 0x080000120#34 ∧
      isPointer ((strictPointer pte).pteAt 0x080000120#34) = true ∧
      (pteD ((strictPointer pte).pteAt 0x080000120#34) = true ∨ pteA ((strictPointer pte).pteAt 0x080000120#34) = true ∨
        pteU ((strictPointer pte).pteAt 0x080000120#34) = true) := by
  refine ⟨by decide, fun pte h => ?_⟩
  simp only [List.mem_cons, List.not_mem_nil, or_false] at h
  rcases h with rfl | rfl | rfl <;> exact ⟨rfl, rfl, .root (by decide), by decide, by decide⟩

theorem test_witness_LeafPermissionTable :
    (start.satp.mode = .sv32 ∧ start.mxr = false ∧ start.WalkReads 0x10000000#32 0 0x080002000#34 ∧
      isLeaf (start.pteAt 0x080002000#34) = true ∧ pteA (start.pteAt 0x080002000#34) = true ∧
      pteD (start.pteAt 0x080002000#34) = true ∧
      userGrants .S (pteU (start.pteAt 0x080002000#34)) .store start.sum = true) ∧
    (start.WalkReads 0x40012348#32 1 0x080000400#34 ∧ isLeaf (start.pteAt 0x080000400#34) = true ∧
      pteA (start.pteAt 0x080000400#34) = true ∧ ppn0 (ptePpn (start.pteAt 0x080000400#34)) = 0#10 ∧
      userGrants .U (pteU (start.pteAt 0x080000400#34)) .fetch start.sum = true) :=
  ⟨⟨rfl, rfl, .next (by decide) (by decide) (by decide), by decide⟩, .root (by decide), by decide⟩

theorem test_witness_UserBitTable :
    start.satp.mode = .sv32 ∧ start.mxr = false ∧ start.WalkReads 0x40012348#32 1 0x080000400#34 ∧
    isLeaf (start.pteAt 0x080000400#34) = true ∧ pteA (start.pteAt 0x080000400#34) = true ∧
    pteD (start.pteAt 0x080000400#34) = true ∧ ppn0 (ptePpn (start.pteAt 0x080000400#34)) = 0#10 ∧
    xwrGrants (pteX (start.pteAt 0x080000400#34)) (pteW (start.pteAt 0x080000400#34)) (pteR (start.pteAt 0x080000400#34))
      .load = true :=
  ⟨rfl, rfl, .root (by decide), by decide⟩

/-- V3. -/
def misalignedTop : State := vec [(0x80000120, 0x3AB004DF#32)]

theorem test_witness_MisalignedMegapageRaises :
    misalignedTop.satp.mode = .sv32 ∧ misalignedTop.WalkReads 0x12345678#32 1 0x080000120#34 ∧
    isLeaf (misalignedTop.pteAt 0x080000120#34) = true ∧ ppn0 (ptePpn (misalignedTop.pteAt 0x080000120#34)) ≠ 0#10 :=
  ⟨rfl, .root (by decide), by decide⟩

theorem test_witness_PhysicalAddressOfLeaf :
    (start.satp.mode = .sv32 ∧ start.WalkReads 0x10000004#32 0 0x080002000#34 ∧
      isLeaf (start.pteAt 0x080002000#34) = true ∧
      start.translateByWalk 0x10000004#32 .store .S true = .done 0x080020004#34) ∧
    (start.WalkReads 0x40012348#32 1 0x080000400#34 ∧ isLeaf (start.pteAt 0x080000400#34) = true ∧
      start.translateByWalk 0x40012348#32 .load .U true = .done 0x080412348#34) :=
  ⟨⟨rfl, .next (by decide) (by decide) (by decide), by decide⟩, .root (by decide), by decide⟩

/-- Program P2 at its last fetch. -/
def atDataPage : State := { start with pc := 0x00401000#32 }

theorem test_witness_UnexecutablePageRaisesFetchFault :
    atDataPage.beforeStep.Walks ∧ atDataPage.beforeStep.Attempts atDataPage.pc 4 .S ∧
    atDataPage.beforeStep.WalkReads atDataPage.pc 0 0x080001004#34 ∧
    isLeaf (atDataPage.beforeStep.pteAt 0x080001004#34) = true ∧
    pteX (atDataPage.beforeStep.pteAt 0x080001004#34) = false :=
  ⟨⟨by decide, by decide⟩, ⟨by decide, by decide, by decide, by decide⟩, .next (by decide) (by decide) (by decide), by decide⟩

/-- `x10` at the execute-only page, and at the read-only one. -/
def atExecuteOnly : State := data.writeReg 10 0x10003000#32
def atReadOnly : State := data.writeReg 10 0x10001000#32

theorem test_witness_UnreadablePageRaisesLoadFault :
    atExecuteOnly.accessOf (.lrW 6 10 false false) = some ⟨0x10003000#32, 4, .load, true, true⟩ ∧
    Instr.wellFormed atExecuteOnly.cfg (.lrW 6 10 false false) = true ∧ atExecuteOnly.Walks ∧ atExecuteOnly.mxr = false ∧
    atExecuteOnly.Attempts 0x10003000#32 4 .S ∧ atExecuteOnly.WalkReads 0x10003000#32 0 0x08000200C#34 ∧
    isLeaf (atExecuteOnly.pteAt 0x08000200C#34) = true ∧ pteR (atExecuteOnly.pteAt 0x08000200C#34) = false :=
  ⟨by decide, by decide, ⟨rfl, rfl⟩, rfl, ⟨by decide, by decide, rfl, rfl⟩, .next (by decide) (by decide) (by decide),
    by decide⟩

theorem test_witness_UnwritablePageRaisesStoreFault :
    (atReadOnly.accessOf (.scW 7 5 10 false false) =
        some ⟨0x10001000#32, 4, .store, false || Config.failedScDirty atReadOnly.free, false⟩ ∧
      Instr.wellFormed atReadOnly.cfg (.scW 7 5 10 false false) = true ∧ atReadOnly.Walks ∧
      atReadOnly.Attempts 0x10001000#32 4 .S ∧ atReadOnly.WalkReads 0x10001000#32 0 0x080002004#34 ∧
      isLeaf (atReadOnly.pteAt 0x080002004#34) = true ∧ pteW (atReadOnly.pteAt 0x080002004#34) = false) ∧
    (atExecuteOnly.accessOf (.amoaddW 7 5 10 false false) = some ⟨0x10003000#32, 4, .store, true, true⟩ ∧
      atExecuteOnly.grantOf (.amoaddW 7 5 10 false false) ⟨0x10003000#32, 4, .store, true, true⟩
        = .trap .storePageFault atExecuteOnly) :=
  ⟨⟨rfl, by decide, ⟨rfl, rfl⟩, ⟨by decide, by decide, rfl, rfl⟩, .next (by decide) (by decide) (by decide), by decide⟩,
    by decide, by decide⟩

/-- U-mode, the start state's megapage. -/
def user : State := { start with mode := .user, pc := 0x40000000#32 }

theorem test_witness_UserAccessNeedsUserPage :
    user.mode = .user ∧ user.satp.mode = .sv32 ∧ user.pending = none ∧
    user.grant none 0x40000000#32 4 .fetch true true = .granted 0x80400000 user := by decide

/-- The leaf at VA `0x10002000`, whose A and D are clear, and what it becomes. -/
def cleanLeaf : Leaf := ⟨0, 0x080002008#34, 0x20008407#32, false⟩

/-- `lw` and `sw` at that leaf, and a code page with A clear. -/
def atClean : State := (start.writeReg 12 0x10002000#32).writeReg 5 1#32
def cleanCode : State := withWords [(0x80001000, 0x2000400B#32)]

theorem test_witness_ClearBitsRaiseUnderSchemeFault :
    (atClean.accessOf (.lw 6 12 0) = some ⟨0x10002000#32, 4, .load, true, true⟩ ∧
      atClean.accessOf (.sw 5 12 0) = some ⟨0x10002000#32, 4, .store, true, true⟩ ∧
      Instr.wellFormed atClean.cfg (.lw 6 12 0) = true ∧ atClean.cfg.adScheme = .fault ∧ atClean.Walks ∧
      atClean.Attempts 0x10002000#32 4 .S ∧ atClean.walk 0x10002000#32 = .leaf cleanLeaf ∧
      pteA cleanLeaf.pte = false ∧ pteD cleanLeaf.pte = false) ∧
    cleanCode.cfg.adScheme = .fault ∧ cleanCode.beforeStep.Walks ∧ cleanCode.beforeStep.Attempts cleanCode.pc 4 .S ∧
    cleanCode.beforeStep.walk cleanCode.pc = .leaf ⟨0, 0x080001000#34, 0x2000400B#32, false⟩ ∧
    pteA 0x2000400B#32 = false :=
  ⟨⟨by decide, by decide, by decide, rfl, ⟨rfl, rfl⟩, ⟨by decide, by decide, rfl, rfl⟩, by decide⟩, rfl,
    ⟨by decide, by decide⟩, ⟨by decide, by decide, by decide, by decide⟩, by decide⟩

/-- The start state under scheme `Update`. -/
def updating : State := start.withScheme .update

theorem test_witness_ClearBitsAreSetUnderSchemeUpdate :
    updating.cfg.adScheme = .update ∧ updating.Walks ∧ updating.Attempts 0x10002FFC#32 4 .S ∧
    updating.walk 0x10002FFC#32 = .leaf cleanLeaf ∧ updating.leafPermits .store .S cleanLeaf = true ∧
    pmpCheck updating.cfg cleanLeaf.addr 4 .store .S = true ∧ pteA cleanLeaf.pte = false ∧
    pteD cleanLeaf.pte = false :=
  ⟨rfl, ⟨rfl, rfl⟩, ⟨by decide, by decide, rfl, rfl⟩, by decide⟩

/-- The access of `lw x6, 0(x12)` at `0x10002000` (program P3). -/
def p3 : State := updating.writeReg 12 0x10002000#32
def p3Access : Access := ⟨0x10002000#32, 4, .load, true, true⟩

/-- `p3` after the PTE update. -/
def p3Updated : State :=
  { p3 with mem := physWrite p3.mem 0x80002008 4 0x20008447#32,
            pending := some ⟨some (.lw 6 12 0), 0x10002000#32, 0x080021000#34⟩ }

theorem test_witness_PteUpdateOnlySetsAccessedAndDirty :
    p3.mem.wf = true ∧ p3.grant (some (.lw 6 12 0)) 0x10002000#32 4 .load true true = .updated p3Updated := by decide

theorem test_witness_UpdateStepThenAccessStep :
    p3.accessOf (.lw 6 12 0) = some p3Access ∧ Instr.wellFormed p3.cfg (.lw 6 12 0) = true ∧
    p3.grantOf (.lw 6 12 0) p3Access = .updated p3Updated ∧ pmpCheck p3.cfg 0x080021000#34 4 .load .S = true := by decide

/-- `p3` with the data page denied to supervisor loads. -/
def p3Denied : State := { p3 with cfg := { p3.cfg with pmpDenied := [⟨0x80021000, 0x80021FFF, 4, .load, .S⟩] } }

theorem test_witness_UpdateStepThenAccessStep_denied :
    p3Denied.grantOf (.lw 6 12 0) p3Access = .updated { p3Updated with cfg := p3Denied.cfg } ∧
    pmpCheck p3Denied.cfg 0x080021000#34 4 .load .S = false := by decide

/-- Words that agree once G and RSW are set in both agree outside those bits. -/
theorem agrees_outside_grsw {x y : Word} (h : x ||| 0x320#32 = y ||| 0x320#32) :
    ∀ b, b ≠ 5 → b ≠ 8 → b ≠ 9 → x.getLsbD b = y.getLsbD b := by
  intro b h5 h8 h9
  by_cases hb : b < 32
  · have := congrArg (fun w => w.getLsbD b) h
    simp only [BitVec.getLsbD_or] at this
    interval_cases b <;> simp_all
  · rw [BitVec.getLsbD_of_ge _ _ (by omega), BitVec.getLsbD_of_ge _ _ (by omega)]

/-- The memory of V1 with G and RSW set in the pointer and in the leaf. -/
def grswMemory : Memory := place [] [(0x80000120, 0x20000721#32), (0x80001D14, 0xEAF37BE7#32)]

/-- V9: the leaf with RSW = 3 and G = 1 agrees with that of V1 outside those bits. -/
theorem test_witness_GlobalRswAsidDoNotMatter :
    (∀ b, b ≠ 5 → b ≠ 8 → b ≠ 9 → (0xEAF37BE7#32).getLsbD b = (0xEAF378C7#32).getLsbD b) ∧
    (leafVec 0xEAF378C7#32).useLeaf 0x12345678#32 .load .S true ⟨0, 0x080001D14#34, 0xEAF378C7#32, false⟩
      = .done 0x3ABCDE678#34 ∧
    (leafVec 0xEAF378C7#32).useLeaf 0x12345678#32 .fetch .S true ⟨0, 0x080001D14#34, 0xEAF378C7#32, false⟩
      = .pageFault ∧
    p3.useLeaf 0x10002000#32 .load .S true cleanLeaf = .update 0x080021000#34 0x080002008#34 0x20008447#32 :=
  ⟨agrees_outside_grsw (by decide), by decide⟩

theorem test_witness_GlobalRswAsidDoNotMatter_pointer :
    (∀ b, b ≠ 5 → b ≠ 8 → b ≠ 9 →
      ({ leafVec 0xEAF378C7#32 with mem := grswMemory }.pteAt ((leafVec 0xEAF378C7#32).rootAddr 0x12345678#32)).getLsbD b =
        ((leafVec 0xEAF378C7#32).pteAt ((leafVec 0xEAF378C7#32).rootAddr 0x12345678#32)).getLsbD b) ∧
    (∀ b, b ≠ 5 → b ≠ 8 → b ≠ 9 →
      ({ leafVec 0xEAF378C7#32 with mem := grswMemory }.pteAt ((leafVec 0xEAF378C7#32).nextAddr 0x12345678#32)).getLsbD b =
        ((leafVec 0xEAF378C7#32).pteAt ((leafVec 0xEAF378C7#32).nextAddr 0x12345678#32)).getLsbD b) ∧
    pteKind Config.standard 1 ((leafVec 0xEAF378C7#32).pteAt ((leafVec 0xEAF378C7#32).rootAddr 0x12345678#32)) = .pointer ∧
    (leafVec 0xEAF378C7#32).translateByWalk 0x12345678#32 .load .S true = .done 0x3ABCDE678#34 :=
  ⟨agrees_outside_grsw (by decide), agrees_outside_grsw (by decide), by decide⟩

/-- The megapage of the start state, alone in memory. -/
def megapage : State := vec [(0x80000400, 0x201000DF#32)]

theorem megapage_root : ∀ i : TableIndex, megapage.pteAt (pteAddr megapage.satp.ppn i) =
    if i = 0x100#10 then 0x201000DF#32 else 0#32 := by decide +kernel

/-- The only PTE of `megapage` that the walk can reach and that is not zero is its leaf. -/
theorem megapage_reaches {s : State}
    (hr : ∀ i : TableIndex, s.pteAt (pteAddr s.satp.ppn i) = if i = 0x100#10 then 0x201000DF#32 else 0#32)
    {level : Nat} {addr : PhysAddr} (h : s.Reaches level addr) :
    ∃ i, level = 1 ∧ addr = pteAddr s.satp.ppn i ∧ (s.pteAt addr = 0x201000DF#32 ∨ s.pteAt addr = 0#32) := by
  cases h with
  | root i => exact ⟨i, rfl, rfl, by rw [hr]; split <;> simp⟩
  | next i j hp =>
    rw [hr] at hp
    exfalso
    split at hp
    · exact kind_leaf_ne_pointer (c := s.cfg) (level := 1) (by rw [kind_leaf_iff]; decide) hp
    · simp [pteKind, pteV] at hp

theorem test_witness_SchemesAgreeWhenBitsPreset :
    megapage.AdPreset ∧ megapage.Reaches 1 0x080000400#34 ∧ isLeaf (megapage.pteAt 0x080000400#34) = true ∧
    megapage.cfg.translationCache = false := by
  refine ⟨fun level addr h hl => ?_, .root 0x100#10, by decide⟩
  obtain ⟨i, -, -, hp | hp⟩ := megapage_reaches megapage_root h <;> rw [hp] at hl ⊢
  · decide
  · exact absurd hl (by decide)

/-- Its leaf, as a cache that read it holds it. -/
def megaEntry : TlbEntry := ⟨0, 0x40000#20, 1, 0x80000#22, 0x201000DF#32, false⟩

/-- The same with that leaf cached. -/
def cached : State :=
  { megapage with cfg := { Config.standard with translationCache := true }, tlb := [megaEntry] }

theorem test_witness_AgreeingCacheIsInvisible :
    cached.CacheAgrees ∧ ∃ e ∈ cached.tlb, e.hits cached.asid 0x40012348#32 = true := by
  refine ⟨fun e he va h => ?_, megaEntry, by decide⟩
  obtain rfl : e = megaEntry := List.mem_singleton.1 he
  have hv : va.extractLsb' 22 10 = 0x100#10 := by
    simp only [TlbEntry.hits, Bool.and_eq_true] at h
    exact (beq_iff_eq.1 h.2).symm
  have ha : (megaEntry.leaf va).addr = 0x080000400#34 := by
    show pteAddr 0x80000#22 (va.extractLsb' 22 10) = _
    rw [hv]
    decide
  have hr : cached.rootAddr va = 0x080000400#34 := by
    show pteAddr 0x80000#22 (va.extractLsb' 22 10) = _
    rw [hv]
    decide
  rw [ha]
  exact ⟨hr ▸ .root (by rw [hr]; decide), .inl (by decide)⟩

/-- What a cached PTE answers whatever memory holds now (H7): here the root PTE in memory is zero, the cached leaf has
its D bit clear, and a store raises its page fault under scheme `Fault`; a load goes on. -/
theorem test_stale_entry :
    (vec []).useWalk 0x40012348#32 .load .U true
      ((vec []).walkCached 0x40012348#32 .load .U true { megaEntry with pte := 0x2010005F#32 }) = .done 0x080412348#34 ∧
    (vec []).useWalk 0x40012348#32 .store .U true
      ((vec []).walkCached 0x40012348#32 .store .U true { megaEntry with pte := 0x2010005F#32 }) = .pageFault ∧
    (vec []).translateByWalk 0x40012348#32 .load .U true = .pageFault := by decide

/-- `megapage` before anything runs, on a hart with a cache. Its memory holds no instruction. -/
def quiet : State := { cached with tlb := [] }

theorem quiet_decodes_nothing {a : Nat} (ha : a % 4 = 0) (i : Instr) : decodeWord (physRead quiet.mem a 4) ≠ .ok i := by
  have hm : quiet.mem = physWrite [] 0x80000400 4 0x201000DF#32 := by decide
  rw [hm]
  by_cases h : a = 0x80000400
  · subst h
    rw [physRead_physWrite_word rfl]
    exact fun h => by cases h
  · rw [physRead_congr (m := []) fun k hk => read_physWrite_outside rfl _ (by omega)]
    rw [show physRead [] a 4 = 0#32 by simp [physRead, physReadNat, Memory.read, unlistedByte]]
    exact fun h => by cases h

/-- Nothing that `quiet` comes to runs an instruction, so nothing is stored. -/
theorem quiet_run {u : State} (h : Runs quiet u) :
    u.cfg = quiet.cfg ∧ u.mem = quiet.mem ∧ u.pending = none ∧ ∀ i b, ¬u.Executes i b := by
  have mem : ∀ s : State, s.cfg = quiet.cfg → s.beforeStep.mem = s.mem := fun s hc =>
    (speculate_induction (P := fun x => x.cfg = s.cfg ∧ x.mem = s.mem) ⟨rfl, rfl⟩ fun x a hx => by
      rcases speculateOne_cases x a with ⟨l, he⟩ | ⟨lf, l, ha, -⟩
      · rw [he]; exact hx
      · rw [hx.1, hc] at ha; cases ha).2
  have exe : ∀ s : State, s.cfg = quiet.cfg → s.mem = quiet.mem → s.pending = none → s.pc.toNat % 4 = 0 →
      ∀ a b, s.beforeStep.grant none s.pc 4 .fetch true true = .granted a b → ∀ i,
        decodeWord (physRead b.mem a 4) ≠ .ok i := by
    intro s hc hm hp hpc a b hg i
    obtain ⟨p, pa, l, -, rfl, rfl, -, ht, -⟩ := grant_granted hg
    rw [show (s.beforeStep.settled l).mem = quiet.mem from (mem s hc).trans hm]
    refine quiet_decodes_nothing ?_ i
    rcases ht with ht | ht
    · have ho := congrArg BitVec.toNat (translate_done_offset ht)
      simp only [pageOffset, BitVec.extractLsb'_toNat, Nat.shiftRight_zero] at ho
      rw [machineAddr_eq]
      omega
    · rw [(beforeStep_fields s).2.2.2.2.2, hp] at ht
      cases ht
  have non : ∀ s : State, s.cfg = quiet.cfg → s.mem = quiet.mem → s.pending = none → ∀ i b, ¬s.Executes i b := by
    intro s hc hm hp i b he
    cases he with
    | resumed va pa _ hq _ => rw [hp] at hq; cases hq
    | fetched a _ hq hpc hg hd => exact exe s hc hm hp hpc a b hg i hd
  have inv : ∀ s, Runs s u → s.cfg = quiet.cfg → s.mem = quiet.mem → s.pending = none →
      u.cfg = quiet.cfg ∧ u.mem = quiet.mem ∧ u.pending = none := by
    intro s hr
    clear h
    induction hr with
    | refl s => exact fun a b c => ⟨a, b, c⟩
    | @next s t u hst _ ih =>
      intro hc hm hp
      obtain ⟨b1, -, b3, -, -, b6⟩ := beforeStep_fields s
      rcases step_next hst with ⟨-, rfl⟩ | ⟨-, hst⟩
      · exact ih (b1.trans hc) ((mem s hc).trans hm) (b6.trans hp)
      rcases hst with ⟨k, l, -, rfl⟩ | ⟨p, pa, addr, pte, l, -, -, ht, -⟩ | ⟨i, a, l, -, hpc, -, hg, hd, -⟩ |
        ⟨i, va, pa, hq, -⟩
      · exact ih ((takeTrap_cfg ..).trans (b1.trans hc)) ((takeTrap_mem ..).trans ((mem s hc).trans hm))
          (takeTrap_pending ..)
      · obtain ⟨-, lf, -, -, -, -, -, -, hu, -⟩ := translate_update ht
        rw [show ({ s.beforeStep with pending := none } : State).cfg = quiet.cfg from b1.trans hc] at hu
        cases hu
      · rw [b3] at hpc hg
        have := exe s hc hm hp hpc a _ hg i
        rw [show (s.beforeStep.settled l).mem = s.beforeStep.mem from rfl] at this
        exact absurd hd this
      · rw [b6, hp] at hq
        cases hq
  obtain ⟨h1, h2, h3⟩ := inv quiet h rfl rfl rfl
  exact ⟨h1, h2, h3, non u h1 h2 h3⟩

theorem quiet_root : ∀ i : TableIndex, quiet.pteAt (pteAddr quiet.satp.ppn i) =
    if i = 0x100#10 then 0x201000DF#32 else 0#32 := megapage_root

theorem test_witness_AgreeingCacheIsInvisible_run :
    quiet.mem.wf = true ∧ quiet.LaunchPremises [0x80000#22] ∧ quiet.satp.mode = .sv32 ∧
    quiet.cfg.translationCache = true ∧ Runs quiet quiet := by
  refine ⟨by decide, ⟨⟨by decide, rfl, rfl, rfl, rfl⟩, fun _ => by decide, fun _ r hr level addr h => ?_,
    fun _ r hr r' hr' va lf hw _ => ⟨lf, ?_, rfl, rfl⟩, fun _ u x h hx => ?_, fun u w x h _ hx => ?_⟩, rfl, rfl, .refl _⟩
  · obtain rfl : r = 0x80000#22 := List.mem_singleton.1 hr
    obtain ⟨i, rfl, -, hp | hp⟩ := megapage_reaches (s := quiet) quiet_root h <;> unfold pteObeys <;>
      rw [show (quiet.withRoot 0x80000#22).pteAt addr = quiet.pteAt addr from rfl, hp] <;> decide
  · obtain rfl := List.mem_singleton.1 hr
    obtain rfl := List.mem_singleton.1 hr'
    exact hw
  · obtain ⟨i, b, -, -, -, he, -⟩ := hx
    exact absurd he ((quiet_run h).2.2.2 i b)
  · obtain ⟨i, b, -, -, -, he, -⟩ := hx
    exact absurd he ((quiet_run h).2.2.2 i b)

/-- U-mode code in the megapage, alone in memory with its PTE: `sw x5, 4(x10)`, with `x10` in the same megapage. -/
def megaCode : State :=
  (({ vec [(0x80000400, 0x201000DF#32), (0x80400000, 0x00552223#32)] with mode := .user, pc := 0x40000000#32 }).writeReg 10
    0x40012344#32).writeReg 5 0x11223344#32

theorem megaCode_root : ∀ i : TableIndex, megaCode.pteAt (pteAddr megaCode.satp.ppn i) =
    if i = 0x100#10 then 0x201000DF#32 else 0#32 := by decide +kernel

theorem test_witness_FillFlushAndStepKeepAgreement :
    cached.CacheAgrees ∧ megaCode.mem.wf = true ∧ megaCode.CacheAgrees ∧
    (∀ x, megaCode.Stores x → megaCode.AvoidsTables x 1) ∧ (∃ t, step megaCode = .next t) ∧ megaCode.Stores 0x80412348 := by
  have hg : megaCode.beforeStep.grant none megaCode.pc 4 .fetch true true = .granted 0x80400000 megaCode.beforeStep := by
    decide
  have hd : decodeWord (physRead megaCode.beforeStep.mem 0x80400000 4) = .ok (.sw 5 10 4) := by decide
  have ha : megaCode.beforeStep.accessOf (.sw 5 10 4) = some ⟨0x40012348#32, 4, .store, true, true⟩ := by decide
  have hs : megaCode.beforeStep.grantOf (.sw 5 10 4) ⟨0x40012348#32, 4, .store, true, true⟩ =
      .granted 0x80412348 megaCode.beforeStep := by decide
  refine ⟨test_witness_AgreeingCacheIsInvisible.1, by decide, fun e he => (List.not_mem_nil he).elim, ?_, nextIs_next (by decide),
    .sw 5 10 4, _, _, _, _, .fetched _ rfl (noPending rfl) (by decide) hg hd, by decide, ha, rfl, rfl, hs, by decide, by decide⟩
  rintro x ⟨i, b, acc, a, s1, he, -, hacc, -, -, hgr, hx, -⟩ level addr hr
  cases he with
  | resumed va pa _ hq _ => exact nomatch (show (none : Option Pending) = some _ from hq)
  | fetched a' _ _ _ hg' hd' =>
    rw [hg] at hg'
    cases hg'
    rw [hd] at hd'
    cases hd'
    rw [ha] at hacc
    cases hacc
    rw [hs] at hgr
    cases hgr
    obtain ⟨j, -, rfl, -⟩ := megapage_reaches megaCode_root hr
    have := j.isLt
    right
    rw [machineAddr_eq, pteAddr_toNat]
    rw [show megaCode.satp.ppn.toNat = 0x80000 by decide]
    omega

/-- The start state with one access denied. -/
def denying (d : PmpDenial) : State := { updating with cfg := { updating.cfg with pmpDenied := [d] } }

theorem test_witness_PmpDenialRaisesAccessFault :
    (∀ d, (denying d).Walks ∧ (denying d).Attempts 0x10002000#32 4 .S) ∧
    pmpCheck (denying ⟨0x80000100, 0x80000100, 4, .load, .S⟩).cfg 0x080000100#34 4 .load .S = false ∧
    (pmpCheck (denying ⟨0x80002000, 0x80002FFF, 4, .load, .S⟩).cfg 0x080000100#34 4 .load .S = true ∧
      (denying ⟨0x80002000, 0x80002FFF, 4, .load, .S⟩).rootAddr 0x10002000#32 = 0x080000100#34 ∧
      pteKind Config.standard 1 ((denying ⟨0x80002000, 0x80002FFF, 4, .load, .S⟩).pteAt 0x080000100#34) = .pointer ∧
      (denying ⟨0x80002000, 0x80002FFF, 4, .load, .S⟩).nextAddr 0x10002000#32 = 0x080002008#34 ∧
      pmpCheck (denying ⟨0x80002000, 0x80002FFF, 4, .load, .S⟩).cfg 0x080002008#34 4 .load .S = false) ∧
    ((denying ⟨0x80002008, 0x80002008, 4, .store, .S⟩).walk 0x10002000#32 = .leaf cleanLeaf ∧
      (denying ⟨0x80002008, 0x80002008, 4, .store, .S⟩).leafPermits .load .S cleanLeaf = true ∧
      pteA cleanLeaf.pte = false ∧
      pmpCheck (denying ⟨0x80002008, 0x80002008, 4, .store, .S⟩).cfg cleanLeaf.addr 4 .store .S = false) ∧
    ((denying ⟨0x80020000, 0x80020000, 4, .store, .S⟩).translateByWalk 0x10000000#32 .store .S true
        = .done 0x080020000#34 ∧
      pmpCheck (denying ⟨0x80020000, 0x80020000, 4, .store, .S⟩).cfg 0x080020000#34 4 .store .S = false) ∧
    start.cfg.pmpDenied = [] ∧
    start.grant none 0x00401000#32 4 .fetch true true = .trap .fetchPageFault start :=
  ⟨fun _ => ⟨⟨rfl, rfl⟩, by decide, by decide, rfl, rfl⟩, by decide⟩

/-- The same denial under Bare, on a hart with a cache that holds the leaf, and for a pending access. -/
def denied : Config := { cached.cfg with pmpDenied := [⟨0x80412348, 0x80412348, 4, .load, .U⟩] }
def deniedBare : State := { start with cfg := denied, mode := .user, satp := ⟨.bare, 0, 0⟩ }
def deniedCached : State := { cached with cfg := denied, mode := .user }
def deniedPending : State :=
  { deniedCached with pending := some ⟨some (.lw 6 12 0), 0x40012348#32, 0x080412348#34⟩ }

theorem test_witness_PmpDenialRaisesAccessFault_bare :
    deniedBare.satp.mode = .bare ∧ deniedBare.Attempts 0x80412348#32 4 .U ∧
    pmpCheck deniedBare.cfg (bareAddr 0x80412348#32) 4 .load .U = false :=
  ⟨rfl, ⟨by decide, by decide, rfl, rfl⟩, by decide⟩

/-- Whether the hart uses the cached leaf or walks, it comes to the same address here. -/
theorem test_witness_PmpDenialRaisesAccessFault_cached :
    deniedCached.Attempts 0x40012348#32 4 .U ∧
    deniedCached.translate 0x40012348#32 .load .U true = .done 0x080412348#34 ∧
    pmpCheck deniedCached.cfg 0x080412348#34 4 .load .U = false := by
  refine ⟨⟨by decide, by decide, rfl, rfl⟩, ?_, by decide⟩
  rw [translate_sv32 rfl]
  rcases lookup_cases deniedCached 0x40012348#32 .load .U true with h | ⟨-, e, he, -, h⟩
  · rw [h]
    decide
  · obtain rfl : e = megaEntry := List.mem_singleton.1 he
    rw [h]
    decide

theorem test_witness_PmpDenialRaisesAccessFault_pending :
    { deniedPending with pending := none }.Attempts 0x40012348#32 4 .U ∧
    deniedPending.pending = some ⟨some (.lw 6 12 0), 0x40012348#32, 0x080412348#34⟩ ∧
    pmpCheck deniedPending.cfg 0x080412348#34 4 .load .U = false :=
  ⟨⟨by decide, by decide, rfl, rfl⟩, rfl, by decide⟩

theorem test_witness_GlobalRswAsidDoNotMatter_denied :
    (denying ⟨0x80002008, 0x80002008, 4, .store, .S⟩).useLeaf 0x10002000#32 .load .S true cleanLeaf = .accessFault := by
  decide

theorem test_witness_AccessDecidesTheOutcome :
    Instr.wellFormed p3.cfg (.lw 6 12 0) = true ∧ p3.accessOf (.lw 6 12 0) = some p3Access ∧
    p3.grantOf (.lw 6 12 0) p3Access = .updated p3Updated ∧
    (p3.withScheme .fault).grantOf (.lw 6 12 0) p3Access = .trap .loadPageFault (p3.withScheme .fault) ∧
    p3.accessOf (.lw 6 12 1) = some { p3Access with ea := 0x10002001#32 } ∧
    p3.grantOf (.lw 6 12 1) { p3Access with ea := 0x10002001#32 } = .refused .misalignedAccess := by decide

theorem test_witness_AccessDecidesTheOutcome_faults :
    start.Walks ∧ start.Attempts 0x00401000#32 4 .S ∧
    start.translate 0x00401000#32 .fetch .S true = .pageFault ∧
    start.translateByWalk 0x00401000#32 .fetch .S true = .pageFault ∧
    (denying ⟨0x80000004, 0x80000004, 4, .load, .S⟩).translate 0x00401000#32 .fetch .S true = .accessFault ∧
    (denying ⟨0x80000004, 0x80000004, 4, .load, .S⟩).Attempts 0x00401000#32 4 .S :=
  ⟨⟨rfl, rfl⟩, ⟨by decide, by decide, rfl, rfl⟩, by decide, by decide, by decide, ⟨by decide, by decide, rfl, rfl⟩⟩

theorem test_witness_FetchFaultTakesItsTrap :
    (∀ q, atDataPage.pending = some q → q.job = none) ∧ atDataPage.pc.toNat % 4 = 0 ∧
    atDataPage.beforeStep.grant none atDataPage.pc 4 .fetch true true = .trap .fetchPageFault atDataPage.beforeStep :=
  ⟨noPending rfl, by decide, by decide⟩

theorem test_witness_TrapEntry :
    (start.mode ≠ .machine ∧ start.medeleg.getLsbD (TrapKind.code .storePageFault) = true) ∧
    start.medeleg.getLsbD (TrapKind.code .storeAccessFault) = false ∧ { start with mode := .machine }.mode = .machine := by
  decide

theorem test_witness_TrapReturnRestores :
    start.delegates .storePageFault = true ∧ { start with mode := .user }.delegates .fetchPageFault = true := by decide

theorem test_witness_CauseCodes : TrapKind.code (pageFaultOf .store) = TrapKind.code .storePageFault := by decide

theorem test_witness_BareAccessIsGranted :
    State.reset.satp.mode = .bare ∧ State.reset.Attempts 0xFFFFFFFC#32 4 .S ∧
    pmpCheck State.reset.cfg (bareAddr 0xFFFFFFFC#32) 4 .store .S = true :=
  ⟨rfl, ⟨by decide, by decide, rfl, rfl⟩, by decide⟩

/-- The leaf at VA `0x10000000`. -/
def dataLeaf : Leaf := ⟨0, 0x080002000#34, 0x200080C7#32, false⟩

theorem test_witness_WalkedAccessIsGranted :
    start.Walks ∧ start.Attempts 0x10000FFF#32 1 .S ∧ start.walk 0x10000FFF#32 = .leaf dataLeaf ∧
    start.leafPermits .store .S dataLeaf = true ∧ pteA dataLeaf.pte = true ∧ pteD dataLeaf.pte = true ∧
    pmpCheck start.cfg (leafAddr 0 dataLeaf.pte 0x10000FFF#32) 1 .store .S = true :=
  ⟨⟨rfl, rfl⟩, ⟨by decide, by decide, rfl, rfl⟩, by decide⟩

theorem test_witness_PermittedAccessCompletes_walk :
    data.accessOf (.sw 5 10 0) = some ⟨0x10000000#32, 4, .store, true, true⟩ ∧
    Instr.wellFormed data.cfg (.sw 5 10 0) = true ∧ data.Attempts 0x10000000#32 4 .S ∧ data.Walks ∧
    data.walk 0x10000000#32 = .leaf dataLeaf ∧ data.leafPermits .store .S dataLeaf = true ∧ pteA dataLeaf.pte = true ∧
    pteD dataLeaf.pte = true ∧ pmpCheck data.cfg (leafAddr 0 dataLeaf.pte 0x10000000#32) 4 .store .S = true :=
  ⟨by decide, by decide, ⟨by decide, by decide, rfl, rfl⟩, ⟨rfl, rfl⟩, by decide⟩

theorem test_witness_PermittedAccessCompletes_bare :
    State.reset.accessOf (.scW 7 5 10 true true) = some ⟨0#32, 4, .store, false || Config.failedScDirty 0, false⟩ ∧
    Instr.wellFormed State.reset.cfg (.scW 7 5 10 true true) = true ∧ State.reset.Attempts 0#32 4 .S ∧
    State.reset.satp.mode = .bare :=
  ⟨rfl, by decide, ⟨by decide, by decide, rfl, rfl⟩, rfl⟩

theorem test_witness_LoadsDeliverTheirBytes :
    data.grant (some (.lb 6 10 3)) (data.readReg 10 + (3#12).signExtend 32) 1 .load true true = .granted 0x80020003 data ∧
    data.grant (some (.lh 6 10 2)) (data.readReg 10 + (2#12).signExtend 32) 2 .load true true = .granted 0x80020002 data ∧
    data.grant (some (.lw 0 10 0)) (data.readReg 10 + (0#12).signExtend 32) 4 .load true true = .granted 0x80020000 data ∧
    data.grant (some (.lbu 6 10 1)) (data.readReg 10 + (1#12).signExtend 32) 1 .load true true = .granted 0x80020001 data ∧
    data.grant (some (.lhu 6 10 0)) (data.readReg 10 + (0#12).signExtend 32) 2 .load true true
      = .granted 0x80020000 data := by decide

theorem test_witness_StoresWriteTheirBytes :
    data.mem.wf = true ∧
    data.grant (some (.sb 5 10 3)) (data.readReg 10 + (3#12).signExtend 32) 1 .store true true = .granted 0x80020003 data ∧
    data.grant (some (.sh 5 10 2)) (data.readReg 10 + (2#12).signExtend 32) 2 .store true true = .granted 0x80020002 data ∧
    data.grant (some (.sw 5 10 0)) (data.readReg 10 + (0#12).signExtend 32) 4 .store true true
      = .granted 0x80020000 data := by decide

theorem test_witness_LoadReservedReserves :
    data.cfg.hasA = true ∧
    data.grant (some (.lrW 6 10 true false)) (data.readReg 10) 4 .load true true = .granted 0x80020000 data ∧ data.Inv :=
  ⟨rfl, by decide, by decide, by decide, by decide, fun q h => by rw [show data.pending = none from rfl] at h; cases h⟩

theorem test_witness_StoreConditionalSucceeds :
    reserving.cfg.hasA = true ∧ reserving.mem.wf = true ∧ reserving.reserved (reserving.readReg 10) = true ∧
    reserving.grant (some (.scW 7 5 10 false true)) (reserving.readReg 10) 4 .store true true
      = .granted 0x80020000 reserving :=
  ⟨rfl, by decide, by decide, rfl⟩

theorem test_witness_StoreConditionalFails :
    data.cfg.hasA = true ∧ data.reserved (data.readReg 10) = false ∧
    data.grant (some (.scW 7 5 10 false true)) (data.readReg 10) 4 .store (Config.failedScDirty data.free) false
      = .granted 0x80020000 data :=
  ⟨rfl, by decide, rfl⟩

theorem test_witness_AmosReadModifyWrite :
    data.mem.wf = true ∧ data.cfg.hasA = true ∧
    ∀ i ∈ [Instr.amoswapW 7 5 10 false false, .amoaddW 7 5 10 false false, .amoxorW 7 5 10 false false,
        .amoandW 7 5 10 false false, .amoorW 7 5 10 false false, .amominW 7 5 10 false false,
        .amomaxW 7 5 10 false false, .amominuW 7 5 10 false false, .amomaxuW 7 5 10 false false],
      data.grant (some i) (data.readReg 10) 4 .store true true = .granted 0x80020000 data := by decide

theorem test_witness_SfenceFlushesWhatItNames : cached.mode ≠ .user ∧ { cached with mode := .machine }.mode ≠ .user := by
  decide

theorem test_witness_SfenceTrapsInUserMode : user.mode = .user := rfl

theorem test_witness_UnalignedAccessIsRefused :
    ((data.writeReg 10 0x10000FFB#32).accessOf (.lw 6 10 0) = some ⟨0x10000FFB#32, 4, .load, true, true⟩ ∧
      Instr.wellFormed data.cfg (.lw 6 10 0) = true ∧ (0x10000FFB#32).toNat % 4096 + 4 ≤ 4096 ∧
      (0x10000FFB#32).toNat % 4 ≠ 0) ∧
    ((data.writeReg 10 0x10000FFD#32).accessOf (.lw 6 10 0) = some ⟨0x10000FFD#32, 4, .load, true, true⟩ ∧
      (0x10000FFD#32).toNat % 4096 + 4 > 4096) ∧
    ((data.writeReg 10 0x10000FFF#32).accessOf (.sh 5 10 0) = some ⟨0x10000FFF#32, 2, .store, true, true⟩ ∧
      (0x10000FFF#32).toNat % 4096 + 2 > 4096) := by decide

/-- The hart in machine mode. -/
def inMachineMode : State := { data with mode := .machine }

theorem test_witness_MachineModeAccessIsRefused :
    (inMachineMode.accessOf (.sb 5 10 0x7FF) = some ⟨0x100007FF#32, 1, .store, true, true⟩ ∧
      Instr.wellFormed inMachineMode.cfg (.sb 5 10 0x7FF) = true ∧ inMachineMode.mode = .machine ∧
      (0x100007FF#32).toNat % 1 = 0) ∧
    inMachineMode.pc.toNat % 4 = 0 ∧ ∀ q, inMachineMode.pending = some q → q.job = none :=
  ⟨by decide, by decide, noPending rfl⟩

theorem test_witness_AtomicsNeedTheExtension :
    { data with cfg := noAtomics }.cfg.hasA = false ∧ Instr.isAtomic (.lrW 6 10 false false) = true := by decide

theorem test_witness_StepKeepsInvariant : codeAt.Inv ∧ ∃ t, step codeAt = .next t :=
  ⟨⟨by decide, by decide, by decide, fun q h => by rw [show codeAt.pending = none from rfl] at h; cases h⟩, nextIs_next (by decide)⟩

theorem test_witness_StepKeepsControlRegisters : ∃ t, step atDataPage = .next t := nextIs_next (by decide)

theorem test_witness_OnlyExceptionsDivertControl :
    (∃ t, step codeAt = .next t) ∧ (∃ t, step atDataPage = .next t) ∧ ∃ t, step p3Updated = .next t :=
  ⟨nextIs_next (by decide), nextIs_next (by decide), nextIs_next (by decide)⟩

/-- U-mode code in the megapage: `sw x5, 4(x10)`, with `x10` in the same megapage. -/
def userCode : State :=
  (({ withWords [(0x80400000, 0x00552223#32)] with mode := .user, pc := 0x40000000#32 }).writeReg 10
    0x40012344#32).writeReg 5 0x11223344#32

theorem test_witness_UserStepsWriteOnlyUserPages :
    userCode.mem.wf = true ∧ userCode.mode = .user ∧ userCode.Walks ∧ userCode.cfg.adScheme = .fault ∧
    userCode.pending = none ∧
    nextIs (step userCode) (fun t => t.mem.read 0x80412348 != userCode.mem.read 0x80412348) = true :=
  ⟨by decide, rfl, ⟨rfl, rfl⟩, rfl, rfl, by decide⟩

end Sys2Proof.Tests
end

section
/-! # The shape of a step
What a step can answer, said once, in the form the invariants of this file are proved by: what the hart does of its own
accord, and then a trap, an update of one leaf PTE, or an instruction run to its end. -/

namespace Sys2Proof.Machine

/-- `t` comes from `c` by the update of the leaf `lf`, which memory holds, for an access to `va` of `job` (R124, R131):
A, and D where `d`, are set in it, the cache is filled for `va`, and the access is left pending. -/
structure UpdatesLeaf (c t : State) (job : Option Instr) (va : Word) (lf : Leaf) (d : Bool) : Prop where
  place : ∃ u i, lf.addr = pteAddr u i
  kind : pteKind c.cfg lf.level lf.pte = .leaf
  inMemory : lf.pte = c.pteAt lf.addr
  scheme : c.cfg.adScheme = .update
  next : t = { c.writePte lf.addr (setNeeded d lf.pte) with
    pending := some ⟨job, va, leafAddr lf.level lf.pte va⟩
    tlb := (({ c with pending := none }.writePte lf.addr (setNeeded d lf.pte)).fillCache va).tlb }

/-- A translation that ends in an update makes it in a leaf. -/
theorem updatesLeaf_of_translate {c t : State} {job : Option Instr} {va : Word} {ty : AccessType} {p : Privilege}
    {dirty : Bool} {pa addr : PhysAddr} {pte : Word} {l : List TlbEntry}
    (ht : { c with pending := none }.translate va ty p dirty = .update pa addr pte)
    (hl : l = (({ c with pending := none }.writePte addr pte).fillCache va).tlb)
    (h : t = { c.writePte addr pte with pending := some ⟨job, va, pa⟩, tlb := l }) :
    ∃ lf d, UpdatesLeaf c t job va lf d := by
  obtain ⟨-, lf, -, place, kind, inMemory, -, -, scheme, -, rfl, rfl, rfl⟩ := translate_update ht
  exact ⟨lf, _, place, kind, inMemory, scheme, by rw [h, hl]⟩

/-- A property of the state before an instruction that a refill of the cache, a trap, the update of a leaf and the
instruction's own effect keep is one of the state after it. -/
theorem execNext_induction {P : State → Prop} {i : Instr} {c t : State} (h : ExecNext i c t) (h0 : P c)
    (refill : ∀ c l, Refilled c l → P c → P (c.settled l))
    (trap : ∀ c k v, P c → P (c.takeTrap k v))
    (update : ∀ c t job va lf d, UpdatesLeaf c t job va lf d → P c → P t)
    (done : Completed i c t → P t) : P t := by
  cases h with
  | trap k v l hl h => exact h ▸ trap _ k v (refill c l hl h0)
  | updated p pa addr pte l a ha hm hl ht h =>
    obtain ⟨lf, d, hu⟩ := updatesLeaf_of_translate ht hl h
    exact update c t _ _ lf d hu h0
  | completed h => exact done h

/-- A property of the state before a step's own work that each of the things a step is made of keeps is one of the state
after the step. -/
theorem step_induction {P : State → Prop} {s t : State} (h : step s = .next t) (before : P s.beforeStep)
    (refill : ∀ c l, Refilled c l → P c → P (c.settled l))
    (trap : ∀ c k v, P c → P (c.takeTrap k v))
    (update : ∀ c t job va lf d, UpdatesLeaf c t job va lf d → P c → P t)
    (done : ∀ i c t, s.Executes i c → Completed i c t → P c → P t) : P t := by
  obtain ⟨-, hregs, hpc, -, -, hpending⟩ := beforeStep_fields s
  rcases step_next h with ⟨-, rfl⟩ | ⟨hs, hn⟩
  · exact before
  · cases hn with
    | fetchTrap k l hl h => exact h ▸ trap _ k _ (refill _ l hl before)
    | fetchUpdated p pa addr pte l hm hl ht h =>
      obtain ⟨lf, d, hu⟩ := updatesLeaf_of_translate ht hl h
      exact update _ t _ _ lf d hu before
    | run i a l hq hp hl hg hd h =>
      have hrun : s.Executes i (s.beforeStep.settled l) :=
        .fetched a hs (hpending ▸ hq) (hpc ▸ hp) (hpc ▸ hg) hd
      have hc := refill _ l hl before
      exact execNext_induction (exec_next h) hc refill trap update fun hdone => done i _ t hrun hdone hc
    | resumed i va pa hq h =>
      have hrun : s.Executes i s.beforeStep := .resumed va pa hs (hpending ▸ hq) rfl
      exact execNext_induction (exec_next h) before refill trap update fun hdone => done i _ t hrun hdone before

end Sys2Proof.Machine
end

section
/-! # O58: the control registers -/

namespace Sys2Proof.Machine

/-- The parameters and the control registers of `t` are those of `s`. -/
def SameControl (s t : State) : Prop :=
  t.cfg = s.cfg ∧ t.satp = s.satp ∧ t.sum = s.sum ∧ t.mxr = s.mxr ∧ t.stvec = s.stvec ∧ t.mtvec = s.mtvec ∧
    t.medeleg = s.medeleg

theorem SameControl.trans {s c t : State} (h : SameControl s c) (h' : SameControl c t) : SameControl s t := by
  obtain ⟨h1, h2, h3, h4, h5, h6, h7⟩ := h
  obtain ⟨h1', h2', h3', h4', h5', h6', h7'⟩ := h'
  exact ⟨h1'.trans h1, h2'.trans h2, h3'.trans h3, h4'.trans h4, h5'.trans h5, h6'.trans h6, h7'.trans h7⟩

theorem sameControl_beforeStep (s : State) : SameControl s s.beforeStep := by
  obtain ⟨m, l, r, -, h⟩ := beforeStep_eq s
  simp [SameControl, h]

theorem sameControl_takeTrap (c : State) (k : TrapKind) (v : Word) : SameControl c (c.takeTrap k v) := by
  simp [SameControl]

theorem UpdatesLeaf.sameControl {c t : State} {job : Option Instr} {va : Word} {lf : Leaf} {d : Bool}
    (h : UpdatesLeaf c t job va lf d) : SameControl c t := by
  simp [SameControl, h.next]

theorem Completed.sameControl {i : Instr} {c t : State} (h : Completed i c t) : SameControl c t := by
  obtain ⟨hcfg, -, hsatp, hsum, hmxr, -, -, -, -, -, -, -, -, -, hstvec, -, -, -, hmtvec, hmedeleg, -⟩ := h.system
  exact ⟨hcfg, hsatp, hsum, hmxr, hstvec, hmtvec, hmedeleg⟩

/-- Settles O58: nothing a step is made of writes a control register. -/
theorem stepKeepsControlRegisters : Obligations.StepKeepsControlRegisters := by
  intro s t h
  show SameControl s t
  refine step_induction h (sameControl_beforeStep s) ?refill ?trap ?update ?done
  case refill => exact fun c l _ hc => hc
  case trap => exact fun c k v hc => hc.trans (sameControl_takeTrap c k v)
  case update => exact fun c t job va lf d hu hc => hc.trans hu.sameControl
  case done => exact fun i c t _ hdone hc => hc.trans hdone.sameControl

end Sys2Proof.Machine
end

section
/-! # O57: the invariant -/

namespace Sys2Proof.Machine

/-- A trap vector's BASE is a multiple of 4. -/
theorem vectorBase_aligned (tvec : Word) : (vectorBase tvec).toNat % 4 = 0 := by
  have h : (vectorBase tvec).extractLsb' 0 2 = 0#2 := by
    ext i hi
    interval_cases i <;> simp [vectorBase]
  simpa using congrArg BitVec.toNat h

/-- The instruction after an aligned one is aligned. -/
theorem next_pc_aligned {pc : Word} (h : pc.toNat % 4 = 0) : (pc + 4#32).toNat % 4 = 0 := by
  rw [BitVec.toNat_add, BitVec.toNat_ofNat]
  omega

/-- Where a trap goes is aligned (R22, R180). -/
theorem takeTrap_pc_aligned (s : State) (k : TrapKind) (v : Word) : (s.takeTrap k v).pc.toNat % 4 = 0 := by
  unfold State.takeTrap
  split <;> exact vectorBase_aligned _

theorem State.Inv.settled {c : State} (h : c.Inv) (l : List TlbEntry) : (c.settled l).Inv :=
  ⟨h.memCanonical, h.memInRange, h.pcAligned, by simp⟩

theorem State.Inv.takeTrap {c : State} (h : c.Inv) (k : TrapKind) (v : Word) : (c.takeTrap k v).Inv where
  memCanonical := by simpa using h.memCanonical
  memInRange := by simpa using h.memInRange
  pcAligned := takeTrap_pc_aligned c k v
  pendingOffset := by simp

/-- An update writes inside the address space, and leaves the access at the page offset it has (R32, R46). -/
theorem UpdatesLeaf.inv {c t : State} {job : Option Instr} {va : Word} {lf : Leaf} {d : Bool}
    (h : UpdatesLeaf c t job va lf d) (hc : c.Inv) : t.Inv := by
  obtain ⟨u, i, ha⟩ := h.place
  obtain ⟨hm, hr⟩ := writePte_keeps (t := u) (i := i) (setNeeded d lf.pte) hc.memCanonical hc.memInRange
  rw [h.next, ha]
  refine ⟨hm, hr, hc.pcAligned, fun q hq => ?_⟩
  cases hq
  exact leafAddr_offset ..

/-- An instruction that runs to its end keeps memory canonical. -/
theorem Completed.wf {i : Instr} {c t : State} (h : Completed i c t) (hm : c.mem.wf = true) : t.mem.wf = true := by
  rcases h.memory with he | ⟨acc, a, v, s1, -, -, -, -, -, he⟩ <;> rw [he]
  · exact hm
  · exact wf_physWrite hm _ _ _

/-- An instruction that runs to its end stores, if at all, inside the address space (R15, R48). -/
theorem Completed.mem_in_range {i : Instr} {c t : State} (h : Completed i c t) (hc : c.Inv) :
    ∀ x ∈ t.mem, x.1 < 2 ^ palen c.cfg := by
  intro x hx
  rcases h.memory with he | ⟨acc, a, v, s1, -, -, -, -, hg, he⟩ <;> rw [he] at hx
  · exact hc.memInRange x hx
  · have hrange := granted_in_range hc hg
    rcases mem_physWrite hx with hx | ⟨-, hlt⟩
    · exact hc.memInRange x hx
    · omega

theorem Completed.inv {i : Instr} {c t : State} (h : Completed i c t) (hc : c.Inv) : t.Inv := by
  obtain ⟨hcfg, -⟩ := h.sameControl
  refine ⟨h.wf hc.memCanonical, hcfg ▸ h.mem_in_range hc, h.pc ▸ next_pc_aligned hc.pcAligned, fun q hq => ?_⟩
  rcases h.pending with hp | hp <;> rw [hp] at hq
  · cases hq
  · exact hc.pendingOffset q hq

/-- Settles O57: everything a step is made of keeps the invariant. -/
theorem stepKeepsInvariant : Obligations.StepKeepsInvariant := by
  intro s t hs h
  refine step_induction h (beforeStep_inv hs) ?refill ?trap ?update ?done
  case refill => exact fun c l _ hc => hc.settled l
  case trap => exact fun c k v hc => hc.takeTrap k v
  case update => exact fun c t job va lf d hu hc => hu.inv hc
  case done => exact fun i c t _ hdone hc => hdone.inv hc

end Sys2Proof.Machine
end

section
/-! # O32: agreement of the cache with the page tables
A step changes the PTEs that the walk can reach in one way only: it sets A and D in leaves (`State.OnlyMarks`). That keeps
the addresses the walk reads, and every cached PTE that agrees. -/

namespace Sys2Proof.Machine

/-! ## PTEs that differ in A and D -/

/-- The PTE `new` is `old`, or `old` is a leaf and the hart has set A or D in it, as scheme `Update` has it do. -/
def Marked (c : Config) (old new : Word) : Prop :=
  new = old ∨ (c.adScheme = .update ∧ pteKind c 0 old = .leaf ∧ new = old ||| (new &&& neededBits true))

/-- What is a leaf at one level is a leaf at every level (R72). -/
theorem kind_leaf_any_level {c : Config} {level : Nat} (level' : Nat) {pte : Word} (h : pteKind c level pte = .leaf) :
    pteKind c level' pte = .leaf :=
  kind_leaf_iff.2 (kind_leaf_iff.1 h)

theorem agrees_iff_marked {c : Config} {e : TlbEntry} {now : Word} : e.agrees c now ↔ Marked c e.pte now :=
  or_congr_right (and_congr_right fun _ => and_congr_left fun _ =>
    ⟨kind_leaf_any_level 0, kind_leaf_any_level e.level⟩)

theorem getLsbD_neededBits (d : Bool) (b : Nat) :
    (neededBits d).getLsbD b = (decide (b = 6) || (decide (b = 7) && d)) := by
  simpa [setNeeded] using getLsbD_setNeeded d 0#32 b

/-- The update of a leaf marks it (R124). -/
theorem marked_setNeeded {c : Config} {level : Nat} {pte : Word} (hs : c.adScheme = .update)
    (hk : pteKind c level pte = .leaf) (d : Bool) : Marked c pte (setNeeded d pte) := by
  refine .inr ⟨hs, kind_leaf_any_level 0 hk, BitVec.eq_of_getLsbD_eq fun b _ => ?_⟩
  rw [BitVec.getLsbD_or, BitVec.getLsbD_and, getLsbD_setNeeded, getLsbD_neededBits]
  cases pte.getLsbD b <;> cases decide (b = 6) <;> cases decide (b = 7) <;> simp

/-- Masking goes through an or. -/
theorem and_or_mask (x y n : Word) : (x &&& n) ||| (y &&& n) = (x ||| y) &&& n := by
  ext i hi
  simp [Bool.and_or_distrib_right]

theorem Marked.trans {c : Config} {old mid new : Word} (h : Marked c old mid) (h' : Marked c mid new) :
    Marked c old new := by
  rcases h with rfl | ⟨hs, hk, he⟩
  · exact h'
  · rcases h' with rfl | ⟨-, -, he'⟩
    · exact .inr ⟨hs, hk, he⟩
    · refine .inr ⟨hs, hk, ?_⟩
      have hsub : mid ||| new = new := by rw [he', ← BitVec.or_assoc, BitVec.or_self]
      calc new = mid ||| (new &&& neededBits true) := he'
        _ = old ||| ((mid &&& neededBits true) ||| (new &&& neededBits true)) := by rw [← BitVec.or_assoc, ← he]
        _ = old ||| ((mid ||| new) &&& neededBits true) := by rw [and_or_mask]
        _ = old ||| (new &&& neededBits true) := by rw [hsub]

/-- Marking leaves every bit but A and D. -/
theorem Marked.getLsbD_eq {c : Config} {old new : Word} (h : Marked c old new) {b : Nat} (hA : b ≠ 6) (hD : b ≠ 7) :
    new.getLsbD b = old.getLsbD b := by
  rcases h with rfl | ⟨-, -, he⟩
  · rfl
  · rw [he]
    simp [getLsbD_neededBits, hA, hD]

/-- A pointer is never marked. -/
theorem Marked.eq_of_pointer {c : Config} {level : Nat} {old new : Word} (h : Marked c old new)
    (hk : pteKind c level old = .pointer ∨ pteKind c level new = .pointer) : new = old := by
  have hbits : ∀ b, b ≠ 6 → b ≠ 7 → new.getLsbD b = old.getLsbD b := fun b hA hD => h.getLsbD_eq hA hD
  rcases h with h | ⟨-, hleaf, -⟩
  · exact h
  · have hnew : pteKind c 0 new = .leaf := by
      rw [kind_leaf_iff] at hleaf ⊢
      simp only [pteV, pteR, pteW, pteX] at hleaf ⊢
      rwa [hbits 0 (by decide) (by decide), hbits 1 (by decide) (by decide), hbits 2 (by decide) (by decide),
        hbits 3 (by decide) (by decide)]
    rcases hk with hk | hk
    · exact absurd hk (kind_leaf_ne_pointer hleaf)
    · exact absurd hk (kind_leaf_ne_pointer hnew)

/-! ## Page tables that differ in the A and D bits of leaves -/

/-- From `s` to `x` no PTE that the walk can reach changes but by the hart's marking of a leaf. -/
structure State.OnlyMarks (s x : State) : Prop where
  cfg : x.cfg = s.cfg
  satp : x.satp = s.satp
  ptes : ∀ level addr, s.Reaches level addr → Marked s.cfg (s.pteAt addr) (x.pteAt addr)

theorem State.Reaches.place {s : State} {level : Nat} {addr : PhysAddr} (h : s.Reaches level addr) :
    ∃ u i, addr = pteAddr u i := by
  cases h with
  | root i => exact ⟨_, i, rfl⟩
  | next top i hk => exact ⟨_, i, rfl⟩

theorem State.OnlyMarks.of_eq {s x : State} (hcfg : x.cfg = s.cfg) (hsatp : x.satp = s.satp) (hmem : x.mem = s.mem) :
    s.OnlyMarks x :=
  ⟨hcfg, hsatp, fun _ _ _ => .inl (by simp only [State.pteAt, hcfg, hmem])⟩

theorem State.OnlyMarks.asid {s x : State} (h : s.OnlyMarks x) : x.asid = s.asid := by
  simp only [State.asid, h.cfg, h.satp]

theorem State.OnlyMarks.rootAddr {s x : State} (h : s.OnlyMarks x) (va : Word) : x.rootAddr va = s.rootAddr va := by
  simp only [State.rootAddr, h.satp]

/-- A PTE of the root table that is a pointer before or after is the same pointer before and after. -/
theorem State.OnlyMarks.root_pointer {s x : State} (h : s.OnlyMarks x) {level : Nat} {i : TableIndex}
    (hk : pteKind s.cfg level (s.pteAt (pteAddr s.satp.ppn i)) = .pointer ∨
      pteKind s.cfg level (x.pteAt (pteAddr s.satp.ppn i)) = .pointer) :
    x.pteAt (pteAddr s.satp.ppn i) = s.pteAt (pteAddr s.satp.ppn i) :=
  (h.ptes 1 _ (.root i)).eq_of_pointer hk

/-- The walk can come to the same addresses before and after. -/
theorem State.OnlyMarks.reaches_iff {s x : State} (h : s.OnlyMarks x) {level : Nat} {addr : PhysAddr} :
    x.Reaches level addr ↔ s.Reaches level addr := by
  refine ⟨fun hx => ?_, fun hs => ?_⟩
  · cases hx with
    | root i => exact h.satp ▸ .root i
    | next top i hk =>
      rw [h.cfg, h.satp] at hk
      rw [h.satp, h.root_pointer (.inr hk)]
      exact .next top i (h.root_pointer (.inr hk) ▸ hk)
  · cases hs with
    | root i => exact h.satp ▸ .root i
    | next top i hk =>
      have he := h.root_pointer (.inl hk)
      rw [← he, ← h.satp] at hk ⊢
      exact .next top i (h.cfg ▸ hk)

/-- The walk for an address reads the same PTEs before and after. -/
theorem State.OnlyMarks.walkReads {s x : State} (h : s.OnlyMarks x) {va : Word} {level : Nat} {addr : PhysAddr}
    (hr : s.WalkReads va level addr) : x.WalkReads va level addr := by
  cases hr with
  | root hp =>
    rw [← h.rootAddr, ← h.cfg] at *
    exact .root hp
  | next hp hk h0 =>
    have hroot : x.pteAt (s.rootAddr va) = s.pteAt (s.rootAddr va) := h.root_pointer (.inl hk)
    have hnext : x.nextAddr va = s.nextAddr va := by simp only [State.nextAddr, h.rootAddr, hroot]
    rw [← hnext] at h0 ⊢
    rw [← hroot] at hk
    rw [← h.rootAddr, ← h.cfg] at *
    exact .next hp hk h0

theorem State.OnlyMarks.trans {s x y : State} (h : s.OnlyMarks x) (h' : x.OnlyMarks y) : s.OnlyMarks y :=
  ⟨h'.cfg.trans h.cfg, h'.satp.trans h.satp, fun level addr hr =>
    (h.ptes level addr hr).trans (h.cfg ▸ h'.ptes level addr (h.reaches_iff.2 hr))⟩

/-- The update of a leaf, as memory holds it, only marks (R124, R46). -/
theorem onlyMarks_writePte {s : State} {lf : Leaf} (d : Bool) (hm : s.mem.wf = true) (hs : s.cfg.adScheme = .update)
    (place : ∃ u i, lf.addr = pteAddr u i) (kind : pteKind s.cfg lf.level lf.pte = .leaf)
    (inMemory : lf.pte = s.pteAt lf.addr) : s.OnlyMarks (s.writePte lf.addr (setNeeded d lf.pte)) := by
  refine ⟨rfl, rfl, fun level addr hr => ?_⟩
  obtain ⟨u, i, hu⟩ := place
  obtain ⟨v, j, rfl⟩ := hr.place
  rw [hu, pteAt_writePte hm]
  split
  · rename_i he
    rw [← he, ← hu, ← inMemory]
    exact marked_setNeeded hs kind d
  · exact .inl rfl

/-- A write that stores to no byte of a PTE the walk can reach marks nothing (R202). -/
theorem onlyMarks_of_avoids {s x : State} (hcfg : x.cfg = s.cfg) (hsatp : x.satp = s.satp) {a n : Nat} {v : Word}
    (hm : s.mem.wf = true) (hmem : x.mem = physWrite s.mem a n v)
    (havoid : ∀ y, a ≤ y → y < a + n → s.AvoidsTables y 1) : s.OnlyMarks x := by
  refine ⟨hcfg, hsatp, fun level addr hr => .inl (pteAt_congr hcfg fun k hk => ?_)⟩
  rw [hmem]
  refine read_physWrite_outside hm v ?_
  by_contra hin
  have := havoid (addr.toNat + k) (by omega) (by omega) level addr hr
  rw [machineAddr_eq] at this
  omega

/-! ## Cached PTEs that agree -/

/-- One cached PTE agrees with memory; `State.CacheAgrees` asks it of all. -/
def State.EntryAgrees (s : State) (e : TlbEntry) : Prop :=
  ∀ va, e.hits s.asid va = true →
    s.WalkReads va e.level (e.leaf va).addr ∧ e.agrees s.cfg (s.pteAt (e.leaf va).addr)

theorem cacheAgrees_iff {s : State} : s.CacheAgrees ↔ ∀ e ∈ s.tlb, s.EntryAgrees e := Iff.rfl

theorem State.OnlyMarks.entryAgrees {s x : State} (h : s.OnlyMarks x) {e : TlbEntry} (he : s.EntryAgrees e) :
    x.EntryAgrees e := by
  intro va hits
  obtain ⟨hr, ha⟩ := he va (h.asid ▸ hits)
  rw [agrees_iff_marked] at ha ⊢
  exact ⟨h.walkReads hr, h.cfg ▸ ha.trans (h.ptes _ _ (reaches_of_reads hr))⟩

theorem State.EntryAgrees.of_eq {s x : State} {e : TlbEntry} (he : s.EntryAgrees e) (hcfg : x.cfg = s.cfg)
    (hsatp : x.satp = s.satp) (hmem : x.mem = s.mem) : x.EntryAgrees e :=
  (State.OnlyMarks.of_eq hcfg hsatp hmem).entryAgrees he

/-- A cache that agrees still does, or what is left of it, when PTEs are marked. -/
theorem State.OnlyMarks.cacheAgrees {s x : State} (h : s.OnlyMarks x) (ha : s.CacheAgrees)
    (hsub : ∀ e ∈ x.tlb, e ∈ s.tlb) : x.CacheAgrees :=
  fun e he => h.entryAgrees (ha e (hsub e he))

/-- Agreement does not depend on the fields beside the parameters, `satp`, memory and the cache. -/
theorem State.CacheAgrees.of_eq {s x : State} (ha : s.CacheAgrees) (hcfg : x.cfg = s.cfg) (hsatp : x.satp = s.satp)
    (hmem : x.mem = s.mem) (hsub : ∀ e ∈ x.tlb, e ∈ s.tlb) : x.CacheAgrees :=
  (State.OnlyMarks.of_eq hcfg hsatp hmem).cacheAgrees ha hsub

/-! ## Filling the cache -/

/-- The root index is the upper half of the virtual page number, that of level 0 the lower half (R33). -/
theorem vpnIndex_one (va : Word) : vpnIndex va 1 = (vpnOf va).extractLsb' 10 10 := by
  ext i hi
  simp [vpnIndex, vpnOf, show 10 + i < 20 by omega, show 12 + (10 + i) = 22 + i by omega]

theorem vpnIndex_zero (va : Word) : vpnIndex va 0 = (vpnOf va).extractLsb' 0 10 := by
  ext i hi
  simp [vpnIndex, vpnOf, show i < 20 by omega]

/-- A PTE read for the page of `va` covers only addresses that have its indices: that of the root table, and at level 0
that of level 0 too (R33, R98). -/
theorem covers_index {e : TlbEntry} {va va' : Word} (hv : e.vpn = vpnOf va) (h : e.covers va' = true) :
    vpnIndex va' 1 = vpnIndex va 1 ∧ (e.level = 0 → vpnIndex va' 0 = vpnIndex va 0) := by
  unfold TlbEntry.covers at h
  split at h
  · rename_i hleaf
    exact ⟨by rw [vpnIndex_one va, ← hv]; exact (beq_iff_eq.1 h).symm, fun h0 => absurd h0 hleaf.1⟩
  · have hpage : vpnOf va' = vpnOf va := by rw [← hv]; exact (beq_iff_eq.1 h).symm
    exact ⟨by rw [vpnIndex_one, vpnIndex_one, hpage], fun _ => by rw [vpnIndex_zero, vpnIndex_zero, hpage]⟩

theorem State.WalkReads.level_le {s : State} {va : Word} {level : Nat} {addr : PhysAddr}
    (h : s.WalkReads va level addr) : level = 0 ∨ level = 1 := by
  cases h with
  | root => exact .inr rfl
  | next => exact .inl rfl

/-- What the walk reads depends on the indices of the address alone. -/
theorem State.WalkReads.congr_index {s : State} {va va' : Word} {level : Nat} {addr : PhysAddr}
    (h : s.WalkReads va level addr) (h1 : vpnIndex va' 1 = vpnIndex va 1)
    (h0 : level = 0 → vpnIndex va' 0 = vpnIndex va 0) : s.WalkReads va' level addr := by
  have hroot : s.rootAddr va' = s.rootAddr va := by simp only [State.rootAddr, h1]
  cases h with
  | root hp => exact hroot ▸ .root (hroot ▸ hp)
  | next hp hk hp0 =>
    have hnext : s.nextAddr va' = s.nextAddr va := by simp only [State.nextAddr, hroot, h0 rfl]
    rw [← hnext] at hp0 ⊢
    rw [← hroot] at hp hk
    exact .next hp hk hp0

/-- A PTE of level 0 has nowhere to point (R99). -/
theorem kind_zero_ne_pointer {c : Config} {pte : Word} : pteKind c 0 pte ≠ .pointer := by
  unfold pteKind
  rw [if_pos rfl]
  repeat' split
  all_goals simp

/-- After a pointer that the walk reads, it reads the entry for the address in the table that the pointer names (R99). -/
theorem State.WalkReads.after_pointer {s : State} {va : Word} {level : Nat} {addr : PhysAddr}
    (h : s.WalkReads va level addr) (hk : pteKind s.cfg level (s.pteAt addr) = .pointer)
    (hp : pmpCheck s.cfg (pteAddr (ptePpn (s.pteAt addr)) (vpnIndex va 0)) 4 .load .S = true) :
    level = 1 ∧ s.WalkReads va 0 (pteAddr (ptePpn (s.pteAt addr)) (vpnIndex va 0)) := by
  cases h with
  | root hroot => exact ⟨rfl, .next hroot hk hp⟩
  | next => exact absurd hk kind_zero_ne_pointer

/-- The PTE that the walk for `va` reads, as memory holds it, agrees. -/
theorem entryAgrees_of_reads {s : State} {va : Word} {level : Nat} {table : Ppn} (above : Bool)
    (h : s.WalkReads va level (pteAddr table (vpnIndex va level))) :
    s.EntryAgrees ⟨s.asid, vpnOf va, level, table, s.pteAt (pteAddr table (vpnIndex va level)), above⟩ := by
  intro va' hits
  obtain ⟨h1, h0⟩ := covers_index (va := va) rfl (Bool.and_eq_true _ _ ▸ hits).2
  have hindex : vpnIndex va' level = vpnIndex va level := by
    rcases h.level_le with rfl | rfl
    · exact h0 rfl
    · exact h1
  simp only [TlbEntry.leaf, hindex]
  exact ⟨h.congr_index h1 h0, .inl rfl⟩

/-- A cache that agrees still does after it has taken up a PTE that the walk reads. -/
theorem cachePte_agrees {s : State} {va : Word} {level : Nat} {table : Ppn} {above : Bool} (hs : s.CacheAgrees)
    (h : pmpCheck s.cfg (pteAddr table (vpnIndex va level)) 4 .load .S = true →
      s.WalkReads va level (pteAddr table (vpnIndex va level))) : (s.cachePte va level table above).CacheAgrees := by
  unfold State.cachePte
  simp only
  split
  · rename_i hp
    have hnew := entryAgrees_of_reads above (h (Bool.and_eq_true _ _ ▸ hp).1)
    refine cacheAgrees_iff.2 fun e he => ?_
    rcases List.mem_cons.1 he with rfl | he
    · exact hnew.of_eq rfl rfl rfl
    · exact (cacheAgrees_iff.1 hs e he).of_eq rfl rfl rfl
  · exact hs

/-- A cache that agrees still does after it has taken up the PTE after a cached pointer that agrees. -/
theorem cacheNext_agrees {s : State} {va : Word} {e : TlbEntry} (hs : s.CacheAgrees) (he : s.EntryAgrees e)
    (hits : e.hits s.asid va = true) : (s.cacheNext va e).CacheAgrees := by
  unfold State.cacheNext
  split
  · rename_i hk
    obtain ⟨hr, ha⟩ := he va hits
    have hpte : s.pteAt (e.leaf va).addr = e.pte := (agrees_iff_marked.1 ha).eq_of_pointer (.inl hk)
    refine cachePte_agrees hs fun hp => ?_
    rw [← hpte] at hk hp ⊢
    have hlevel : e.level = 1 := by
      rcases hr.level_le with h0 | h1
      · rw [h0] at hk
        exact absurd hk kind_zero_ne_pointer
      · exact h1
    rw [hlevel] at hp ⊢
    exact (hr.after_pointer hk hp).2
  · exact hs

/-- A cache that agrees still does after a fill. -/
theorem fillCache_agrees {s : State} (hs : s.CacheAgrees) (va : Word) : (s.fillCache va).CacheAgrees := by
  have hroot : (s.cachePte va rootLevel s.satp.ppn false).CacheAgrees := cachePte_agrees hs .root
  obtain ⟨l0, h0⟩ := cachePte_eq s va rootLevel s.satp.ppn false
  refine (fillCache_induction (P := fun x => (∃ l, x = { s with tlb := l }) ∧ x.CacheAgrees) ⟨⟨s.tlb, rfl⟩, hs⟩
    (fun _ _ => ⟨⟨l0, h0⟩, hroot⟩) ?_).2
  rintro x e hits hmem ⟨⟨l, rfl⟩, hx⟩
  have he : s.EntryAgrees e := (cacheAgrees_iff.1 hroot e hmem).of_eq (by rw [h0]) (by rw [h0]) (by rw [h0])
  obtain ⟨l', hl'⟩ := cacheNext_eq { s with tlb := l } va e
  exact ⟨⟨l', hl'⟩, cacheNext_agrees hx (he.of_eq rfl rfl rfl) hits⟩

/-- A cache that agrees still does after a flush. -/
theorem flushCache_agrees {s : State} (hs : s.CacheAgrees) (va asid : Option Word) : (s.flushCache va asid).CacheAgrees :=
  hs.of_eq rfl rfl rfl fun _ he => (List.mem_filter.1 he).1

/-- A cache that agrees still does after the fill that an access may make. -/
theorem settled_agrees {c : State} {l : List TlbEntry} (hl : Refilled c l) (hc : c.CacheAgrees) :
    (c.settled l).CacheAgrees := by
  rcases hl with rfl | ⟨va, rfl⟩
  · exact hc.of_eq rfl rfl rfl fun _ he => he
  · have hnone : { c with pending := none }.CacheAgrees := hc.of_eq rfl rfl rfl fun _ he => he
    exact (fillCache_agrees hnone va).of_eq (by simp) (by simp) (by simp) fun _ he => he

/-! ## A step -/

/-- What a step keeps of the state `s` it starts from: the page tables but for marks, memory canonical, and agreement. -/
structure State.KeepsAgreement (s x : State) : Prop where
  marks : s.OnlyMarks x
  memCanonical : x.mem.wf = true
  agrees : x.CacheAgrees

/-- What is kept does not depend on the fields beside the parameters, `satp`, memory and the cache. -/
theorem State.KeepsAgreement.of_eq {s x y : State} (h : s.KeepsAgreement x) (hcfg : y.cfg = x.cfg)
    (hsatp : y.satp = x.satp) (hmem : y.mem = x.mem) (hy : y.CacheAgrees) : s.KeepsAgreement y :=
  ⟨h.marks.trans (.of_eq hcfg hsatp hmem), hmem ▸ h.memCanonical, hy⟩

theorem setAccessed_keepsAgreement {s x : State} (h : s.KeepsAgreement x) (hs : x.cfg.adScheme = .update)
    (a : SpecAccess) : s.KeepsAgreement (x.setAccessed a) := by
  rcases setAccessed_cases x a with he | ⟨lf, hw, -, -, he⟩ <;> rw [he]
  · exact h
  · obtain ⟨place, kind, inMemory, -⟩ := walk_leaf hw
    have hmarks := onlyMarks_writePte false h.memCanonical hs place kind inMemory
    exact ⟨h.marks.trans hmarks, wf_physWrite h.memCanonical _ _ _, hmarks.cacheAgrees h.agrees fun _ he => he⟩

theorem fillCache_keepsAgreement {s x : State} (h : s.KeepsAgreement x) (va : Word) :
    s.KeepsAgreement (x.fillCache va) :=
  h.of_eq (by simp) (by simp) (by simp) (fillCache_agrees h.agrees va)

/-- What the hart does of its own accord keeps agreement (R127). -/
theorem beforeStep_keepsAgreement {s : State} (hm : s.mem.wf = true) (hs : s.CacheAgrees) :
    s.KeepsAgreement s.beforeStep := by
  have hspec : s.KeepsAgreement s.speculate := by
    refine speculate_induction (P := s.KeepsAgreement) ⟨.of_eq rfl rfl rfl, hm, hs⟩ fun x a hx => ?_
    unfold State.speculateOne
    split
    · rename_i hon
      simp only [Bool.and_eq_true, decide_eq_true_eq] at hon
      exact fillCache_keepsAgreement (setAccessed_keepsAgreement hx hon.2 a) _
    · exact fillCache_keepsAgreement hx _
  exact hspec.of_eq rfl rfl rfl (hspec.agrees.of_eq rfl rfl rfl fun _ he => he)

theorem settled_keepsAgreement {s c : State} (h : s.KeepsAgreement c) {l : List TlbEntry} (hl : Refilled c l) :
    s.KeepsAgreement (c.settled l) :=
  h.of_eq rfl rfl rfl (settled_agrees hl h.agrees)

theorem takeTrap_keepsAgreement {s c : State} (h : s.KeepsAgreement c) (k : TrapKind) (v : Word) :
    s.KeepsAgreement (c.takeTrap k v) :=
  h.of_eq (by simp) (by simp) (by simp) (h.agrees.of_eq (by simp) (by simp) (by simp) (by simp))

theorem UpdatesLeaf.keepsAgreement {s c t : State} {job : Option Instr} {va : Word} {lf : Leaf} {d : Bool}
    (h : UpdatesLeaf c t job va lf d) (hc : s.KeepsAgreement c) : s.KeepsAgreement t := by
  have hmarks := onlyMarks_writePte d hc.memCanonical h.scheme h.place h.kind h.inMemory
  have hwritten : (c.writePte lf.addr (setNeeded d lf.pte)).CacheAgrees := hmarks.cacheAgrees hc.agrees fun _ he => he
  have hkept : s.KeepsAgreement (c.writePte lf.addr (setNeeded d lf.pte)) :=
    ⟨hc.marks.trans hmarks, wf_physWrite hc.memCanonical _ _ _, hwritten⟩
  have hidle : ({ c with pending := none }.writePte lf.addr (setNeeded d lf.pte)).CacheAgrees :=
    hwritten.of_eq rfl rfl rfl fun _ he => he
  rw [h.next]
  exact hkept.of_eq rfl rfl rfl ((fillCache_agrees hidle va).of_eq (by simp) (by simp) (by simp) fun _ he => he)

/-- An instruction that runs to its end and stores to no byte of a PTE the walk can reach keeps agreement. -/
theorem Completed.keepsAgreement {s c t : State} {i : Instr} (h : Completed i c t) (hrun : s.Executes i c)
    (havoid : ∀ x, s.Stores x → s.AvoidsTables x 1) (hc : s.KeepsAgreement c) : s.KeepsAgreement t := by
  obtain ⟨hcfg, hsatp, -⟩ := h.sameControl
  have hmarks : c.OnlyMarks t := by
    rcases h.memory with hm | ⟨acc, a, v, s1, hwf, hacc, htype, hchecked, hg, hm⟩
    · exact .of_eq hcfg hsatp hm
    · refine onlyMarks_of_avoids hcfg hsatp hc.memCanonical hm fun y hlo hhi level addr hr => ?_
      have hstores : s.Stores y := ⟨i, c, acc, a, s1, hrun, hwf, hacc, htype, hchecked, hg, hlo, hhi⟩
      simpa only [machineAddr_eq] using havoid y hstores level addr (hc.marks.reaches_iff.1 hr)
  obtain ⟨l, hl, hsub⟩ := h.cache
  have hfilled : (c.settled l).OnlyMarks t := State.OnlyMarks.trans (x := c) (.of_eq rfl rfl rfl) hmarks
  exact ⟨hc.marks.trans hmarks, h.wf hc.memCanonical, hfilled.cacheAgrees (settled_agrees hl hc.agrees) hsub⟩

/-- Settles O32: a fill takes up what the walk reads now, a flush only removes, and everything a step is made of changes
reachable PTEs by marks in leaves at most. -/
theorem fillFlushAndStepKeepAgreement : Obligations.FillFlushAndStepKeepAgreement := by
  refine ⟨fun s va fva fasid hs => ⟨fillCache_agrees hs va, flushCache_agrees hs fva fasid⟩, ?_⟩
  intro s t hm hs havoid h
  suffices s.KeepsAgreement t from this.agrees
  refine step_induction h (beforeStep_keepsAgreement hm hs) ?refill ?trap ?update ?done
  case refill => exact fun c l hl hc => settled_keepsAgreement hc hl
  case trap => exact fun c k v hc => takeTrap_keepsAgreement hc k v
  case update => exact fun c t job va lf d hu hc => hu.keepsAgreement hc
  case done => exact fun i c t hrun hdone hc => hdone.keepsAgreement hrun havoid hc

end Sys2Proof.Machine
end

section
/-! # O28: the byte that a PTE update changes -/

namespace Sys2Proof.Machine

/-- Byte `i` of a word of memory is the byte at the `i`-th address (R44). -/
theorem extract_physRead (m : Memory) (a : Nat) {i : Nat} (hi : i < 4) :
    (physRead m a 4).extractLsb' (8 * i) 8 = m.read (a + i) := by
  rw [physRead_word]
  ext j hj
  rw [BitVec.getElem_extractLsb', wordOfBytes]
  refine BitVec.getLsbD_append.trans ?_
  simp only [BitVec.getLsbD_append]
  interval_cases i
  · simp [hj]
  · simp [hj, show ¬ 8 + j < 8 by omega]
  · simp [hj, show ¬ 16 + j < 8 by omega, show 16 + j - 8 = 8 + j by omega, show ¬ 8 + j < 8 by omega]
  · simp [hj, show ¬ 24 + j < 8 by omega, show 24 + j - 8 = 16 + j by omega, show ¬ 16 + j < 8 by omega,
      show 16 + j - 8 = 8 + j by omega, show ¬ 8 + j < 8 by omega]

/-- A PTE that the hart has updated differs from the PTE in the A and D bits of its lowest byte alone (R36, R124). -/
theorem extract_setNeeded (d : Bool) (pte : Word) {i : Nat} (hi : i < 4) :
    (setNeeded d pte).extractLsb' (8 * i) 8 =
      pte.extractLsb' (8 * i) 8 ||| (if i = 0 then (if d = true then 0xC0#8 else 0x40#8) else 0#8) := by
  rw [setNeeded, neededBits, BitVec.extractLsb'_or]
  congr 1
  interval_cases i <;> cases d <;> decide

/-- What an update of the PTE at an address leaves in memory (R121, R125). -/
theorem read_setNeeded {m : Memory} (hm : m.wf = true) (a : Nat) (d : Bool) (x : Nat) :
    (physWrite m a 4 (setNeeded d (physRead m a 4))).read x =
      if x = a then m.read a ||| (if d = true then 0xC0#8 else 0x40#8) else m.read x := by
  by_cases hin : a ≤ x ∧ x < a + 4
  · obtain ⟨i, rfl⟩ := Nat.exists_eq_add_of_le hin.1
    have hi : i < 4 := by omega
    rw [read_physWrite_inside hm _ hi, extract_setNeeded d _ hi, extract_physRead m a hi]
    by_cases h0 : i = 0
    · subst h0
      simp
    · simp [h0]
  · rw [read_physWrite_outside hm _ (by omega), if_neg (by omega)]

/-- Settles O28: the update is that of the leaf which the lookup of the access finds. -/
theorem pteUpdateOnlySetsAccessedAndDirty : Obligations.PteUpdateOnlySetsAccessedAndDirty := by
  intro s job va n t dirty checked s1 hm hg
  rcases grant_cases s job va n t dirty checked with ⟨r, h⟩ | ⟨k, l, -, h, -⟩ |
    ⟨p, pa, addr, pte, l, hp, -, ht, h⟩ | ⟨p, pa, l, -, -, -, -, -, -, h⟩ <;> rw [h] at hg <;> cases hg
  obtain ⟨-, lf, hlookup, -, hkind, hpte, hperm, -, -, -, -, rfl, rfl⟩ := translate_update ht
  have hnow : physRead s.mem (machineAddr s.cfg lf.addr) 4 = lf.pte := hpte.symm
  have hread := read_setNeeded hm (machineAddr s.cfg lf.addr) (decide (t = .store) && dirty)
  rw [hnow] at hread
  refine ⟨p, lf, hp, hlookup, fun hc => ?_, hpte, isLeaf_of_kind hkind, hperm, ?_, fun x hx => ?_⟩
  · exact (lookup_of_no_cache (s := { s with pending := none }) hc va t p dirty).symm.trans hlookup
  · simpa using hread (machineAddr s.cfg lf.addr)
  · simpa [hx] using hread x

end Sys2Proof.Machine
end

section
/-! # O54: machine mode -/

namespace Sys2Proof.Machine

/-- An aligned access in machine mode is refused, whatever is pending (R10). -/
theorem grant_in_machine_mode {s : State} (hmode : s.mode = .machine) {va : Word} {n : Nat}
    (hn : n = 1 ∨ n = 2 ∨ n = 4) (ha : va.toNat % n = 0) (job : Option Instr) (t : AccessType) (dirty checked : Bool) :
    s.grant job va n t dirty checked = .refused .machineModeAccess := by
  have hpage : ¬ (pageOffset va).toNat + n > pageSize := by
    have hoff : (pageOffset va).toNat = va.toNat % 4096 := by simp [pageOffset]
    rw [hoff, pageSize]
    rcases hn with rfl | rfl | rfl <;> omega
  simp only [State.grant, if_neg hpage, ha, hmode, Mode.privilege, ne_eq, not_true_eq_false, if_false]

/-- Accesses are of 1, 2 or 4 bytes. -/
theorem accessOf_size {s : State} {i : Instr} {a : Access} (h : s.accessOf i = some a) :
    a.size = 1 ∨ a.size = 2 ∨ a.size = 4 := by
  cases i <;> cases h <;> simp

/-- Settles O54: the grant of the access, or of the fetch, is the refusal. -/
theorem machineModeAccessIsRefused : Obligations.MachineModeAccessIsRefused := by
  refine ⟨fun s i a ha hw hmode hal => ?_, fun s hmode hal hq => stepAnswers_of ?_⟩
  · obtain ⟨run, hrun⟩ := exec_access ha hw
    rw [hrun, State.grantOf, grant_in_machine_mode hmode (accessOf_size ha) hal, andThen_refused]
  · obtain ⟨-, -, hpc, hmode', -, hpending⟩ := beforeStep_fields s
    have hal' : s.beforeStep.pc.toNat % 4 = 0 := hpc ▸ hal
    rw [hartStep_of_fetch (hpending ▸ hq), State.fetchAndRun, if_neg (by omega),
      grant_in_machine_mode (hmode'.trans hmode) (by simp) hal', andThen_refused]

end Sys2Proof.Machine
end

section
/-! # O6 and O7: the words of `satp` and of the status registers -/

namespace Sys2Proof.Machine

/-- Bit `b` of the `satp` word, by the field it lies in (R12). -/
theorem getLsbD_satpWord (r : Satp) (b : Nat) : (satpWord r).getLsbD b =
    if b < 22 then r.ppn.getLsbD b else if b < 31 then r.asid.getLsbD (b - 22)
      else decide (b = 31) && satpModeBit r.mode := by
  refine BitVec.getLsbD_append.trans ?_
  by_cases hp : b < 22
  · simp [hp]
  · rw [if_neg hp, if_neg hp, BitVec.getLsbD_append]
    by_cases ha : b < 31
    · simp [ha, show b - 22 < 9 by omega]
    · by_cases hb : b = 31
      · simp [hb]
      · simp [ha, hb, show ¬ b - 22 < 9 by omega, show b - 22 - 9 ≠ 0 by omega]

theorem extract_satpWord_asid (r : Satp) : (satpWord r).extractLsb' 22 9 = r.asid := by
  ext i hi
  simp [getLsbD_satpWord, show 22 + i < 31 by omega, BitVec.getLsbD_eq_getElem hi]

theorem extract_satpWord_ppn (r : Satp) : (satpWord r).extractLsb' 0 22 = r.ppn := by
  ext i hi
  simp [getLsbD_satpWord, hi]

theorem satpWord_bit31 (r : Satp) : (satpWord r).getLsbD 31 = true ↔ r.mode = .sv32 := by
  rw [getLsbD_satpWord]
  cases r.mode <;> simp [satpModeBit]

theorem satpOfWord_satpWord (r : Satp) : satpOfWord (satpWord r) = r := by
  have hmode : (if (satpWord r).getLsbD 31 then SatpMode.sv32 else .bare) = r.mode := by
    rw [getLsbD_satpWord]
    cases r.mode <;> rfl
  simp only [satpOfWord, hmode, extract_satpWord_asid, extract_satpWord_ppn]

theorem satpWord_satpOfWord (w : Word) : satpWord (satpOfWord w) = w := by
  apply BitVec.eq_of_getLsbD_eq
  intro b hb
  rw [getLsbD_satpWord]
  split
  · simp [satpOfWord, *]
  · split
    · simp [satpOfWord, show b - 22 < 9 by omega, show 22 + (b - 22) = b by omega]
    · obtain rfl : b = 31 := by omega
      simp only [satpOfWord]
      cases w.getLsbD 31 <;> rfl

/-- Settles O6, field by field of the word. -/
theorem satpWordLayout : Obligations.SatpWordLayout :=
  ⟨satpOfWord_satpWord, satpWord_satpOfWord, fun r =>
    ⟨satpWord_bit31 r, extract_satpWord_asid r, extract_satpWord_ppn r⟩⟩

/-- A status bit is at its own place and at no other. -/
theorem getLsbD_bitAt (v : Bool) (place : Nat) {b : Nat} (hb : b < 32) :
    (bitAt v place).getLsbD b = (v && decide (b = place)) := by
  cases v
  · simp [bitAt]
  · simp only [bitAt, if_true, BitVec.getLsbD_shiftLeft, BitVec.getLsbD_one, Bool.true_and]
    by_cases he : b = place <;> simp [he] <;> omega

theorem sstatus_bit18 (s : State) : s.sstatus.getLsbD 18 = s.sum := by
  simp only [State.sstatus, BitVec.getLsbD_or, getLsbD_bitAt, Nat.reduceLT, Nat.reduceEqDiff, decide_false, decide_true,
    Bool.and_false, Bool.and_true, Bool.or_false, Bool.false_or]

/-- The two bits of MPP, at 12:11, do not reach bit 18. -/
theorem mpp_bit18 (m : Mode) : (modeCode m <<< 11).getLsbD 18 = false := by
  cases m <;> decide

/-- Settles O7: the other bits of both words stand at other places. -/
theorem sumIsBit18OfBothStatusWords : Obligations.SumIsBit18OfBothStatusWords := by
  refine fun s => ⟨sstatus_bit18 s, ?_⟩
  simp only [State.mstatus, BitVec.getLsbD_or, sstatus_bit18, mpp_bit18, getLsbD_bitAt, Nat.reduceLT, Bool.or_false,
    Nat.reduceEqDiff, decide_false, Bool.and_false]

end Sys2Proof.Machine
end

section
/-! # O13, O41 and O42: when an access is granted
A translation that answers an address, on a state whose cache the access does not fill, grants the access in that very
state. Under Bare, and under Sv32 without a cache, the two premises are facts about the mode. -/

namespace Sys2Proof.Machine

theorem bareAddr_toNat (va : Word) : (bareAddr va).toNat = va.toNat := by
  have hva := va.isLt
  rw [bareAddr, BitVec.toNat_setWidth, Nat.mod_eq_of_lt (by omega)]

/-- Under Bare an access translates to its own address (R38). -/
theorem translate_bare {s : State} (h : s.satp.mode = .bare) (va : Word) (t : AccessType) (p : Privilege)
    (dirty : Bool) : s.translate va t p dirty = .done (bareAddr va) := by
  simp only [State.translate, h]

/-- Under Bare there is no PTE for the cache to take up. -/
theorem fillCache_bare {s : State} (h : s.satp.mode = .bare) (va : Word) : s.fillCache va = s := by
  simp [State.fillCache, h]

/-- Settles O13: memory is no part of the answer. -/
theorem bareTranslatesNothing : Obligations.BareTranslatesNothing := fun s m va t p dirty h =>
  ⟨translate_bare (s := { s with mem := m }) h va t p dirty, bareAddr_toNat va,
    (machineAddr_eq s.cfg (bareAddr va)).trans (bareAddr_toNat va)⟩

/-- The bits an access needs are set: A, and D for a store that asks for it (R107). -/
theorem needsUpdate_eq_false_iff {t : AccessType} {dirty : Bool} {pte : Word} : needsUpdate t dirty pte = false ↔
    pteA pte = true ∧ (t = .store → dirty = true → pteD pte = true) := by
  cases hA : pteA pte <;> cases hD : pteD pte <;> cases dirty <;> simp [needsUpdate, hA, hD]

/-- A leaf that grants the access and lacks no bit it needs answers the address of R108. -/
theorem useLeaf_done {s : State} {t : AccessType} {p : Privilege} {dirty : Bool} {lf : Leaf}
    (hperm : s.leafPermits t p lf = true) (hbits : needsUpdate t dirty lf.pte = false) (va : Word) :
    s.useLeaf va t p dirty lf = .done (leafAddr lf.level lf.pte va) := by
  simp [State.useLeaf, hperm, hbits]

/-- An access that PMP does not refuse, or that is not checked, passes stage 2 of R40. -/
theorem checkPmp_granted {s : State} {pa : PhysAddr} {n : Nat} {t : AccessType} {p : Privilege} {checked : Bool}
    (hpmp : checked = true → pmpCheck s.cfg pa n t p = true) :
    s.checkPmp pa n t p checked = .granted (machineAddr s.cfg pa) s := by
  rcases checkPmp_cases s pa n t p checked with ⟨hgranted, -⟩ | ⟨-, hchecked, hdenied⟩
  · exact hgranted
  · rw [hpmp hchecked] at hdenied
    cases hdenied

/-- The three stages of R40 passed one after the other, with nothing for the cache to take up. -/
theorem grant_of_translate_done {s : State} {va : Word} {n : Nat} {t : AccessType} {p : Privilege}
    {dirty checked : Bool} {pa : PhysAddr} (hatt : s.Attempts va n p) (htr : s.translate va t p dirty = .done pa)
    (hfill : s.fillCache va = s) (hpmp : checked = true → pmpCheck s.cfg pa n t p = true) (job : Option Instr) :
    s.grant job va n t dirty checked = .granted (machineAddr s.cfg pa) s := by
  rw [grant_of_attempts hatt]
  simp only [State.grantFresh, htr, hfill]
  exact checkPmp_granted hpmp

/-- Settles O41: the translation is the address itself, and no cache is filled. -/
theorem bareAccessIsGranted : Obligations.BareAccessIsGranted := by
  intro s job va n t p dirty checked hbare hatt hpmp
  rw [grant_of_translate_done hatt (translate_bare hbare ..) (fillCache_bare hbare va) hpmp, machineAddr_eq,
    bareAddr_toNat]

/-- Settles O42: the leaf of the walk answers the address of R108, and there is no cache to fill. -/
theorem walkedAccessIsGranted : Obligations.WalkedAccessIsGranted := by
  intro s job va n t p dirty checked lf hwalks hatt hwalk hperm hA hD hpmp
  have htr : s.translate va t p dirty = .done (leafAddr lf.level lf.pte va) := by
    rw [translate_of_walks hwalks, translateByWalk_sv32 hwalks.1, hwalk, useWalk_leaf,
      useLeaf_done hperm (needsUpdate_eq_false_iff.2 ⟨hA, hD⟩)]
  exact grant_of_translate_done hatt htr (fillCache_off hwalks.2 va) hpmp job

end Sys2Proof.Machine
end

section
/-! # O53: an access that crosses a page or is misaligned
The refusal stands before anything else an access does, and an instruction answers what its access becomes. -/

namespace Sys2Proof.Machine

theorem pageOffset_toNat (va : Word) : (pageOffset va).toNat = va.toNat % 4096 := by simp [pageOffset]

/-- Bytes of two pages (R48). -/
theorem grant_crossing {va : Word} {n : Nat} (hcross : va.toNat % 4096 + n > 4096) (s : State) (job : Option Instr)
    (t : AccessType) (dirty checked : Bool) : s.grant job va n t dirty checked = .refused .pageCrossing := by
  rw [State.grant, pageOffset_toNat, pageSize, if_pos hcross]

/-- Bytes of one page, not naturally aligned (D2). -/
theorem grant_misaligned {va : Word} {n : Nat} (hpage : va.toNat % 4096 + n ≤ 4096) (hal : va.toNat % n ≠ 0)
    (s : State) (job : Option Instr) (t : AccessType) (dirty checked : Bool) :
    s.grant job va n t dirty checked = .refused .misalignedAccess := by
  rw [State.grant, pageOffset_toNat, pageSize, if_neg (Nat.not_lt.2 hpage), if_pos hal]

/-- A refused access is the refusal of its instruction. -/
theorem exec_of_grant_refused {s : State} {i : Instr} {a : Access} {r : Refusal} (ha : s.accessOf i = some a)
    (hw : Instr.wellFormed s.cfg i = true) (hg : s.grantOf i a = .refused r) : exec i s = .refused r := by
  obtain ⟨run, hrun⟩ := exec_access ha hw
  rw [hrun, hg, andThen_refused]

/-- Settles O53, by the two tests that stand first in the grant. -/
theorem unalignedAccessIsRefused : Obligations.UnalignedAccessIsRefused := fun s _ _ ha hw =>
  ⟨fun hcross => exec_of_grant_refused ha hw (grant_crossing hcross s ..),
    fun hpage hal => exec_of_grant_refused ha hw (grant_misaligned hpage hal s ..)⟩

end Sys2Proof.Machine
end

section
/-! # O1 and O2: the decoder and the encoder
A word is its six fields, so each of the three formats of R76 is the word of a few fields, and the decoder reads those
fields back. -/

namespace Sys2Proof

/-! ## The fields of a word of each format (R76, R77) -/

section Formats
variable (imm : BitVec 12) (rs2 rs1 : Reg) (f3 : BitVec 3) (rd : Reg) (op : BitVec 7) (f5 : BitVec 5) (aq rl : Bool)

@[simp] theorem immIOf_encodeI : immIOf (encodeI imm rs1 f3 rd op) = imm := by simp [immIOf, encodeI]
@[simp] theorem opcodeOf_encodeI : opcodeOf (encodeI imm rs1 f3 rd op) = op := opcodeOf_joinFields ..
@[simp] theorem funct3Of_encodeI : funct3Of (encodeI imm rs1 f3 rd op) = f3 := funct3Of_joinFields ..
@[simp] theorem rs1Of_encodeI : rs1Of (encodeI imm rs1 f3 rd op) = rs1 := rs1Of_joinFields ..
@[simp] theorem rdOf_encodeI : rdOf (encodeI imm rs1 f3 rd op) = rd := rdOf_joinFields ..

@[simp] theorem immSOf_encodeS : immSOf (encodeS imm rs2 rs1 f3 op) = imm := by simp [immSOf, encodeS]
@[simp] theorem opcodeOf_encodeS : opcodeOf (encodeS imm rs2 rs1 f3 op) = op := opcodeOf_joinFields ..
@[simp] theorem funct3Of_encodeS : funct3Of (encodeS imm rs2 rs1 f3 op) = f3 := funct3Of_joinFields ..
@[simp] theorem rs2Of_encodeS : rs2Of (encodeS imm rs2 rs1 f3 op) = rs2 := rs2Of_joinFields ..
@[simp] theorem rs1Of_encodeS : rs1Of (encodeS imm rs2 rs1 f3 op) = rs1 := rs1Of_joinFields ..

@[simp] theorem funct5Of_encodeAtomic : funct5Of (encodeAtomic f5 aq rl rs2 rs1 rd) = f5 := by
  simp only [funct5Of, encodeAtomic, funct7Of_joinFields, (funct5_aq_rl f5 aq rl).1]
@[simp] theorem aqOf_encodeAtomic : aqOf (encodeAtomic f5 aq rl rs2 rs1 rd) = aq := by
  simp only [aqOf, encodeAtomic, funct7Of_joinFields, (funct5_aq_rl f5 aq rl).2.1]
@[simp] theorem rlOf_encodeAtomic : rlOf (encodeAtomic f5 aq rl rs2 rs1 rd) = rl := by
  simp only [rlOf, encodeAtomic, funct7Of_joinFields, (funct5_aq_rl f5 aq rl).2.2]
@[simp] theorem opcodeOf_encodeAtomic : opcodeOf (encodeAtomic f5 aq rl rs2 rs1 rd) = 0b0101111#7 :=
  opcodeOf_joinFields ..
@[simp] theorem funct3Of_encodeAtomic : funct3Of (encodeAtomic f5 aq rl rs2 rs1 rd) = 0b010#3 := funct3Of_joinFields ..
@[simp] theorem rs2Of_encodeAtomic : rs2Of (encodeAtomic f5 aq rl rs2 rs1 rd) = rs2 := rs2Of_joinFields ..
@[simp] theorem rs1Of_encodeAtomic : rs1Of (encodeAtomic f5 aq rl rs2 rs1 rd) = rs1 := rs1Of_joinFields ..
@[simp] theorem rdOf_encodeAtomic : rdOf (encodeAtomic f5 aq rl rs2 rs1 rd) = rd := rdOf_joinFields ..

end Formats

/-- The twelve upper bits of a FENCE are `fm`, `pred` and `succ`. -/
theorem fence_imm_split (fm pred succ : BitVec 4) :
    (fm ++ pred ++ succ : BitVec 12).extractLsb' 8 4 = fm ∧ (fm ++ pred ++ succ : BitVec 12).extractLsb' 4 4 = pred ∧
      (fm ++ pred ++ succ : BitVec 12).extractLsb' 0 4 = succ :=
  ⟨(BitVec.extractLsb'_append_eq_of_le (by decide)).trans BitVec.extractLsb'_append_eq_left,
    (BitVec.extractLsb'_append_eq_of_le (by decide)).trans BitVec.extractLsb'_append_eq_right,
    BitVec.extractLsb'_append_eq_right⟩

/-! ## Decoding an encoded instruction -/

theorem decodeWord_encode (i : Instr) : decodeWord (encode i) = .ok i := by
  cases i with
  | lb | lh | lw | lbu | lhu => simp [encode, decodeWord, decodeLoad]
  | sb | sh | sw => simp [encode, decodeWord, decodeStore]
  | lrW | scW | amoswapW | amoaddW | amoxorW | amoandW | amoorW | amominW | amomaxW | amominuW | amomaxuW =>
    simp [encode, decodeWord, decodeAtomic]
  | fence fm pred succ =>
    obtain ⟨hfm, hpred, hsucc⟩ := fence_imm_split fm pred succ
    simp [encode, decodeWord, decodeFence, fmOf, predOf, succOf, hfm, hpred, hsucc]
  | sfenceVma => simp [encode, decodeWord, decodeSystem]

/-- Four bytes decode as their word does (R75). -/
theorem decode_bytesOfWord {w : Word} {i : Instr} (h : decodeWord w = .ok i) : decode (bytesOfWord w) = .ok (i, []) := by
  simp only [bytesOfWord, decode, wordOfBytes_bytesOfWord, h]

/-- Settles O1: the decoder reads back every field that the encoder writes. -/
theorem decodeInvertsEncode : Obligations.DecodeInvertsEncode := fun i =>
  ⟨decodeWord_encode i, decode_bytesOfWord (decodeWord_encode i)⟩

/-! ## Encoding a decoded word -/

section Reassembly
variable {w : Word} {f3 : BitVec 3} {op : BitVec 7}

/-- The halves of an immediate put together from seven and five bits. -/
theorem append_halves (hi : BitVec 7) (lo : BitVec 5) :
    (hi ++ lo : BitVec 12).extractLsb' 5 7 = hi ∧ (hi ++ lo : BitVec 12).extractLsb' 0 5 = lo :=
  ⟨BitVec.extractLsb'_append_eq_left, BitVec.extractLsb'_append_eq_right⟩

/-- A word is the I-format word of its fields. -/
theorem encodeI_of_fields (h3 : funct3Of w = f3) (hop : opcodeOf w = op) :
    encodeI (immIOf w) (rs1Of w) f3 (rdOf w) op = w := by
  obtain ⟨hhi, hlo⟩ := append_halves (funct7Of w) (rs2Of w)
  rw [encodeI, immIOf, hhi, hlo, ← h3, ← hop, joinFields_fields]

/-- A word is the S-format word of its fields. -/
theorem encodeS_of_fields (h3 : funct3Of w = f3) (hop : opcodeOf w = op) :
    encodeS (immSOf w) (rs2Of w) (rs1Of w) f3 op = w := by
  obtain ⟨hhi, hlo⟩ := append_halves (funct7Of w) (rdOf w)
  rw [encodeS, immSOf, hhi, hlo, ← h3, ← hop, joinFields_fields]

/-- The top seven bits of an atomic instruction are funct5, `aq` and `rl`. -/
theorem funct7_of_funct5_aq_rl (f7 : BitVec 7) :
    (f7.extractLsb' 2 5 ++ BitVec.ofBool (f7.getLsbD 1) ++ BitVec.ofBool (f7.getLsbD 0) : BitVec 7) = f7 := by
  revert f7
  decide

/-- A word of the atomic opcode and funct3 is the atomic word of its fields. -/
theorem encodeAtomic_of_fields {f5 : BitVec 5} (h5 : funct5Of w = f5) (h3 : funct3Of w = 0b010#3)
    (hop : opcodeOf w = 0b0101111#7) : encodeAtomic f5 (aqOf w) (rlOf w) (rs2Of w) (rs1Of w) (rdOf w) = w := by
  rw [encodeAtomic, ← h5, funct5Of, aqOf, rlOf, funct7_of_funct5_aq_rl, ← h3, ← hop, joinFields_fields]

/-- The twelve upper bits of a word are its FENCE fields. -/
theorem fence_imm_join (imm : BitVec 12) :
    (imm.extractLsb' 8 4 ++ imm.extractLsb' 4 4 ++ imm.extractLsb' 0 4 : BitVec 12) = imm := by
  have hhi : (imm.extractLsb' 8 4 ++ imm.extractLsb' 4 4 : BitVec 8) = imm.extractLsb' 4 8 :=
    BitVec.extractLsb'_append_extractLsb'_eq_extractLsb' rfl
  rw [hhi]
  exact (BitVec.extractLsb'_append_extractLsb'_eq_extractLsb' rfl).trans BitVec.extractLsb'_eq_self

theorem encode_lrW_of_fields (hrs2 : rs2Of w = 0#5) (h5 : funct5Of w = 0b00010#5) (h3 : funct3Of w = 0b010#3)
    (hop : opcodeOf w = 0b0101111#7) : encode (.lrW (rdOf w) (rs1Of w) (aqOf w) (rlOf w)) = w := by
  rw [encode, ← hrs2]
  exact encodeAtomic_of_fields h5 h3 hop

theorem encode_fence_of_fields (h3 : funct3Of w = 0b000#3) (hop : opcodeOf w = 0b0001111#7) :
    encode (.fence (fmOf w) (predOf w) (succOf w) (rs1Of w) (rdOf w)) = w := by
  rw [encode, fmOf, predOf, succOf, fence_imm_join]
  exact encodeI_of_fields h3 hop

theorem encode_sfenceVma_of_fields (h7 : funct7Of w = 0b0001001#7) (h3 : funct3Of w = 0b000#3) (hrd : rdOf w = 0#5)
    (hop : opcodeOf w = 0b1110011#7) : encode (.sfenceVma (rs1Of w) (rs2Of w)) = w := by
  rw [encode, ← h7, ← h3, ← hrd, ← hop, joinFields_fields]

end Reassembly

/-- What a decoder answers for `w`, if it is an instruction, is one whose word is `w`. -/
def EncodesBack (w : Word) (answer : Except DecodeError Instr) : Prop := ∀ i, answer = .ok i → encode i = w

theorem EncodesBack.ok {w : Word} {i : Instr} (h : encode i = w) : EncodesBack w (.ok i) := by
  rintro _ ⟨⟩
  exact h

theorem EncodesBack.error {w : Word} {e : DecodeError} : EncodesBack w (.error e) := nofun

/-- One test of a decoder: each branch may use what the test found. -/
theorem EncodesBack.ite {w : Word} {c : Prop} [Decidable c] {yes no : Except DecodeError Instr}
    (hyes : c → EncodesBack w yes) (hno : ¬ c → EncodesBack w no) : EncodesBack w (if c then yes else no) := by
  by_cases hc : c
  · rw [if_pos hc]
    exact hyes hc
  · rw [if_neg hc]
    exact hno hc

section Branches
variable {w : Word}

theorem decodeLoad_encodesBack (hop : opcodeOf w = 0b0000011#7) : EncodesBack w (decodeLoad w) := by
  unfold decodeLoad
  repeat refine .ite (fun h3 => .ok (encodeI_of_fields h3 hop)) fun _ => ?_
  exact .error

theorem decodeStore_encodesBack (hop : opcodeOf w = 0b0100011#7) : EncodesBack w (decodeStore w) := by
  unfold decodeStore
  repeat refine .ite (fun h3 => .ok (encodeS_of_fields h3 hop)) fun _ => ?_
  exact .error

theorem decodeAtomic_encodesBack (hop : opcodeOf w = 0b0101111#7) : EncodesBack w (decodeAtomic w) := by
  unfold decodeAtomic
  refine .ite (fun _ => .error) fun hne => ?_
  have h3 : funct3Of w = 0b010#3 := not_not.1 hne
  refine .ite (fun h5 => .ite (fun hrs2 => .ok (encode_lrW_of_fields hrs2 h5 h3 hop)) fun _ => .error) fun _ => ?_
  repeat refine .ite (fun h5 => .ok (encodeAtomic_of_fields h5 h3 hop)) fun _ => ?_
  exact .error

theorem decodeFence_encodesBack (hop : opcodeOf w = 0b0001111#7) : EncodesBack w (decodeFence w) :=
  .ite (fun h3 => .ok (encode_fence_of_fields h3 hop)) fun _ => .error

theorem decodeSystem_encodesBack (hop : opcodeOf w = 0b1110011#7) : EncodesBack w (decodeSystem w) :=
  .ite (fun ⟨h3, h7, hrd⟩ => .ok (encode_sfenceVma_of_fields h7 h3 hrd hop)) fun _ => .error

theorem decodeWord_encodesBack (w : Word) : EncodesBack w (decodeWord w) :=
  .ite decodeLoad_encodesBack fun _ => .ite decodeStore_encodesBack fun _ => .ite decodeAtomic_encodesBack fun _ =>
    .ite decodeFence_encodesBack fun _ => .ite decodeSystem_encodesBack fun _ => .error

end Branches

/-- Settles O2: every branch of the decoder names the fields that its format is put together from. -/
theorem encodeInvertsDecode : Obligations.EncodeInvertsDecode := decodeWord_encodesBack

end Sys2Proof
end

section
/-! # O3 and O4: the opcode table
The and with a mask keeps the fields the mask names, so a word that matches a row is the encoding of an instruction of
that row, with the operands taken from the word. -/

namespace Sys2Proof

/-! ## What matching a row says of the fields (R78) -/

section Rows
open Laws
variable {w : Word} {f7 m7 : BitVec 7} {rs2 m2 rs1 m1 : Reg} {f3 m3 : BitVec 3} {rd md : Reg} {op mo : BitVec 7}
  {f5 : BitVec 5}

/-- A masked word has masked fields. -/
theorem fields_of_masked (h : w &&& joinFields m7 m2 m1 m3 md mo = joinFields f7 rs2 rs1 f3 rd op) :
    funct7Of w &&& m7 = f7 ∧ rs2Of w &&& m2 = rs2 ∧ funct3Of w &&& m3 = f3 ∧ rdOf w &&& md = rd ∧
      opcodeOf w &&& mo = op := by
  rw [← joinFields_fields w, joinFields_and] at h
  exact ⟨by simpa using congrArg funct7Of h, by simpa using congrArg rs2Of h, by simpa using congrArg funct3Of h,
    by simpa using congrArg rdOf h, by simpa using congrArg opcodeOf h⟩

/-- A mask of ones keeps its field. -/
theorem eq_of_and_allOnes {n : Nat} {x y : BitVec n} (h : x &&& BitVec.allOnes n = y) : x = y :=
  BitVec.and_allOnes.symm.trans h

/-- The rows of the loads, the stores and FENCE. -/
theorem fields_of_row (h : w &&& 0x0000707F#32 = joinFields 0#7 0#5 0#5 f3 0#5 op) :
    funct3Of w = f3 ∧ opcodeOf w = op := by
  rw [mask_funct3_opcode] at h
  obtain ⟨-, -, h3, -, hop⟩ := fields_of_masked h
  exact ⟨eq_of_and_allOnes h3, eq_of_and_allOnes hop⟩

theorem encodeI_of_row (h : w &&& 0x0000707F#32 = joinFields 0#7 0#5 0#5 f3 0#5 op) :
    encodeI (immIOf w) (rs1Of w) f3 (rdOf w) op = w := by
  obtain ⟨h3, hop⟩ := fields_of_row h
  exact encodeI_of_fields h3 hop

theorem encodeS_of_row (h : w &&& 0x0000707F#32 = joinFields 0#7 0#5 0#5 f3 0#5 op) :
    encodeS (immSOf w) (rs2Of w) (rs1Of w) f3 op = w := by
  obtain ⟨h3, hop⟩ := fields_of_row h
  exact encodeS_of_fields h3 hop

/-- The mask of the five bits of funct5 lets `aq` and `rl` go. -/
theorem upper_five_of_masked (h : (funct7Of w &&& 124#7) = f5 ++ 0#2) : funct5Of w = f5 := by
  have hmask : ∀ f7 : BitVec 7, (f7 &&& 124#7).extractLsb' 2 5 = f7.extractLsb' 2 5 := by decide
  rw [funct5Of, ← hmask, h]
  exact BitVec.extractLsb'_append_eq_left

/-- The rows of opcode `0101111`: they fix funct5 too, and that of LR.W the field rs2. -/
theorem fields_of_atomic_row (h : w &&& joinFields 124#7 m2 0#5 7#3 0#5 127#7 =
    joinFields (f5 ++ 0#2) rs2 0#5 0b010#3 0#5 0b0101111#7) :
    funct5Of w = f5 ∧ rs2Of w &&& m2 = rs2 ∧ funct3Of w = 0b010#3 ∧ opcodeOf w = 0b0101111#7 := by
  obtain ⟨h7, hrs2, h3, -, hop⟩ := fields_of_masked h
  exact ⟨upper_five_of_masked h7, hrs2, eq_of_and_allOnes h3, eq_of_and_allOnes hop⟩

theorem encodeAtomic_of_row (h : w &&& 0xF800707F#32 = joinFields (f5 ++ 0#2) 0#5 0#5 0b010#3 0#5 0b0101111#7) :
    encodeAtomic f5 (aqOf w) (rlOf w) (rs2Of w) (rs1Of w) (rdOf w) = w := by
  rw [mask_funct5] at h
  obtain ⟨h5, -, h3, hop⟩ := fields_of_atomic_row h
  exact encodeAtomic_of_fields h5 h3 hop

theorem encode_lrW_of_row (h : w &&& 0xF9F0707F#32 = 0x1000202F#32) :
    encode (.lrW (rdOf w) (rs1Of w) (aqOf w) (rlOf w)) = w := by
  obtain ⟨h5, hrs2, h3, hop⟩ := fields_of_atomic_row (m2 := 31#5) (rs2 := 0#5) (f5 := 0b00010#5) h
  exact encode_lrW_of_fields (eq_of_and_allOnes hrs2) h5 h3 hop

theorem encode_fence_of_row (h : w &&& 0x0000707F#32 = joinFields 0#7 0#5 0#5 0b000#3 0#5 0b0001111#7) :
    encode (.fence (fmOf w) (predOf w) (succOf w) (rs1Of w) (rdOf w)) = w := by
  obtain ⟨h3, hop⟩ := fields_of_row h
  exact encode_fence_of_fields h3 hop

/-- The row of SFENCE.VMA fixes every field but rs1 and rs2. -/
theorem encode_sfenceVma_of_row (h : w &&& 0xFE007FFF#32 = 0x12000073#32) :
    encode (.sfenceVma (rs1Of w) (rs2Of w)) = w := by
  have hmasked : w &&& joinFields 127#7 0#5 0#5 7#3 31#5 127#7 =
      joinFields 0b0001001#7 0#5 0#5 0b000#3 0#5 0b1110011#7 := h
  obtain ⟨h7, -, h3, hrd, hop⟩ := fields_of_masked hmasked
  exact encode_sfenceVma_of_fields (eq_of_and_allOnes h7) (eq_of_and_allOnes h3) (eq_of_and_allOnes hrd)
    (eq_of_and_allOnes hop)

end Rows

/-- A word that matches a row is the word of an instruction of the row. -/
theorem exists_encode_of_row {w : Word} {i : Instr} (h : w &&& (tableRow i).2 = (tableRow i).1) :
    ∃ j, encode j = w ∧ tableRow j = tableRow i := by
  cases i with
  | lb => exact ⟨.lb _ _ _, encodeI_of_row h, rfl⟩
  | lh => exact ⟨.lh _ _ _, encodeI_of_row h, rfl⟩
  | lw => exact ⟨.lw _ _ _, encodeI_of_row h, rfl⟩
  | lbu => exact ⟨.lbu _ _ _, encodeI_of_row h, rfl⟩
  | lhu => exact ⟨.lhu _ _ _, encodeI_of_row h, rfl⟩
  | sb => exact ⟨.sb _ _ _, encodeS_of_row h, rfl⟩
  | sh => exact ⟨.sh _ _ _, encodeS_of_row h, rfl⟩
  | sw => exact ⟨.sw _ _ _, encodeS_of_row h, rfl⟩
  | lrW => exact ⟨.lrW _ _ _ _, encode_lrW_of_row h, rfl⟩
  | scW => exact ⟨.scW _ _ _ _ _, encodeAtomic_of_row h, rfl⟩
  | amoswapW => exact ⟨.amoswapW _ _ _ _ _, encodeAtomic_of_row h, rfl⟩
  | amoaddW => exact ⟨.amoaddW _ _ _ _ _, encodeAtomic_of_row h, rfl⟩
  | amoxorW => exact ⟨.amoxorW _ _ _ _ _, encodeAtomic_of_row h, rfl⟩
  | amoandW => exact ⟨.amoandW _ _ _ _ _, encodeAtomic_of_row h, rfl⟩
  | amoorW => exact ⟨.amoorW _ _ _ _ _, encodeAtomic_of_row h, rfl⟩
  | amominW => exact ⟨.amominW _ _ _ _ _, encodeAtomic_of_row h, rfl⟩
  | amomaxW => exact ⟨.amomaxW _ _ _ _ _, encodeAtomic_of_row h, rfl⟩
  | amominuW => exact ⟨.amominuW _ _ _ _ _, encodeAtomic_of_row h, rfl⟩
  | amomaxuW => exact ⟨.amomaxuW _ _ _ _ _, encodeAtomic_of_row h, rfl⟩
  | fence => exact ⟨.fence _ _ _ _ _, encode_fence_of_row h, rfl⟩
  | sfenceVma => exact ⟨.sfenceVma _ _, encode_sfenceVma_of_row h, rfl⟩

/-! ## The row of a decoded word -/

/-- The word of every instruction matches the instruction's own row. -/
theorem encode_matches_row (i : Instr) : encode i &&& (tableRow i).2 = (tableRow i).1 := by
  cases i with
  | lb => exact Laws.EncodeMatchesRow.lb ..
  | lh => exact Laws.EncodeMatchesRow.lh ..
  | lw => exact Laws.EncodeMatchesRow.lw ..
  | lbu => exact Laws.EncodeMatchesRow.lbu ..
  | lhu => exact Laws.EncodeMatchesRow.lhu ..
  | sb => exact Laws.EncodeMatchesRow.sb ..
  | sh => exact Laws.EncodeMatchesRow.sh ..
  | sw => exact Laws.EncodeMatchesRow.sw ..
  | lrW => exact Laws.EncodeMatchesRow.lrW ..
  | scW => exact Laws.EncodeMatchesRow.scW ..
  | amoswapW => exact Laws.EncodeMatchesRow.amoswapW ..
  | amoaddW => exact Laws.EncodeMatchesRow.amoaddW ..
  | amoxorW => exact Laws.EncodeMatchesRow.amoxorW ..
  | amoandW => exact Laws.EncodeMatchesRow.amoandW ..
  | amoorW => exact Laws.EncodeMatchesRow.amoorW ..
  | amominW => exact Laws.EncodeMatchesRow.amominW ..
  | amomaxW => exact Laws.EncodeMatchesRow.amomaxW ..
  | amominuW => exact Laws.EncodeMatchesRow.amominuW ..
  | amomaxuW => exact Laws.EncodeMatchesRow.amomaxuW ..
  | fence => exact Laws.EncodeMatchesRow.fence ..
  | sfenceVma => exact Laws.EncodeMatchesRow.sfenceVma ..

/-- A word that decodes matches the row of the instruction it decodes to. -/
theorem matches_row_of_decodeWord {w : Word} {j : Instr} (h : decodeWord w = .ok j) :
    w &&& (tableRow j).2 = (tableRow j).1 := by
  rw [← decodeWord_encodesBack w j h]
  exact encode_matches_row j

/-- A word that matches a row decodes to an instruction of the row. -/
theorem decodeWord_of_row {w : Word} {i : Instr} (h : w &&& (tableRow i).2 = (tableRow i).1) :
    ∃ j, decodeWord w = .ok j ∧ tableRow j = tableRow i := by
  obtain ⟨j, rfl, hrow⟩ := exists_encode_of_row h
  exact ⟨j, decodeWord_encode j, hrow⟩

/-- Settles O3: both directions go through the encoder, whose words are exactly those that match. -/
theorem decodeFollowsTheTable : Obligations.DecodeFollowsTheTable := fun _ _ =>
  ⟨decodeWord_of_row, fun ⟨_, hdecode, hrow⟩ => hrow ▸ matches_row_of_decodeWord hdecode⟩

/-- Settles O4: the decoder evaluated on each of the seven words. -/
theorem writtenWordsDecode : Obligations.WrittenWordsDecode := by
  unfold Obligations.WrittenWordsDecode
  decide

end Sys2Proof
end

section
/-! # O5: the fields of a PTE -/

namespace Sys2Proof.Machine

/-- Two bit strings side by side, as a number. -/
theorem toNat_append_eq_add {m n : Nat} (x : BitVec m) (y : BitVec n) :
    (x ++ y).toNat = x.toNat * 2 ^ n + y.toNat := by
  rw [BitVec.toNat_append, ← Nat.shiftLeft_add_eq_or_of_lt y.isLt, Nat.shiftLeft_eq]

/-- The sum of R84. -/
theorem makePte_toNat (ppn : Ppn) (rsw : BitVec 2) (d a g u x w r v : Bool) :
    (makePte ppn rsw d a g u x w r v).toNat =
      ppn.toNat * 1024 + rsw.toNat * 256 + d.toNat * 128 + a.toNat * 64 + g.toNat * 32 + u.toNat * 16 + x.toNat * 8 +
        w.toNat * 4 + r.toNat * 2 + v.toNat := by
  refine (toNat_append_eq_add ..).trans ?_
  simp only [toNat_append_eq_add, BitVec.toNat_ofBool]
  omega

/-- A bit of a word is a binary digit of its number. -/
theorem getLsbD_eq_of_digit {pte : Word} {place : Nat} {b : Bool} (h : pte.toNat / 2 ^ place % 2 = b.toNat) :
    pte.getLsbD place = b := by
  rw [← BitVec.testBit_toNat, Nat.testBit_eq_decide_div_mod_eq, h]
  cases b <;> rfl

/-- Settles O5: the summands of R84 do not overlap, so each field is a digit of the sum. -/
theorem makePteComposesFields : Obligations.MakePteComposesFields := by
  intro ppn rsw d a g u x w r v
  have hsum := makePte_toNat ppn rsw d a g u x w r v
  have hd := d.toNat_lt
  have ha := a.toNat_lt
  have hg := g.toNat_lt
  have hu := u.toNat_lt
  have hx := x.toNat_lt
  have hw := w.toNat_lt
  have hr := r.toNat_lt
  have hv := v.toNat_lt
  have hppn : ptePpn (makePte ppn rsw d a g u x w r v) = ppn := by
    apply BitVec.eq_of_toNat_eq
    rw [ptePpn, BitVec.extractLsb'_toNat, Nat.shiftRight_eq_div_pow]
    omega
  have hrsw : pteRsw (makePte ppn rsw d a g u x w r v) = rsw := by
    apply BitVec.eq_of_toNat_eq
    rw [pteRsw, BitVec.extractLsb'_toNat, Nat.shiftRight_eq_div_pow]
    omega
  refine ⟨hsum, hppn, hrsw, ?_, ?_, ?_, ?_, ?_, ?_, ?_, ?_⟩ <;> exact getLsbD_eq_of_digit (by omega)

end Sys2Proof.Machine
end

section
/-! # O10: a fetched word that is no instruction -/

namespace Sys2Proof.Machine

/-- A step that fetches runs the word at the address the fetch is granted (R140). -/
theorem stepAnswers_of_granted_fetch {s s1 : State} {a : Nat} (hq : ∀ q, s.pending = some q → q.job = none)
    (hpc : s.pc.toNat % 4 = 0) (hg : s.beforeStep.grant none s.pc 4 .fetch true true = .granted a s1) :
    s.StepAnswers (runWord exec (physRead s1.mem a 4) s1) := by
  obtain ⟨-, -, hpc', -, -, hpending⟩ := beforeStep_fields s
  apply stepAnswers_of
  rw [hartStep_of_fetch (hpending ▸ hq), State.fetchAndRun, hpc', if_neg (not_not.2 hpc), hg, andThen_granted]

/-- A word that matches no row does not decode. -/
theorem decodeWord_error_of_no_row {w : Word} (h : ∀ i, w &&& (tableRow i).2 ≠ (tableRow i).1) :
    ∃ e, decodeWord w = .error e := by
  cases hd : decodeWord w with
  | ok i => exact absurd (matches_row_of_decodeWord hd) (h i)
  | error e => exact ⟨e, rfl⟩

/-- A word that does not decode is refused under one of two names. -/
theorem runWord_error {w : Word} {e : DecodeError} (h : decodeWord w = .error e) (run : Instr → State → Outcome)
    (s : State) : runWord run w s = .refused (.notInTable w) ∨ runWord run w s = .refused (.reservedLr w) := by
  simp only [runWord, h]
  cases e with
  | truncated => exact .inl rfl
  | notInTable => exact .inl rfl
  | reservedLr => exact .inr rfl

/-- Settles O10: the word does not decode, and the step is the refusal of it. -/
theorem stepRefusesOtherWords : Obligations.StepRefusesOtherWords := by
  intro s a s1 hq hpc hg hrow
  obtain ⟨e, he⟩ := decodeWord_error_of_no_row hrow
  have hstep := stepAnswers_of_granted_fetch hq hpc hg
  rcases runWord_error he exec s1 with h | h <;> rw [h] at hstep
  · exact .inl hstep
  · exact .inr hstep

end Sys2Proof.Machine
end

section
/-! # O25 and O60: what user mode reaches
An access granted under Sv32 goes through the leaf that its lookup finds, and that leaf grants it. So user mode reaches
no page but those with U = 1, and changes none but those with W = 1 too. -/

namespace Sys2Proof.Machine

/-- A state with nothing pending is itself with its pending access taken away. -/
theorem without_pending {s : State} (h : s.pending = none) : { s with pending := none } = s := by
  cases s
  cases h
  rfl

/-- What a new access under Sv32 that is granted went through: a leaf of its lookup that grants it, and from which its
address comes (R40, R108). -/
theorem granted_leaf {s s1 : State} {job : Option Instr} {va : Word} {n : Nat} {t : AccessType} {dirty checked : Bool}
    {a : Nat} (hmode : s.satp.mode = .sv32) (hnone : s.pending = none)
    (hg : s.grant job va n t dirty checked = .granted a s1) :
    ∃ p lf, s.mode.privilege = some p ∧ s.lookup va t p dirty = .leaf lf ∧ s.leafPermits t p lf = true ∧
      a = machineAddr s.cfg (leafAddr lf.level lf.pte va) := by
  obtain ⟨p, pa, l, hpriv, rfl, -, -, htr, -⟩ := grant_granted hg
  rw [without_pending hnone, hnone] at htr
  rcases htr with htr | hpending
  · rcases translate_done htr with ⟨hbare, -⟩ | ⟨-, lf, hlookup, hperm, -, rfl⟩
    · rw [hmode] at hbare
      cases hbare
    · exact ⟨p, lf, hpriv, hlookup, hperm, rfl⟩
  · cases hpending

/-- A leaf that grants an access passes each of its checks. -/
theorem leafPermits_iff {s : State} {t : AccessType} {p : Privilege} {lf : Leaf} : s.leafPermits t p lf = true ↔
    rwxPermits s.mxr t lf.pte = true ∧ userPermits s.sum t p lf.pte = true ∧
      (lf.level ≠ 0 → ppn0 (ptePpn lf.pte) = 0#10) := by
  simp [State.leafPermits, and_assoc, Decidable.or_iff_not_imp_left]

/-- Settles O25: the leaf that grants the access passes the U check of user mode. -/
theorem userAccessNeedsUserPage : Obligations.UserAccessNeedsUserPage := by
  intro s job va n t dirty checked a s1 huser hmode hnone hg
  obtain ⟨p, lf, hpriv, hlookup, hperm, ha⟩ := granted_leaf hmode hnone hg
  rw [huser] at hpriv
  cases hpriv
  obtain ⟨-, hkind, -⟩ := lookup_leaf hlookup
  obtain ⟨-, hU, -⟩ := leafPermits_iff.1 hperm
  exact ⟨lf, hlookup, fun hc => (lookup_of_no_cache hc ..).symm.trans hlookup, hkind, hU, ha⟩

/-! ## A step in user mode -/

/-- Under scheme `Fault` and without a cache the hart does nothing of its own accord (R122, R127). -/
theorem speculate_schemeFault {s : State} (hs : s.cfg.adScheme = .fault) (hc : s.cfg.translationCache = false) :
    s.speculate = s := by
  simp [State.speculate, hs, hc]

theorem beforeStep_schemeFault {s : State} (hs : s.cfg.adScheme = .fault) (hc : s.cfg.translationCache = false) :
    s.beforeStep = { s with free := s.free + 1 } := by
  rw [State.beforeStep, speculate_schemeFault hs hc]

/-- Where nothing is pending, an instruction runs in a state that is the one before the step but for what the hart did of
its own accord (R140). -/
theorem State.Executes.fields {s c : State} {i : Instr} (h : s.Executes i c) (hnone : s.pending = none) :
    c.cfg = s.cfg ∧ c.mode = s.mode ∧ c.satp = s.satp ∧ c.mem = s.beforeStep.mem ∧ c.pending = none := by
  cases h with
  | resumed va pa _ hq =>
    rw [hnone] at hq
    cases hq
  | fetched a _ _ _ hg =>
    obtain ⟨hcfg, -, -, hmode, hsatp, -⟩ := beforeStep_fields s
    obtain ⟨hcfg', -, -, hmode', hsatp', hmem', -, -, hpending'⟩ := granted_fields hg
    exact ⟨hcfg'.trans hcfg, hmode'.trans hmode, hsatp'.trans hsatp, hmem', hpending'⟩

/-- What the walk finds depends on the parameters, `satp` and memory alone (R93, R114). -/
theorem walk_congr {s c : State} (hcfg : c.cfg = s.cfg) (hsatp : c.satp = s.satp) (hmem : c.mem = s.mem) (va : Word) :
    c.walk va = s.walk va := by
  simp only [State.walk, hcfg, hsatp, hmem]

/-- The byte lies in the physical page of a leaf with U = 1 and W = 1 that the walk finds for some address. -/
def State.InUserWritablePage (s : State) (x : Nat) : Prop :=
  ∃ va lf, s.walk va = .leaf lf ∧ pteU lf.pte = true ∧ pteW lf.pte = true ∧
    x / 4096 = (leafAddr lf.level lf.pte va).toNat / 4096

/-- The bytes of an access granted at an address lie in the page of that address (R48). -/
theorem same_page_of_granted {pa : PhysAddr} {va : Word} {n x : Nat} (hoff : pa.extractLsb' 0 12 = pageOffset va)
    (hpage : (pageOffset va).toNat + n ≤ pageSize) (hlo : pa.toNat ≤ x) (hhi : x < pa.toNat + n) :
    x / 4096 = pa.toNat / 4096 := by
  have hmod : pa.toNat % 4096 = (pageOffset va).toNat := by
    rw [← hoff]
    simp
  rw [pageSize] at hpage
  omega

/-- A store that user mode is granted on a walking hart goes to a page with U = 1 and W = 1 (R102, R103). -/
theorem granted_store_inUserWritablePage {c s1 : State} {job : Option Instr} {va : Word} {n a : Nat}
    {dirty checked : Bool} (huser : c.mode = .user) (hwalks : c.Walks) (hnone : c.pending = none)
    (hg : c.grant job va n .store dirty checked = .granted a s1) {x : Nat} (hlo : a ≤ x) (hhi : x < a + n) :
    c.InUserWritablePage x := by
  obtain ⟨hsv32, hc⟩ := hwalks
  obtain ⟨p, lf, hpriv, hlookup, hperm, rfl⟩ := granted_leaf hsv32 hnone hg
  obtain ⟨-, -, -, -, -, -, -, -, hpage, -⟩ := grant_granted hg
  rw [huser] at hpriv
  cases hpriv
  obtain ⟨hW, hU, -⟩ := leafPermits_iff.1 hperm
  rw [machineAddr_eq] at hlo hhi
  exact ⟨va, lf, (lookup_of_no_cache hc ..).symm.trans hlookup, hU, hW,
    same_page_of_granted (leafAddr_offset ..) hpage hlo hhi⟩

/-- An instruction run to its end by user mode on a walking hart changes memory in such pages alone. -/
theorem Completed.changes_inUserWritablePage {i : Instr} {c t : State} (h : Completed i c t) (hm : c.mem.wf = true)
    (huser : c.mode = .user) (hwalks : c.Walks) (hnone : c.pending = none) {x : Nat}
    (hx : t.mem.read x ≠ c.mem.read x) : c.InUserWritablePage x := by
  rcases h.memory with hmem | ⟨acc, a, v, s1, -, -, htype, -, hg, hmem⟩
  · exact absurd (by rw [hmem]) hx
  · have hin : a ≤ x ∧ x < a + acc.size := by
      by_contra hout
      exact hx (by rw [hmem, read_physWrite_outside hm v (by omega)])
    rw [State.grantOf, htype] at hg
    exact granted_store_inUserWritablePage huser hwalks hnone hg hin.1 hin.2

/-- Settles O60: under scheme `Fault` a step of a hart without a cache changes memory by the store of its instruction
alone, and the page tables that store is translated by are those before the step. -/
theorem userStepsWriteOnlyUserPages : Obligations.UserStepsWriteOnlyUserPages := by
  intro s t x hm huser ⟨hsv32, hc⟩ hs hnone h
  have hbefore := beforeStep_schemeFault hs hc
  show t.mem.read x ≠ s.mem.read x → s.InUserWritablePage x
  suffices t.cfg = s.cfg ∧ (t.mem.read x ≠ s.mem.read x → s.InUserWritablePage x) from this.2
  refine step_induction (P := fun c => c.cfg = s.cfg ∧ (c.mem.read x ≠ s.mem.read x → s.InUserWritablePage x)) h
    ?before ?refill ?trap ?update ?done
  case before => simp [hbefore]
  case refill => exact fun c l _ hP => hP
  case trap => exact fun c k v hP => by simpa using hP
  case update =>
    rintro c t job va lf d hu ⟨hcfg, -⟩
    have hscheme := hu.scheme
    rw [hcfg, hs] at hscheme
    cases hscheme
  case done =>
    rintro i c t hrun hdone ⟨hcfg, -⟩
    obtain ⟨-, hmode, hsatp, hmem, hpending⟩ := hrun.fields hnone
    have hmem' : c.mem = s.mem := by rw [hmem, hbefore]
    refine ⟨hdone.sameControl.1.trans hcfg, fun hx => ?_⟩
    rw [← hmem'] at hx hm
    obtain ⟨va, lf, hwalk, hpage⟩ := hdone.changes_inUserWritablePage hm (hmode.trans huser)
      ⟨hsatp ▸ hsv32, hcfg ▸ hc⟩ hpending hx
    exact ⟨va, lf, (walk_congr hcfg hsatp hmem' va).symm.trans hwalk, hpage⟩

end Sys2Proof.Machine
end

section
/-! # O14 to O17: PTEs at which the walk fails
The walk fails at an invalid PTE that it reads, and each of the four statements is about a PTE of that kind. -/

namespace Sys2Proof.Machine

/-! ## What a PTE is, by its bits (R72, R96, R97, R99, R112) -/

section Kinds
variable {c : Config} {level : Nat} {pte : Word}

theorem kind_of_not_valid (hV : pteV pte = false) : pteKind c level pte = .invalid := by
  simp [pteKind, hV]

theorem kind_of_reserved_permissions (hW : pteW pte = true) (hR : pteR pte = false) :
    pteKind c level pte = .invalid := by
  simp [pteKind, hW, hR]

theorem isPointer_iff : isPointer pte = true ↔
    pteV pte = true ∧ pteR pte = false ∧ pteW pte = false ∧ pteX pte = false := by
  simp [isPointer, and_assoc]

/-- A pointer goes on at every level but the last, unless its reserved bits forbid it. -/
theorem kind_of_isPointer (h : isPointer pte = true) : pteKind c level pte =
    if (c.nonleafDau = .fault ∧ (pteD pte = true ∨ pteA pte = true ∨ pteU pte = true)) ∨ level = 0 then .invalid
    else .pointer := by
  obtain ⟨hV, hR, hW, hX⟩ := isPointer_iff.1 h
  have hreserved : (decide (c.nonleafDau = .fault) && (pteD pte || pteA pte || pteU pte)) =
      decide (c.nonleafDau = .fault ∧ (pteD pte = true ∨ pteA pte = true ∨ pteU pte = true)) := by
    simp [Bool.or_assoc]
  rw [pteKind, hV, hR, hW, hX, hreserved]
  by_cases hdau : c.nonleafDau = .fault ∧ (pteD pte = true ∨ pteA pte = true ∨ pteU pte = true)
  · simp only [hdau]
    rfl
  · simp [hdau]

end Kinds

/-! ## The translation at a PTE that the walk reads -/

section Reads
variable {s : State} {va : Word} {level : Nat} {addr : PhysAddr} (t : AccessType) (p : Privilege) (dirty : Bool)

theorem translateByWalk_of_invalid (hmode : s.satp.mode = .sv32) (hr : s.WalkReads va level addr)
    (hk : pteKind s.cfg level (s.pteAt addr) = .invalid) : s.translateByWalk va t p dirty = .pageFault := by
  rw [translateByWalk_sv32 hmode, (walk_of_reads hr).1 hk, useWalk_pageFault]

/-- At a leaf the translation is what the leaf answers; whether the mapping is global plays no part (R109). -/
theorem translateByWalk_of_leaf (hmode : s.satp.mode = .sv32) (hr : s.WalkReads va level addr)
    (hk : pteKind s.cfg level (s.pteAt addr) = .leaf) (global : Bool) :
    s.translateByWalk va t p dirty = s.useLeaf va t p dirty ⟨level, addr, s.pteAt addr, global⟩ := by
  obtain ⟨g, hwalk⟩ := (walk_of_reads hr).2 hk
  rw [translateByWalk_sv32 hmode, hwalk, useWalk_leaf]
  rfl

end Reads

/-- Settles O14: a PTE that is not valid is invalid, whatever else it holds. -/
theorem invalidPteRaises : Obligations.InvalidPteRaises := fun _ _ _ _ t p dirty hmode hr hV =>
  translateByWalk_of_invalid t p dirty hmode hr (kind_of_not_valid hV)

/-- Settles O15: a PTE with the reserved permissions is invalid at both levels. -/
theorem reservedPermissionsRaise : Obligations.ReservedPermissionsRaise :=
  fun _ _ _ _ t p dirty hmode hr _ hW hR =>
    translateByWalk_of_invalid t p dirty hmode hr (kind_of_reserved_permissions hW hR)

/-- Settles O16: a pointer of the last level is invalid. -/
theorem lastLevelPointerRaises : Obligations.LastLevelPointerRaises := fun _ _ _ t p dirty hmode hr hptr =>
  translateByWalk_of_invalid t p dirty hmode hr (by simp [kind_of_isPointer hptr])

/-- The mask `0xFFFFFF2F` clears D, A and U, so a pointer stays one. -/
theorem isPointer_without_dau {pte : Word} (h : isPointer pte = true) : isPointer (pte &&& 0xFFFFFF2F#32) = true := by
  rw [isPointer_iff] at h ⊢
  simpa [pteV, pteR, pteW, pteX] using h

/-- Settles O17: under `Ignore` the kind of a pointer does not depend on D, A and U; under `Fault` one of them makes it
invalid. -/
theorem pointerReservedBitsFollowParameter : Obligations.PointerReservedBitsFollowParameter := by
  refine ⟨fun c level pte hignore hptr => ⟨?_, fun hlevel => ?_⟩,
    fun s va level addr t p dirty hmode hfault hr hptr hdau => translateByWalk_of_invalid t p dirty hmode hr ?_⟩
  · simp [kind_of_isPointer hptr, kind_of_isPointer (isPointer_without_dau hptr), hignore]
  · simp [kind_of_isPointer hptr, hignore, hlevel]
  · rw [kind_of_isPointer hptr, if_pos (.inl ⟨hfault, hdau⟩)]

end Sys2Proof.Machine
end

section
/-! # O18, O19 and O21: what a leaf grants, and where it leads
A leaf with the bits an access needs answers its address if it passes the checks of R100 to R106, else a page fault. The
tables of R116 and R117 are those checks with `MXR = 0`. -/

namespace Sys2Proof.Machine

theorem useLeaf_denied {s : State} {t : AccessType} {p : Privilege} {lf : Leaf} (h : s.leafPermits t p lf = false)
    (va : Word) (dirty : Bool) : s.useLeaf va t p dirty lf = .pageFault := by
  simp [State.useLeaf, h]

/-- A leaf that has the bits the access needs decides by its checks alone. -/
theorem useLeaf_of_bits {t : AccessType} {dirty : Bool} {lf : Leaf} (hbits : needsUpdate t dirty lf.pte = false)
    (s : State) (va : Word) (p : Privilege) : s.useLeaf va t p dirty lf =
      if s.leafPermits t p lf = true then .done (leafAddr lf.level lf.pte va) else .pageFault := by
  by_cases hperm : s.leafPermits t p lf = true
  · rw [if_pos hperm, useLeaf_done hperm hbits]
  · rw [if_neg hperm, useLeaf_denied (Bool.eq_false_iff.2 hperm)]

/-- The table of R116 is the U check. -/
theorem userPermits_eq_userGrants (sum : Bool) (t : AccessType) (p : Privilege) (pte : Word) :
    userPermits sum t p pte = userGrants p (pteU pte) t sum := by
  cases p <;> cases hU : pteU pte <;> cases t <;> simp [userPermits, userGrants, hU]

/-- The table of R117 grants nothing of the reserved permissions (R97). -/
theorem xwrGrants_reserved (x : Bool) (t : AccessType) : xwrGrants x true false t = false := by
  cases x <;> rfl

/-- The table of R117 is the R, W and X checks with `MXR = 0`, for what the walk takes for a leaf. -/
theorem rwxPermits_eq_xwrGrants {c : Config} {level : Nat} {pte : Word} (h : pteKind c level pte = .leaf)
    (t : AccessType) : rwxPermits false t pte = xwrGrants (pteX pte) (pteW pte) (pteR pte) t := by
  obtain ⟨-, hsome, hwrite⟩ := kind_leaf_iff.1 h
  revert hsome hwrite
  cases t <;> cases hX : pteX pte <;> cases hW : pteW pte <;> cases hR : pteR pte <;>
    simp [rwxPermits, xwrGrants, hX, hW, hR]

/-- The checks of an aligned leaf with `MXR = 0` are the two tables. -/
theorem leafPermits_eq_tables {s : State} (hmxr : s.mxr = false) {t : AccessType} {p : Privilege} {lf : Leaf}
    (hk : pteKind s.cfg lf.level lf.pte = .leaf) (hal : lf.level ≠ 0 → ppn0 (ptePpn lf.pte) = 0#10) :
    s.leafPermits t p lf =
      (xwrGrants (pteX lf.pte) (pteW lf.pte) (pteR lf.pte) t && userGrants p (pteU lf.pte) t s.sum) := by
  rw [Bool.eq_iff_iff, leafPermits_iff, hmxr, rwxPermits_eq_xwrGrants hk, userPermits_eq_userGrants, Bool.and_eq_true]
  exact ⟨fun ⟨hxwr, huser, _⟩ => ⟨hxwr, huser⟩, fun ⟨hxwr, huser⟩ => ⟨hxwr, huser, hal⟩⟩

/-- The two tables together: the translation through an aligned leaf that has the bits the access needs. -/
theorem translateByWalk_by_tables {s : State} {va : Word} {level : Nat} {addr : PhysAddr} {t : AccessType}
    {p : Privilege} (hmode : s.satp.mode = .sv32) (hmxr : s.mxr = false) (hr : s.WalkReads va level addr)
    (hleaf : isLeaf (s.pteAt addr) = true) (hA : pteA (s.pteAt addr) = true)
    (hD : t = .store → pteD (s.pteAt addr) = true) (hal : level ≠ 0 → ppn0 (ptePpn (s.pteAt addr)) = 0#10) :
    s.translateByWalk va t p true =
      if (xwrGrants (pteX (s.pteAt addr)) (pteW (s.pteAt addr)) (pteR (s.pteAt addr)) t &&
        userGrants p (pteU (s.pteAt addr)) t s.sum) = true
      then .done (leafAddr level (s.pteAt addr) va) else .pageFault := by
  rcases kind_of_isLeaf s.cfg level hleaf with hk | ⟨hk, hR, hW⟩
  · have hbits : needsUpdate t true (s.pteAt addr) = false := needsUpdate_eq_false_iff.2 ⟨hA, fun ht _ => hD ht⟩
    have hused := useLeaf_of_bits (lf := ⟨level, addr, s.pteAt addr, false⟩) hbits s va p
    have htables := leafPermits_eq_tables hmxr (t := t) (p := p) (lf := ⟨level, addr, s.pteAt addr, false⟩) hk hal
    rw [translateByWalk_of_leaf t p true hmode hr hk false, hused, htables]
  · rw [translateByWalk_of_invalid t p true hmode hr hk, hR, hW, xwrGrants_reserved]
    simp

/-- Settles O18: the U check passes, so the table of R117 decides. -/
theorem leafPermissionTable : Obligations.LeafPermissionTable := by
  intro s va level addr t p hmode hmxr hr hleaf hA hD hal huser
  rw [translateByWalk_by_tables hmode hmxr hr hleaf hA hD hal]
  simp [huser]

/-- Settles O19: the R, W and X checks pass, so the table of R116 decides. -/
theorem userBitTable : Obligations.UserBitTable := by
  intro s va level addr t p hmode hmxr hr hleaf hA hD hal hxwr
  rw [translateByWalk_by_tables hmode hmxr hr hleaf hA hD hal]
  simp [hxwr]

/-- A page number is its upper twelve and lower ten bits (R35). -/
theorem ppn_toNat_eq (ppn : Ppn) : ppn.toNat = (ppn1 ppn).toNat * 1024 + (ppn0 ppn).toNat := by
  have hlt := ppn.isLt
  simp only [ppn1, ppn0, BitVec.extractLsb'_toNat, Nat.shiftRight_eq_div_pow]
  omega

/-- A translation that answers an address at a leaf which the walk reads: the leaf grants the access and gives the
address (R108). -/
theorem leaf_of_translateByWalk_done {s : State} {va : Word} {level : Nat} {addr : PhysAddr} {t : AccessType}
    {p : Privilege} {dirty : Bool} {pa : PhysAddr} (hmode : s.satp.mode = .sv32) (hr : s.WalkReads va level addr)
    (hleaf : isLeaf (s.pteAt addr) = true) (h : s.translateByWalk va t p dirty = .done pa) :
    pa = leafAddr level (s.pteAt addr) va ∧ (level ≠ 0 → ppn0 (ptePpn (s.pteAt addr)) = 0#10) := by
  rcases kind_of_isLeaf s.cfg level hleaf with hk | ⟨hk, -⟩
  · rw [translateByWalk_of_leaf t p dirty hmode hr hk false] at h
    rcases useLeaf_cases s va t p dirty ⟨level, addr, s.pteAt addr, false⟩ with
      h' | h' | ⟨h', hperm, -⟩ | ⟨h', -⟩ <;> rw [h'] at h <;> cases h
    exact ⟨rfl, (leafPermits_iff.1 hperm).2.2⟩
  · rw [translateByWalk_of_invalid t p dirty hmode hr hk] at h
    cases h

/-- Settles O21: a megapage that grants an access has `PPN[0] = 0`, which makes the two forms of its address equal. -/
theorem physicalAddressOfLeaf : Obligations.PhysicalAddressOfLeaf := by
  intro s va level addr t p dirty pa hmode hr hleaf h
  obtain ⟨rfl, hal⟩ := leaf_of_translateByWalk_done hmode hr hleaf h
  rw [leafAddr_toNat]
  refine ⟨fun h0 => if_pos h0, fun h1 => ?_⟩
  have hlevel : level ≠ 0 := by omega
  rw [if_neg hlevel, ppn_toNat_eq, hal hlevel]
  exact ⟨rfl, by simp only [BitVec.toNat_ofNat]; omega⟩

end Sys2Proof.Machine
end

section
/-! # O20, O22, O23 and O24: accesses that a leaf denies
A leaf that the walk reads and that denies an access makes it a page fault of the access's own type, which the fetch or
the instruction takes. The four statements name one check each that denies it. -/

namespace Sys2Proof.Machine

/-! ## The check that denies -/

section Denied
variable {s : State} {t : AccessType} {p : Privilege} {lf : Leaf}

theorem leafPermits_false_of_rwx (h : rwxPermits s.mxr t lf.pte = false) : s.leafPermits t p lf = false :=
  Bool.eq_false_iff.2 fun hperm => Bool.eq_false_iff.1 h (leafPermits_iff.1 hperm).1

theorem leafPermits_false_of_misaligned (hlevel : lf.level ≠ 0) (h : ppn0 (ptePpn lf.pte) ≠ 0#10) :
    s.leafPermits t p lf = false :=
  Bool.eq_false_iff.2 fun hperm => h ((leafPermits_iff.1 hperm).2.2 hlevel)

end Denied

/-! ## From the walk to the exception -/

section Faults
variable {s : State} {va : Word} {level n : Nat} {addr : PhysAddr} {t : AccessType} {p : Privilege} {dirty : Bool}

/-- A leaf that the walk reads and that denies the access fails the translation. -/
theorem translateByWalk_of_denied (hmode : s.satp.mode = .sv32) (hr : s.WalkReads va level addr)
    (hleaf : isLeaf (s.pteAt addr) = true)
    (hdenied : s.leafPermits t p ⟨level, addr, s.pteAt addr, false⟩ = false) :
    s.translateByWalk va t p dirty = .pageFault := by
  rcases kind_of_isLeaf s.cfg level hleaf with hk | ⟨hk, -⟩
  · rw [translateByWalk_of_leaf t p dirty hmode hr hk false, useLeaf_denied hdenied]
  · exact translateByWalk_of_invalid t p dirty hmode hr hk

/-- A page fault of the translation is one of the access, in the state before (R115). -/
theorem grant_of_translate_pageFault (hatt : s.Attempts va n p) (h : s.translate va t p dirty = .pageFault)
    (job : Option Instr) (checked : Bool) : s.grant job va n t dirty checked = .trap (pageFaultOf t) s := by
  rw [grant_of_attempts hatt, State.grantFresh, h]

/-- On a walking hart an access that such a leaf denies is the page fault of its type. -/
theorem grant_of_denied (hwalks : s.Walks) (hatt : s.Attempts va n p) (hr : s.WalkReads va level addr)
    (hleaf : isLeaf (s.pteAt addr) = true)
    (hdenied : s.leafPermits t p ⟨level, addr, s.pteAt addr, false⟩ = false) (job : Option Instr) (checked : Bool) :
    s.grant job va n t dirty checked = .trap (pageFaultOf t) s := by
  refine grant_of_translate_pageFault hatt ?_ job checked
  rw [translate_of_walks hwalks, translateByWalk_of_denied hwalks.1 hr hleaf hdenied]

end Faults

/-- An exception of its access is what an instruction takes, with the effective address. -/
theorem exec_of_grant_trap {s s1 : State} {i : Instr} {a : Access} {k : TrapKind} (ha : s.accessOf i = some a)
    (hw : Instr.wellFormed s.cfg i = true) (hg : s.grantOf i a = .trap k s1) :
    exec i s = .next (s1.takeTrap k a.ea) := by
  obtain ⟨run, hrun⟩ := exec_access ha hw
  rw [hrun, hg, andThen_trap]

/-- An exception of its fetch is what a step takes, with `pc`. -/
theorem stepAnswers_of_fetch_trap {s s1 : State} {k : TrapKind} (hq : ∀ q, s.pending = some q → q.job = none)
    (hpc : s.pc.toNat % 4 = 0) (hg : s.beforeStep.grant none s.pc 4 .fetch true true = .trap k s1) :
    s.StepAnswers (.next (s1.takeTrap k s.pc)) := by
  obtain ⟨-, -, hpc', -, -, hpending⟩ := beforeStep_fields s
  apply stepAnswers_of
  rw [hartStep_of_fetch (hpending ▸ hq), State.fetchAndRun, hpc', if_neg (not_not.2 hpc), hg, andThen_trap]

/-- Settles O20: the check of megapage alignment denies every access. -/
theorem misalignedMegapageRaises : Obligations.MisalignedMegapageRaises := by
  intro s va addr t p dirty hmode hr hleaf hppn
  have hdenied : s.leafPermits t p ⟨1, addr, s.pteAt addr, false⟩ = false :=
    leafPermits_false_of_misaligned Nat.one_ne_zero hppn
  exact ⟨translateByWalk_of_denied hmode hr hleaf hdenied, fun job n checked hc hatt =>
    grant_of_denied ⟨hmode, hc⟩ hatt hr hleaf hdenied job checked⟩

/-- Settles O22: the X check denies the fetch. -/
theorem unexecutablePageRaisesFetchFault : Obligations.UnexecutablePageRaisesFetchFault := by
  intro s p level addr hwalks hatt hr hleaf hX
  have hdenied : s.beforeStep.leafPermits .fetch p ⟨level, addr, s.beforeStep.pteAt addr, false⟩ = false :=
    leafPermits_false_of_rwx hX
  have hg : s.beforeStep.grant none s.pc 4 .fetch true true = .trap .fetchPageFault s.beforeStep :=
    grant_of_denied hwalks hatt hr hleaf hdenied none true
  obtain ⟨-, hal, -, hnone⟩ := hatt
  obtain ⟨-, -, -, -, -, hpending⟩ := beforeStep_fields s
  refine stepAnswers_of_fetch_trap (fun q hq => ?_) hal hg
  rw [← hpending, hnone] at hq
  cases hq

/-- Settles O23: the R check denies the load. -/
theorem unreadablePageRaisesLoadFault : Obligations.UnreadablePageRaisesLoadFault := by
  intro s i a p level addr ha hw htype hwalks hmxr hatt hr hleaf hR
  have hdenied : s.leafPermits a.type p ⟨level, addr, s.pteAt addr, false⟩ = false :=
    leafPermits_false_of_rwx (by simp [rwxPermits, htype, hmxr, hR])
  have hg : s.grantOf i a = .trap (pageFaultOf a.type) s := grant_of_denied hwalks hatt hr hleaf hdenied ..
  rw [htype] at hg
  exact exec_of_grant_trap ha hw hg

/-- The exception of an access is the page fault or the access fault of its type (R115, R176). -/
theorem grant_trap_kind {s s1 : State} {job : Option Instr} {va : Word} {n : Nat} {t : AccessType}
    {dirty checked : Bool} {k : TrapKind} (h : s.grant job va n t dirty checked = .trap k s1) :
    k = pageFaultOf t ∨ k = accessFaultOf t := by
  rcases grant_cases s job va n t dirty checked with ⟨r, h'⟩ | ⟨k', l, -, h', hk⟩ |
    ⟨p, pa, addr, pte, l, -, -, -, h'⟩ | ⟨p, pa, l, -, -, -, -, -, -, h'⟩ <;> rw [h'] at h <;> cases h
  exact hk

/-- Settles O24: the W check denies the store; and the exceptions of a store are two. -/
theorem unwritablePageRaisesStoreFault : Obligations.UnwritablePageRaisesStoreFault := by
  refine ⟨fun s i a p level addr ha hw htype hwalks hatt hr hleaf hW => ?_, fun s i a k s1 _ htype hg => ?_⟩
  · have hdenied : s.leafPermits a.type p ⟨level, addr, s.pteAt addr, false⟩ = false :=
      leafPermits_false_of_rwx (by simp [rwxPermits, htype, hW])
    have hg : s.grantOf i a = .trap (pageFaultOf a.type) s := grant_of_denied hwalks hatt hr hleaf hdenied ..
    rw [htype] at hg
    exact exec_of_grant_trap ha hw hg
  · have hk := grant_trap_kind hg
    rwa [htype] at hk

end Sys2Proof.Machine
end

section
/-! # PTEs of the same mapping
`sameMapping` is what the permissions and the address of a leaf depend on: every bit of the PTE but G, A, D and RSW. -/

namespace Sys2Proof.Machine

/-- The mask of `sameMapping` keeps every bit but 5 to 9. -/
theorem getLsbD_mappingMask {b : Nat} (hb : b < 32) :
    (0xFFFFFC1F#32).getLsbD b = (decide (b < 5) || decide (10 ≤ b)) := by
  interval_cases b <;> rfl

theorem sameMapping_iff {pte pte' : Word} :
    sameMapping pte pte' ↔ ∀ b, b < 5 ∨ 10 ≤ b → pte.getLsbD b = pte'.getLsbD b := by
  refine ⟨fun h b hb => ?_, fun h => BitVec.eq_of_getLsbD_eq fun b hlt => ?_⟩
  · by_cases hlt : b < 32
    · have hkept : (decide (b < 5) || decide (10 ≤ b)) = true := by simpa using hb
      have hbit := congrArg (BitVec.getLsbD · b) h
      simpa only [BitVec.getLsbD_and, getLsbD_mappingMask hlt, hkept, Bool.and_true] using hbit
    · rw [BitVec.getLsbD_of_ge _ _ (by omega), BitVec.getLsbD_of_ge _ _ (by omega)]
  · rw [BitVec.getLsbD_and, BitVec.getLsbD_and, getLsbD_mappingMask hlt]
    by_cases hb : b < 5 ∨ 10 ≤ b
    · rw [h b hb]
    · simp [show ¬ b < 5 by omega, show ¬ 10 ≤ b by omega]

section Same
variable {new old : Word} (h : sameMapping new old)
include h

theorem sameMapping.flags_eq : pteV new = pteV old ∧ pteR new = pteR old ∧ pteW new = pteW old ∧
    pteX new = pteX old ∧ pteU new = pteU old := by
  refine ⟨?_, ?_, ?_, ?_, ?_⟩ <;> exact sameMapping_iff.1 h _ (by decide)

theorem sameMapping.ptePpn_eq : ptePpn new = ptePpn old := by
  apply BitVec.eq_of_getLsbD_eq
  intro i _
  simp only [ptePpn, BitVec.getLsbD_extractLsb', sameMapping_iff.1 h (10 + i) (by omega)]

theorem sameMapping.kind_leaf_iff {c : Config} {level : Nat} :
    pteKind c level new = .leaf ↔ pteKind c level old = .leaf := by
  obtain ⟨hV, hR, hW, hX, -⟩ := h.flags_eq
  rw [Machine.kind_leaf_iff, Machine.kind_leaf_iff, hV, hR, hW, hX]

theorem sameMapping.leafAddr_eq (level : Nat) (va : Word) : leafAddr level new va = leafAddr level old va := by
  simp only [leafAddr, h.ptePpn_eq]

end Same

/-- A leaf of the same mapping and level grants the same accesses (R100-R106). -/
theorem sameMapping.leafPermits_eq {lf lf' : Leaf} (h : sameMapping lf'.pte lf.pte) (hlevel : lf'.level = lf.level)
    (s : State) (t : AccessType) (p : Privilege) : s.leafPermits t p lf' = s.leafPermits t p lf := by
  obtain ⟨-, hR, hW, hX, hU⟩ := h.flags_eq
  simp only [State.leafPermits, rwxPermits, userPermits, hR, hW, hX, hU, h.ptePpn_eq, hlevel]

end Sys2Proof.Machine
end

section
/-! # O29: the bits that no translation depends on
What a PTE is, what a leaf grants and where it leads do not depend on G and RSW. So where two memories differ in those
bits alone, the walk reads PTEs of the same kinds at the same addresses, and ends alike. -/

namespace Sys2Proof.Machine

/-! ## PTEs that differ in G and RSW alone -/

/-- The two PTEs are the same but for bits 5, 8 and 9: G and RSW (R36). -/
def SameButGlobalRsw (pte pte' : Word) : Prop := ∀ b, b ≠ 5 → b ≠ 8 → b ≠ 9 → pte'.getLsbD b = pte.getLsbD b

section Fields
variable {pte pte' : Word} (h : SameButGlobalRsw pte pte')
include h

theorem SameButGlobalRsw.sameMapping : sameMapping pte' pte :=
  sameMapping_iff.2 fun b hb => h b (by omega) (by omega) (by omega)

theorem SameButGlobalRsw.accessed_dirty_eq : pteA pte' = pteA pte ∧ pteD pte' = pteD pte :=
  ⟨h 6 (by decide) (by decide) (by decide), h 7 (by decide) (by decide) (by decide)⟩

theorem SameButGlobalRsw.pteKind_eq (c : Config) (level : Nat) : pteKind c level pte' = pteKind c level pte := by
  obtain ⟨hV, hR, hW, hX, hU⟩ := h.sameMapping.flags_eq
  obtain ⟨hA, hD⟩ := h.accessed_dirty_eq
  rw [pteKind, pteKind, hV, hR, hW, hX, hU, hA, hD]

theorem SameButGlobalRsw.needsUpdate_eq (t : AccessType) (dirty : Bool) :
    needsUpdate t dirty pte' = needsUpdate t dirty pte := by
  obtain ⟨hA, hD⟩ := h.accessed_dirty_eq
  rw [needsUpdate, needsUpdate, hA, hD]

end Fields

/-! ## Answers that are the same but for the PTE that is written back -/

/-- The translation, with another PTE written back where it is an update. -/
def Translation.withPte (new : Word) : Translation → Translation
  | .update pa addr _ => .update pa addr new
  | .pageFault => .pageFault
  | .accessFault => .accessFault
  | .done pa => .done pa

/-- `tr'` is the answer `tr` but for the PTE that an update writes back, which is the one `now` holds at its address with
A and D set at most. -/
def KeepsAnswer (now : PhysAddr → Word) (tr tr' : Translation) : Prop :=
  (tr = .pageFault → tr' = .pageFault) ∧ (tr = .accessFault → tr' = .accessFault) ∧
  (∀ pa, tr = .done pa → tr' = .done pa) ∧
  ∀ pa addr old, tr = .update pa addr old →
    ∃ new, tr' = .update pa addr new ∧ ∀ b, b ≠ 6 → b ≠ 7 → new.getLsbD b = (now addr).getLsbD b

section Answers
variable (now : PhysAddr → Word)

theorem keepsAnswer_pageFault : KeepsAnswer now .pageFault .pageFault := ⟨id, nofun, nofun, nofun⟩

theorem keepsAnswer_accessFault : KeepsAnswer now .accessFault .accessFault := ⟨nofun, id, nofun, nofun⟩

theorem keepsAnswer_done (pa : PhysAddr) : KeepsAnswer now (.done pa) (.done pa) := ⟨nofun, nofun, fun _ => id, nofun⟩

end Answers

theorem keepsAnswer_withPte {now : PhysAddr → Word} {tr : Translation} {new : Word}
    (h : ∀ pa addr old, tr = .update pa addr old → ∀ b, b ≠ 6 → b ≠ 7 → new.getLsbD b = (now addr).getLsbD b) :
    KeepsAnswer now tr (tr.withPte new) := by
  cases tr with
  | pageFault => exact keepsAnswer_pageFault now
  | accessFault => exact keepsAnswer_accessFault now
  | done pa => exact keepsAnswer_done now pa
  | update pa addr old =>
    refine ⟨nofun, nofun, nofun, ?_⟩
    rintro _ _ _ ⟨⟩
    exact ⟨new, rfl, h pa addr old rfl⟩

section Leaf
variable {lf lf' : Leaf} (hlevel : lf'.level = lf.level) (haddr : lf'.addr = lf.addr)
  (hpte : SameButGlobalRsw lf.pte lf'.pte)
include hlevel haddr hpte

/-- A leaf that differs in G and RSW alone answers the same, but that an update writes its own G and RSW back. -/
theorem useLeaf_of_same (s : State) (va : Word) (t : AccessType) (p : Privilege) (dirty : Bool) :
    s.useLeaf va t p dirty lf' =
      (s.useLeaf va t p dirty lf).withPte (setNeeded (decide (t = .store) && dirty) lf'.pte) := by
  unfold State.useLeaf
  rw [hpte.sameMapping.leafPermits_eq hlevel, hpte.needsUpdate_eq, hpte.sameMapping.leafAddr_eq, hlevel, haddr]
  repeat' split
  all_goals rfl

theorem useLeaf_keepsAnswer {now : PhysAddr → Word} (hnow : now lf.addr = lf'.pte) (s : State) (va : Word)
    (t : AccessType) (p : Privilege) (dirty : Bool) :
    KeepsAnswer now (s.useLeaf va t p dirty lf) (s.useLeaf va t p dirty lf') := by
  rw [useLeaf_of_same hlevel haddr hpte]
  refine keepsAnswer_withPte fun pa addr old hu b hA hD => ?_
  rcases useLeaf_cases s va t p dirty lf with h | h | ⟨h, -⟩ | ⟨h, -⟩ <;> rw [h] at hu <;> cases hu
  rw [hnow, getLsbD_setNeeded]
  simp [hA, hD]

end Leaf

/-! ## The walk over two memories -/

/-- The walk fails where PMP refuses the read of the root PTE (R41). -/
theorem walk_of_root_denied {s : State} {va : Word} (h : pmpCheck s.cfg (s.rootAddr va) 4 .load .S = false) :
    s.walk va = .accessFault := by
  unfold State.rootAddr at h
  simp [State.walk, rootLevel, walkFrom, examinePte, h]

/-- The walk fails where PMP refuses the read of the PTE after a root pointer. -/
theorem walk_of_next_denied {s : State} {va : Word} (h : pmpCheck s.cfg (s.rootAddr va) 4 .load .S = true)
    (hp : pteKind s.cfg 1 (s.pteAt (s.rootAddr va)) = .pointer)
    (h0 : pmpCheck s.cfg (s.nextAddr va) 4 .load .S = false) : s.walk va = .accessFault := by
  unfold State.nextAddr at h0
  simp [walk_of_pointer h hp, walkFrom, examinePte, h0]

/-- How a walk ends: PMP refuses the read of one of its two PTEs, or it reads an invalid PTE, or it reads a leaf (R93). -/
theorem walk_ends (s : State) (va : Word) :
    pmpCheck s.cfg (s.rootAddr va) 4 .load .S = false ∨
    (pmpCheck s.cfg (s.rootAddr va) 4 .load .S = true ∧ pteKind s.cfg 1 (s.pteAt (s.rootAddr va)) = .pointer ∧
      pmpCheck s.cfg (s.nextAddr va) 4 .load .S = false) ∨
    ∃ level addr, s.WalkReads va level addr ∧
      (pteKind s.cfg level (s.pteAt addr) = .invalid ∨ pteKind s.cfg level (s.pteAt addr) = .leaf) := by
  cases hroot : pmpCheck s.cfg (s.rootAddr va) 4 .load .S with
  | false => exact .inl rfl
  | true =>
    cases hk : pteKind s.cfg 1 (s.pteAt (s.rootAddr va)) with
    | invalid => exact .inr (.inr ⟨1, _, .root hroot, .inl hk⟩)
    | leaf => exact .inr (.inr ⟨1, _, .root hroot, .inr hk⟩)
    | pointer =>
      cases hnext : pmpCheck s.cfg (s.nextAddr va) 4 .load .S with
      | false => exact .inr (.inl ⟨rfl, rfl, rfl⟩)
      | true =>
        refine .inr (.inr ⟨0, _, .next hroot hk hnext, ?_⟩)
        cases hk0 : pteKind s.cfg 0 (s.pteAt (s.nextAddr va)) with
        | invalid => exact .inl rfl
        | leaf => exact .inr rfl
        | pointer => exact absurd hk0 kind_zero_ne_pointer

section Memories
variable {s s' : State} {m : Memory} {va : Word} (hs : s' = { s with mem := m })
  (hroot : SameButGlobalRsw (s.pteAt (s.rootAddr va)) (s'.pteAt (s.rootAddr va)))
  (hnext : pteKind s.cfg 1 (s.pteAt (s.rootAddr va)) = .pointer →
    SameButGlobalRsw (s.pteAt (s.nextAddr va)) (s'.pteAt (s.nextAddr va)))
include hs hroot

theorem nextAddr_of_same : s'.nextAddr va = s.nextAddr va := by
  have hrootAddr : s'.rootAddr va = s.rootAddr va := by rw [hs]; rfl
  simp only [State.nextAddr, hrootAddr, hroot.sameMapping.ptePpn_eq]

/-- A root pointer in the one memory is one in the other. -/
theorem root_pointer_of_same (hk : pteKind s.cfg 1 (s.pteAt (s.rootAddr va)) = .pointer) :
    pteKind s'.cfg 1 (s'.pteAt (s'.rootAddr va)) = .pointer := by
  have hrootAddr : s'.rootAddr va = s.rootAddr va := by rw [hs]; rfl
  have hcfg : s'.cfg = s.cfg := by rw [hs]
  rw [hrootAddr, hcfg, hroot.pteKind_eq, hk]

include hnext

/-- The walk reads at the same addresses, PTEs that differ in G and RSW alone. -/
theorem walkReads_of_same {level : Nat} {addr : PhysAddr} (hr : s.WalkReads va level addr) :
    s'.WalkReads va level addr ∧ SameButGlobalRsw (s.pteAt addr) (s'.pteAt addr) := by
  have hrootAddr : s'.rootAddr va = s.rootAddr va := by rw [hs]; rfl
  have hcfg : s'.cfg = s.cfg := by rw [hs]
  cases hr with
  | root hp => exact ⟨hrootAddr ▸ .root (hcfg.symm ▸ hrootAddr.symm ▸ hp), hroot⟩
  | next hp hk hp0 =>
    have hnextAddr := nextAddr_of_same hs hroot
    refine ⟨?_, hnext hk⟩
    rw [← hnextAddr, ← hcfg] at hp0
    rw [← hrootAddr, ← hcfg] at hp
    exact hnextAddr ▸ .next hp (root_pointer_of_same hs hroot hk) hp0

theorem translateByWalk_keepsAnswer (t : AccessType) (p : Privilege) (dirty : Bool) :
    KeepsAnswer s'.pteAt (s.translateByWalk va t p dirty) (s'.translateByWalk va t p dirty) := by
  have hrootAddr : s'.rootAddr va = s.rootAddr va := by rw [hs]; rfl
  have hcfg : s'.cfg = s.cfg := by rw [hs]
  have hsatp : s'.satp = s.satp := by rw [hs]
  cases hmode : s.satp.mode with
  | bare =>
    simp only [State.translateByWalk, hsatp, hmode]
    exact keepsAnswer_done _ _
  | sv32 =>
    have hmode' : s'.satp.mode = .sv32 := by rw [hsatp, hmode]
    rcases walk_ends s va with hdenied | ⟨hp, hk, hdenied⟩ | ⟨level, addr, hr, hk | hk⟩
    · rw [translateByWalk_sv32 hmode, translateByWalk_sv32 hmode', walk_of_root_denied hdenied,
        walk_of_root_denied (by rwa [hrootAddr, hcfg])]
      exact keepsAnswer_accessFault _
    · rw [translateByWalk_sv32 hmode, translateByWalk_sv32 hmode', walk_of_next_denied hp hk hdenied,
        walk_of_next_denied (by rwa [hrootAddr, hcfg]) (root_pointer_of_same hs hroot hk)
          (by rwa [nextAddr_of_same hs hroot, hcfg])]
      exact keepsAnswer_accessFault _
    · obtain ⟨hr', hsame⟩ := walkReads_of_same hs hroot hnext hr
      rw [translateByWalk_of_invalid t p dirty hmode hr hk,
        translateByWalk_of_invalid t p dirty hmode' hr' (by rw [hcfg, hsame.pteKind_eq, hk])]
      exact keepsAnswer_pageFault _
    · obtain ⟨hr', hsame⟩ := walkReads_of_same hs hroot hnext hr
      have huse : s'.useLeaf = s.useLeaf := by rw [hs]; rfl
      rw [translateByWalk_of_leaf t p dirty hmode hr hk false,
        translateByWalk_of_leaf t p dirty hmode' hr' (by rw [hcfg, hsame.pteKind_eq, hk]) false, huse]
      exact useLeaf_keepsAnswer (lf := ⟨level, addr, s.pteAt addr, false⟩) (lf' := ⟨level, addr, s'.pteAt addr, false⟩) rfl
        rfl hsame rfl s va t p dirty

end Memories

/-- Settles O29: a leaf, and a walk over two memories, answer alike; and the walk does not read `satp.ASID` at all. -/
theorem globalRswAsidDoNotMatter : Obligations.GlobalRswAsidDoNotMatter :=
  ⟨fun s va t p dirty lf pte hpte =>
      useLeaf_keepsAnswer (lf := lf) (lf' := { lf with pte := pte }) (now := fun _ => pte) rfl rfl hpte rfl s va t p dirty,
    fun _ _ _ _ t p dirty hs hroot hnext => translateByWalk_keepsAnswer hs hroot hnext t p dirty,
    fun _ _ _ _ _ _ => rfl⟩

end Sys2Proof.Machine
end

section
/-! # O33: a translation with a cache -/

namespace Sys2Proof.Machine

/-- When a cached PTE is for an address: it is global or tagged with the current ASID, and it was read for the page, or
(a leaf of level 1) for a page of the same megapage (R20, R62, R98). -/
theorem hits_iff {e : TlbEntry} {asid : BitVec 9} {va : Word} : e.hits asid va = true ↔
    (e.above = true ∨ (pteV e.pte = true ∧ pteG e.pte = true) ∨ e.asid = asid) ∧
    (if e.level ≠ 0 ∧ pteV e.pte = true ∧ (pteR e.pte = true ∨ pteW e.pte = true ∨ pteX e.pte = true)
      then e.vpn.extractLsb' 10 10 = va.extractLsb' 22 10 else e.vpn = vpnOf va) := by
  have hcovers : e.covers va = true ↔
      (if e.level ≠ 0 ∧ pteV e.pte = true ∧ (pteR e.pte = true ∨ pteW e.pte = true ∨ pteX e.pte = true)
        then e.vpn.extractLsb' 10 10 = va.extractLsb' 22 10 else e.vpn = vpnOf va) := by
    unfold TlbEntry.covers
    split <;> exact beq_iff_eq
  simp only [TlbEntry.hits, TlbEntry.global, Bool.and_eq_true, Bool.or_eq_true, beq_iff_eq, hcovers, or_assoc]

/-- Under scheme `Fault` a leaf that lacks a bit the access needs fails it (R123). -/
theorem useLeaf_schemeFault {s : State} {t : AccessType} {dirty : Bool} {lf : Leaf} (hs : s.cfg.adScheme = .fault)
    (hbits : needsUpdate t dirty lf.pte = true) (va : Word) (p : Privilege) :
    s.useLeaf va t p dirty lf = .pageFault := by
  by_cases hperm : s.leafPermits t p lf = true <;> simp [State.useLeaf, hperm, hbits, hs]

/-- Under Bare no cache is used (R38). -/
theorem translate_eq_of_bare {s : State} (h : s.satp.mode = .bare) (va : Word) (t : AccessType) (p : Privilege)
    (dirty : Bool) : s.translate va t p dirty = s.translateByWalk va t p dirty := by
  simp only [State.translate, State.translateByWalk, h]

/-- What an access answers that goes on from a cached leaf (R110, R125). -/
theorem useWalk_walkCached_of_leaf {s : State} {e : TlbEntry} (hk : pteKind s.cfg e.level e.pte = .leaf) (va : Word)
    (t : AccessType) (p : Privilege) (dirty : Bool) :
    s.useWalk va t p dirty (s.walkCached va t p dirty e) =
      if s.leafPermits t p (e.leaf va) = false then .pageFault
      else if needsUpdate t dirty e.pte = false then .done (leafAddr e.level e.pte va)
      else if s.cfg.adScheme = .fault then .pageFault
      else s.useWalk va t p dirty (walkFrom s.cfg s.mem va e.level e.table e.above) := by
  by_cases hperm : s.leafPermits t p (e.leaf va) = false
  · have hcached : s.walkCached va t p dirty e = .leaf (e.leaf va) := by simp [State.walkCached, hk, hperm]
    rw [if_pos hperm, hcached, useWalk_leaf, useLeaf_denied hperm]
  rw [if_neg hperm]
  have hperm' : s.leafPermits t p (e.leaf va) = true := by simpa using hperm
  by_cases hbits : needsUpdate t dirty e.pte = false
  · have hcached : s.walkCached va t p dirty e = .leaf (e.leaf va) := by simp [State.walkCached, hk, hbits]
    rw [if_pos hbits, hcached, useWalk_leaf]
    exact useLeaf_done (lf := e.leaf va) hperm' hbits va
  rw [if_neg hbits]
  have hbits' : needsUpdate t dirty e.pte = true := by simpa using hbits
  cases hs : s.cfg.adScheme with
  | fault =>
    have hcached : s.walkCached va t p dirty e = .leaf (e.leaf va) := by simp [State.walkCached, hk, hs]
    rw [if_pos rfl, hcached, useWalk_leaf]
    exact useLeaf_schemeFault (lf := e.leaf va) hs hbits' va p
  | update => simp [State.walkCached, hk, hperm', hbits', hs]

/-- Settles O33: the lookup of an access is the walk, or goes on from a cached PTE that hits, and then by its kind. -/
theorem translationIsWalkedOrCached : Obligations.TranslationIsWalkedOrCached := by
  intro s va t p dirty
  cases hmode : s.satp.mode with
  | bare => exact .inl (translate_eq_of_bare hmode va t p dirty)
  | sv32 =>
    have htr := translate_sv32 hmode va t p dirty
    rcases lookup_cases s va t p dirty with hlookup | ⟨hc, e, hmem, hits, hlookup⟩ <;> rw [hlookup] at htr
    · exact .inl (htr.trans (translateByWalk_sv32 hmode va t p dirty).symm)
    · obtain ⟨htag, hpage⟩ := hits_iff.1 hits
      refine .inr ⟨rfl, hc, e, hmem, htag, hpage, ?_⟩
      cases hk : pteKind s.cfg e.level e.pte with
      | invalid => exact .inl ⟨rfl, by simp [htr, State.walkCached, hk]⟩
      | pointer => exact .inr (.inl ⟨rfl, by simp [htr, State.walkCached, hk]⟩)
      | leaf =>
        refine .inr (.inr ⟨rfl, ?_⟩)
        rw [useWalk_walkCached_of_leaf hk] at htr
        by_cases hperm : s.leafPermits t p (e.leaf va) = false
        · simpa [hperm] using htr
        · by_cases hbits : needsUpdate t dirty e.pte = false
          · simpa [hperm, hbits] using htr
          · by_cases hs : s.cfg.adScheme = .fault <;> simpa [hperm, hbits, hs] using htr

end Sys2Proof.Machine
end

section
/-! # O31: a cache that agrees with the page tables
A cached PTE that agrees is the one the walk reads, or that one before the hart marked it. Going on from it ends where the
walk ends, but for the `global` bit of the leaf, which no translation reads. -/

namespace Sys2Proof.Machine

/-! ## A leaf and the same leaf marked -/

section Marks
variable {c : Config} {old new : Word} (h : Marked c old new)
include h

theorem Marked.sameMapping : sameMapping new old :=
  sameMapping_iff.2 fun _ hb => h.getLsbD_eq (by omega) (by omega)

/-- Marking clears no bit. -/
theorem Marked.getLsbD_of_old {b : Nat} (hb : old.getLsbD b = true) : new.getLsbD b = true := by
  rcases h with rfl | ⟨-, -, he⟩
  · exact hb
  · rw [he, BitVec.getLsbD_or, hb, Bool.true_or]

theorem Marked.eq_of_schemeFault (hs : c.adScheme = .fault) : new = old := by
  rcases h with he | ⟨hs', -⟩
  · exact he
  · rw [hs] at hs'
    cases hs'

/-- A PTE that is no leaf is not marked. -/
theorem Marked.eq_of_invalid {level : Nat} (hk : pteKind c level old = .invalid) : new = old := by
  rcases h with he | ⟨-, hleaf, -⟩
  · exact he
  · rw [kind_leaf_any_level level hleaf] at hk
    cases hk

/-- Marking sets bits that an access needs, and clears none. -/
theorem Marked.needsUpdate_eq_false {t : AccessType} {dirty : Bool} (hbits : needsUpdate t dirty old = false) :
    needsUpdate t dirty new = false := by
  rw [needsUpdate_eq_false_iff] at hbits ⊢
  exact ⟨h.getLsbD_of_old hbits.1, fun ht hd => h.getLsbD_of_old (hbits.2 ht hd)⟩

end Marks

/-- A leaf as it was cached answers what it answers as memory holds it, where the access does not need the hart to mark
it. -/
theorem Marked.useLeaf_eq {s : State} {t : AccessType} {p : Privilege} {dirty : Bool} {lf lf' : Leaf}
    (h : Marked s.cfg lf.pte lf'.pte) (hlevel : lf'.level = lf.level) (haddr : lf'.addr = lf.addr)
    (hno : s.leafPermits t p lf = false ∨ needsUpdate t dirty lf.pte = false ∨ s.cfg.adScheme = .fault) (va : Word) :
    s.useLeaf va t p dirty lf' = s.useLeaf va t p dirty lf := by
  have hperm := h.sameMapping.leafPermits_eq hlevel s t p
  rcases hno with hdenied | hbits | hs
  · rw [useLeaf_denied hdenied, useLeaf_denied (hperm.trans hdenied)]
  · rw [useLeaf_of_bits hbits, useLeaf_of_bits (h.needsUpdate_eq_false hbits), hperm, hlevel,
      h.sameMapping.leafAddr_eq]
  · simp only [State.useLeaf, hperm, h.eq_of_schemeFault hs, hlevel, haddr]

/-! ## Walks that differ in the `global` bit -/

/-- No translation depends on whether the pointers before were global (R109). -/
theorem useWalk_walkFrom_global (s : State) (va : Word) (t : AccessType) (p : Privilege) (dirty : Bool) (c : Config)
    (m : Memory) (level : Nat) (table : Ppn) (g g' : Bool) :
    s.useWalk va t p dirty (walkFrom c m va level table g) =
      s.useWalk va t p dirty (walkFrom c m va level table g') := by
  induction level generalizing table g g' with
  | zero =>
    simp only [walkFrom]
    cases examinePte c m 0 (pteAddr table (vpnIndex va 0)) <;> rfl
  | succ level ih =>
    simp only [walkFrom]
    cases examinePte c m (level + 1) (pteAddr table (vpnIndex va (level + 1))) with
    | pointer pte => exact ih ..
    | pageFault => rfl
    | accessFault => rfl
    | leaf pte => rfl

/-- A walk that starts at a leaf ends there. -/
theorem walkFrom_of_leaf {c : Config} {m : Memory} {va : Word} {level : Nat} {table : Ppn}
    (hp : pmpCheck c (pteAddr table (vpnIndex va level)) 4 .load .S = true)
    (hk : pteKind c level (physRead m (machineAddr c (pteAddr table (vpnIndex va level))) 4) = .leaf) (g : Bool) :
    ∃ g', walkFrom c m va level table g = .leaf ⟨level, pteAddr table (vpnIndex va level),
      physRead m (machineAddr c (pteAddr table (vpnIndex va level))) 4, g'⟩ := by
  cases level <;> simp [walkFrom, examinePte, hp, hk]

theorem State.WalkReads.pmp {s : State} {va : Word} {level : Nat} {addr : PhysAddr} (h : s.WalkReads va level addr) :
    pmpCheck s.cfg addr 4 .load .S = true := by
  cases h with
  | root hp => exact hp
  | next _ _ hp0 => exact hp0

/-! ## Going on from a cached PTE that agrees -/

section Entry
variable {s : State} {va : Word} {e : TlbEntry} (t : AccessType) (p : Privilege) (dirty : Bool)
  (hmode : s.satp.mode = .sv32) (hr : s.WalkReads va e.level (e.leaf va).addr)
  (hmarked : Marked s.cfg e.pte (s.pteAt (e.leaf va).addr))
include hmode hr hmarked

theorem walkCached_invalid_agrees (hk : pteKind s.cfg e.level e.pte = .invalid) :
    s.useWalk va t p dirty .pageFault = s.translateByWalk va t p dirty := by
  rw [← hmarked.eq_of_invalid hk] at hk
  rw [translateByWalk_of_invalid t p dirty hmode hr hk, useWalk_pageFault]

theorem walkCached_pointer_agrees (hk : pteKind s.cfg e.level e.pte = .pointer) :
    s.useWalk va t p dirty (walkFrom s.cfg s.mem va (e.level - 1) (ptePpn e.pte) (e.above || pteG e.pte)) =
      s.translateByWalk va t p dirty := by
  have hpte : s.pteAt (e.leaf va).addr = e.pte := hmarked.eq_of_pointer (.inl hk)
  generalize (e.leaf va).addr = addr at hr hpte
  rw [← hpte] at hk ⊢
  rw [translateByWalk_sv32 hmode]
  generalize e.level = level at hr hk
  cases hr with
  | root hp =>
    rw [walk_of_pointer hp hk]
    exact useWalk_walkFrom_global ..
  | next => exact absurd hk kind_zero_ne_pointer

theorem walkCached_leaf_agrees (hk : pteKind s.cfg e.level e.pte = .leaf)
    (hno : s.leafPermits t p (e.leaf va) = false ∨ needsUpdate t dirty e.pte = false ∨ s.cfg.adScheme = .fault) :
    s.useWalk va t p dirty (.leaf (e.leaf va)) = s.translateByWalk va t p dirty := by
  rw [translateByWalk_of_leaf t p dirty hmode hr (hmarked.sameMapping.kind_leaf_iff.2 hk) false, useWalk_leaf]
  exact (Marked.useLeaf_eq (lf := e.leaf va) (lf' := ⟨e.level, (e.leaf va).addr, s.pteAt (e.leaf va).addr, false⟩)
    hmarked rfl rfl hno va).symm

/-- Where the access needs the leaf marked, the walk starts again at its PTE in memory (R125). -/
theorem walkCached_update_agrees (hk : pteKind s.cfg e.level e.pte = .leaf) :
    s.useWalk va t p dirty (walkFrom s.cfg s.mem va e.level e.table e.above) = s.translateByWalk va t p dirty := by
  have hnow := hmarked.sameMapping.kind_leaf_iff.2 hk
  obtain ⟨g, hwalk⟩ := walkFrom_of_leaf hr.pmp hnow e.above
  rw [hwalk, translateByWalk_of_leaf t p dirty hmode hr hnow g]
  rfl

theorem useWalk_walkCached_agrees :
    s.useWalk va t p dirty (s.walkCached va t p dirty e) = s.translateByWalk va t p dirty := by
  rcases walkCached_cases s va t p dirty e with ⟨hk, h⟩ | ⟨hk, h⟩ | ⟨hk, -, -, -, h⟩ | ⟨hk, hno, h⟩ <;> rw [h]
  · exact walkCached_invalid_agrees t p dirty hmode hr hmarked hk
  · exact walkCached_pointer_agrees t p dirty hmode hr hmarked hk
  · exact walkCached_update_agrees t p dirty hmode hr hmarked hk
  · exact walkCached_leaf_agrees t p dirty hmode hr hmarked hk hno

end Entry

/-- With a cache that agrees, whatever cached PTE the hart goes on from, the translation is that of the walk (R114). -/
theorem translate_of_agrees {s : State} (hs : s.CacheAgrees) (va : Word) (t : AccessType) (p : Privilege)
    (dirty : Bool) : s.translate va t p dirty = s.translateByWalk va t p dirty := by
  cases hmode : s.satp.mode with
  | bare => exact translate_eq_of_bare hmode va t p dirty
  | sv32 =>
    rw [translate_sv32 hmode]
    rcases lookup_cases s va t p dirty with h | ⟨-, e, hmem, hits, h⟩ <;> rw [h]
    · exact (translateByWalk_sv32 hmode va t p dirty).symm
    · obtain ⟨hr, hagrees⟩ := hs e hmem va hits
      exact useWalk_walkCached_agrees t p dirty hmode hr (agrees_iff_marked.1 hagrees)

/-! ## Along a run that meets the launch premises -/

/-- A step from a state with a cache that agrees keeps memory canonical. -/
theorem step_keeps_wf {s t : State} (hm : s.mem.wf = true) (hs : s.CacheAgrees) (h : step s = .next t) :
    t.mem.wf = true := by
  refine step_induction (P := fun c => c.mem.wf = true) h (beforeStep_keepsAgreement hm hs).memCanonical
    ?refill ?trap ?update ?done
  case refill => exact fun c l _ hc => hc
  case trap => exact fun c k v hc => by simpa using hc
  case update =>
    intro c t job va lf d hu hc
    rw [hu.next]
    exact wf_physWrite hc _ _ _
  case done => exact fun i c t _ hdone hc => hdone.wf hc

theorem step_satp {s t : State} (h : step s = .next t) : t.satp = s.satp :=
  (stepKeepsControlRegisters s t h).2.1

theorem Runs.satp_eq {s u : State} (h : Runs s u) : u.satp = s.satp := by
  induction h with
  | refl => rfl
  | next hstep _ ih => exact ih.trans (step_satp hstep)

/-- Tables that stay as they are during a run stay so during what is left of it. -/
theorem State.StaticTables.of_runs {s t : State} {roots : List Ppn} (h : s.StaticTables roots) (hrun : Runs s t) :
    t.StaticTables roots := fun u x hu => h u x (hrun.trans hu)

/-- Where the tables stay as they are, a step stores to no PTE of the root in force. -/
theorem State.StaticTables.avoids {s : State} {roots : List Ppn} (h : s.StaticTables roots)
    (hroot : s.satp.ppn ∈ roots) {x : Nat} (hx : s.Stores x) : s.AvoidsTables x 1 :=
  h s x (.refl s) hx s.satp.ppn hroot

/-- During a run in which the tables stay as they are, a cache that agrees goes on agreeing (D9, R202). -/
theorem Runs.cacheAgrees {s u : State} {roots : List Ppn} (h : Runs s u) (hm : s.mem.wf = true) (hs : s.CacheAgrees)
    (hroot : s.satp.ppn ∈ roots) (hstatic : s.StaticTables roots) : u.CacheAgrees := by
  induction h with
  | refl => exact hs
  | next hstep hrest ih =>
    have hnext := fillFlushAndStepKeepAgreement.2 _ _ hm hs (fun x hx => hstatic.avoids hroot hx) hstep
    exact ih (step_keeps_wf hm hs hstep) hnext (step_satp hstep ▸ hroot) (hstatic.of_runs (.next hstep (.refl _)))

/-- Settles O31: a cache that agrees is not seen, and from an empty one on it agrees in every state of such a run. -/
theorem agreeingCacheIsInvisible : Obligations.AgreeingCacheIsInvisible := by
  refine ⟨fun s va t p dirty hs => translate_of_agrees hs va t p dirty, ?_⟩
  intro s u roots va t p dirty hm hlaunch hrun
  cases hmode : s.satp.mode with
  | bare => exact translate_eq_of_bare (hrun.satp_eq ▸ hmode) va t p dirty
  | sv32 =>
    obtain ⟨-, -, -, -, hempty⟩ := hlaunch.hart
    have hs : s.CacheAgrees := by simp [State.CacheAgrees, hempty]
    have hu := hrun.cacheAgrees hm hs (hlaunch.rootInUse hmode) (hlaunch.staticTables hmode)
    exact translate_of_agrees hu va t p dirty

end Sys2Proof.Machine
end

section
/-! # O9 and O40: the access behind a PTE update
The update is a step of its own; the access stays pending until the hart's own step resumes its instruction, and is then
made at the pending address, with the PMP check alone still before it. -/

namespace Sys2Proof.Machine

/-- A hart with the access of an instruction pending goes on with that instruction (R131). -/
theorem hartStep_of_pending {s : State} {i : Instr} {va : Word} {pa : PhysAddr}
    (h : s.pending = some ⟨some i, va, pa⟩) (run : Instr → State → Outcome) : s.hartStep run = run i s := by
  simp only [State.hartStep, h]

/-- Settles O9: what the hart does of its own accord leaves the access pending. -/
theorem stepResumesThePendingAccess : Obligations.StepResumesThePendingAccess := by
  intro s i va pa hq
  obtain ⟨-, -, -, -, -, hpending⟩ := beforeStep_fields s
  exact stepAnswers_of (hartStep_of_pending (hpending.trans hq) exec)

/-- An access that makes a PTE update is not refused: it lies in one page and is naturally aligned (R48, D2). -/
theorem aligned_of_updated {s s1 : State} {job : Option Instr} {va : Word} {n : Nat} {t : AccessType}
    {dirty checked : Bool} (h : s.grant job va n t dirty checked = .updated s1) :
    (pageOffset va).toNat + n ≤ pageSize ∧ va.toNat % n = 0 := by
  have hpage : va.toNat % 4096 + n ≤ 4096 := by
    by_contra hcross
    rw [grant_crossing (Nat.not_le.1 hcross)] at h
    cases h
  have hal : va.toNat % n = 0 := by
    by_contra hmis
    rw [grant_misaligned hpage hmis] at h
    cases h
  exact ⟨by rwa [pageOffset_toNat, pageSize], hal⟩

/-- The access that is pending goes on at the pending address, with no translation: PMP alone decides (R131, R40). -/
theorem grant_of_pending {s : State} {job : Option Instr} {va : Word} {n : Nat} {p : Privilege} {pa : PhysAddr}
    (hpage : (pageOffset va).toNat + n ≤ pageSize) (hal : va.toNat % n = 0) (hpriv : s.mode.privilege = some p)
    (hq : s.pending = some ⟨job, va, pa⟩) (t : AccessType) (dirty checked : Bool) :
    s.grant job va n t dirty checked = { s with pending := none }.checkPmp pa n t p checked := by
  rw [State.grant, if_neg (Nat.not_lt.2 hpage), if_neg (not_not.2 hal), hpriv]
  simp only [State.resolve, hq, and_self, if_true]

/-- An access that is checked and that PMP refuses is an access fault of its type (R41, R176). -/
theorem checkPmp_denied {s : State} {pa : PhysAddr} {n : Nat} {t : AccessType} {p : Privilege}
    (hpmp : pmpCheck s.cfg pa n t p = false) : s.checkPmp pa n t p true = .trap (accessFaultOf t) s := by
  simp [State.checkPmp, hpmp]

/-- A PTE update is the whole step of the instruction whose access needs it (R131). -/
theorem exec_of_grant_updated {s s1 : State} {i : Instr} {a : Access} (ha : s.accessOf i = some a)
    (hw : Instr.wellFormed s.cfg i = true) (hg : s.grantOf i a = .updated s1) : exec i s = .next s1 := by
  obtain ⟨run, hrun⟩ := exec_access ha hw
  rw [hrun, hg, andThen_updated]

/-- What a PTE update leaves: the state before with the leaf of the access's lookup written back, perhaps the cache
filled, and the access pending at the address of R108 in that leaf. -/
theorem grant_updated {s s1 : State} {job : Option Instr} {va : Word} {n : Nat} {t : AccessType} {dirty checked : Bool}
    (h : s.grant job va n t dirty checked = .updated s1) :
    ∃ p lf l, s.mode.privilege = some p ∧ s.lookup va t p dirty = .leaf lf ∧ s.cfg.adScheme = .update ∧
      s1 = { s.writePte lf.addr (setNeeded (decide (t = .store) && dirty) lf.pte) with
        pending := some ⟨job, va, leafAddr lf.level lf.pte va⟩, tlb := l } := by
  rcases grant_cases s job va n t dirty checked with ⟨r, h'⟩ | ⟨k, l, -, h', -⟩ |
    ⟨p, pa, addr, pte, l, hpriv, -, ht, h'⟩ | ⟨p, pa, l, -, -, -, -, -, -, h'⟩ <;> rw [h] at h' <;> cases h'
  obtain ⟨-, lf, hlookup, -, -, -, -, -, hscheme, -, rfl, rfl, rfl⟩ := translate_update ht
  exact ⟨p, lf, l, hpriv, hlookup, hscheme, rfl⟩

/-- Settles O40: the update leaves the access pending at the address of the leaf, what the hart does of its own accord
leaves it so, and the step that resumes it asks PMP alone. -/
theorem updateStepThenAccessStep : Obligations.UpdateStepThenAccessStep := by
  intro s i a s1 ha hw hg
  obtain ⟨hpage, hal⟩ := aligned_of_updated hg
  have hexec := exec_of_grant_updated ha hw hg
  obtain ⟨p, lf, l, hpriv, hlookup, -, rfl⟩ := grant_updated hg
  refine ⟨hexec, rfl, rfl, reservation_filter .., by simp [SameSystem], p, lf, _, hpriv, hlookup,
    fun hc => (lookup_of_no_cache hc ..).symm.trans hlookup, rfl, rfl, fun u hcfg hmode hq => ?_⟩
  obtain ⟨hcfg', -, -, hmode', -, hpending⟩ := beforeStep_fields u
  have hcfgs : u.beforeStep.cfg = s.cfg := hcfg'.trans hcfg
  have hprivs : u.beforeStep.mode.privilege = some p := by rw [hmode', hmode]; exact hpriv
  refine ⟨stepResumesThePendingAccess u i _ _ hq, hpending.trans hq, fun dirty checked => ?_⟩
  rw [grant_of_pending hpage hal hprivs (hpending.trans hq), ← hcfgs]
  refine ⟨fun hpmp => ⟨_, checkPmp_granted hpmp, rfl⟩, ?_⟩
  rintro rfl hdenied
  exact ⟨_, checkPmp_denied hdenied, rfl⟩

end Sys2Proof.Machine
end

section
/-! # O12: a hart that makes no speculative update -/

namespace Sys2Proof.Machine

/-- Without `A_SPECULATIVE`, under scheme `Fault` or under Bare, what the hart does of its own accord writes no memory
(R127, R122). -/
theorem beforeStep_mem_of_off {s : State}
    (h : s.cfg.aSpeculative = false ∨ s.cfg.adScheme = .fault ∨ s.satp.mode = .bare) : s.beforeStep.mem = s.mem := by
  show s.speculate.mem = s.mem
  by_cases hbare : s.satp.mode = .bare
  · rw [speculate_bare hbare]
  · refine (speculate_induction (P := fun x => x.cfg = s.cfg ∧ x.mem = s.mem) ⟨rfl, rfl⟩ ?_).2
    rintro x a ⟨hcfg, hmem⟩
    rcases speculateOne_cases x a with ⟨l, hx⟩ | ⟨lf, l, hspec, hscheme, -⟩
    · simp [hx, hcfg, hmem]
    · simp [← hcfg, hspec, hscheme, hbare] at h

/-- Settles O12: such a hart neither updates of its own accord nor makes steps of that alone. -/
theorem noSpeculativeUpdateUnlessConfigured : Obligations.NoSpeculativeUpdateUnlessConfigured :=
  fun _ h => ⟨beforeStep_mem_of_off h, step_of_off h⟩

end Sys2Proof.Machine
end

section
/-! # O26 and O27: a leaf that lacks a bit the access needs
Scheme `Fault` makes it a page fault, scheme `Update` writes the leaf back with the bits set. -/

namespace Sys2Proof.Machine

/-- Some bit an access needs is clear: A, or D for a store that asks for it (R107). -/
theorem needsUpdate_eq_true_iff {t : AccessType} {dirty : Bool} {pte : Word} : needsUpdate t dirty pte = true ↔
    pteA pte = false ∨ (t = .store ∧ dirty = true ∧ pteD pte = false) := by
  rw [← Bool.not_eq_false, needsUpdate_eq_false_iff]
  simp only [not_and_or, Classical.not_imp, Bool.not_eq_true]

/-- Under scheme `Fault` a walk to such a leaf is the page fault of the access, in the state before (R123). -/
theorem grant_of_clear_bits_schemeFault {s : State} {va : Word} {n : Nat} {t : AccessType} {p : Privilege}
    {dirty : Bool} {lf : Leaf} (hs : s.cfg.adScheme = .fault) (hwalks : s.Walks) (hatt : s.Attempts va n p)
    (hwalk : s.walk va = .leaf lf) (hbits : needsUpdate t dirty lf.pte = true) (job : Option Instr) (checked : Bool) :
    s.grant job va n t dirty checked = .trap (pageFaultOf t) s := by
  refine grant_of_translate_pageFault hatt ?_ job checked
  rw [translate_of_walks hwalks, translateByWalk_sv32 hwalks.1, hwalk, useWalk_leaf, useLeaf_schemeFault hs hbits]

/-- Settles O26: the leaf fails the translation of the instruction's access and of the fetch; and what an update writes
back it writes under scheme `Update`. -/
theorem clearBitsRaiseUnderSchemeFault : Obligations.ClearBitsRaiseUnderSchemeFault := by
  refine ⟨fun s i a p lf ha hw hs hwalks hatt hwalk hclear => ?_, fun s p lf hs hwalks hatt hwalk hA => ?_,
    fun s job va n t dirty checked s1 hs hg => ?_⟩
  · have hbits := needsUpdate_eq_true_iff.2 hclear
    exact exec_of_grant_trap ha hw (grant_of_clear_bits_schemeFault hs hwalks hatt hwalk hbits ..)
  · obtain ⟨hcfg, -, -, -, -, hpending⟩ := beforeStep_fields s
    have hs' : s.beforeStep.cfg.adScheme = .fault := hcfg ▸ hs
    have hg := grant_of_clear_bits_schemeFault (t := .fetch) (dirty := true) hs' hwalks hatt hwalk
      (needsUpdate_eq_true_iff.2 (.inl hA)) none true
    obtain ⟨-, hal, -, hnone⟩ := hatt
    have hstep := stepAnswers_of_fetch_trap (fun q hq => by rw [← hpending, hnone] at hq; cases hq) hal hg
    rwa [State.StepAnswers, speculativeStep_off (.inr (.inl hs))] at hstep
  · obtain ⟨p, lf, l, -, -, hupdate, -⟩ := grant_updated hg
    rw [hs] at hupdate
    cases hupdate

/-- Under scheme `Update` a leaf that grants the access, lacks a bit it needs and may be written is written back with
the bits set (R124). -/
theorem useLeaf_update {s : State} {t : AccessType} {p : Privilege} {dirty : Bool} {lf : Leaf}
    (hs : s.cfg.adScheme = .update) (hperm : s.leafPermits t p lf = true) (hbits : needsUpdate t dirty lf.pte = true)
    (hpmp : pmpCheck s.cfg lf.addr 4 .store .S = true) (va : Word) :
    s.useLeaf va t p dirty lf =
      .update (leafAddr lf.level lf.pte va) lf.addr (setNeeded (decide (t = .store) && dirty) lf.pte) := by
  simp [State.useLeaf, hs, hperm, hbits, hpmp]

/-- The update of a leaf sets A (R124). -/
theorem pteA_setNeeded (d : Bool) (pte : Word) : pteA (setNeeded d pte) = true := by
  rw [pteA, getLsbD_setNeeded]
  simp

/-- The update of a leaf sets D where the access asks for it, and else leaves it (R124). -/
theorem pteD_setNeeded (d : Bool) (pte : Word) : pteD (setNeeded d pte) = (pteD pte || d) := by
  rw [pteD, getLsbD_setNeeded, pteD]
  simp

/-- Settles O27: the translation is that update, and there is no cache to fill. -/
theorem clearBitsAreSetUnderSchemeUpdate : Obligations.ClearBitsAreSetUnderSchemeUpdate := by
  intro s job va n t p dirty checked lf hs hwalks hatt hwalk hperm hpmp hclear
  have htr : s.translate va t p dirty =
      .update (leafAddr lf.level lf.pte va) lf.addr (setNeeded (decide (t = .store) && dirty) lf.pte) := by
    rw [translate_of_walks hwalks, translateByWalk_sv32 hwalks.1, hwalk, useWalk_leaf,
      useLeaf_update hs hperm (needsUpdate_eq_true_iff.2 hclear) hpmp]
  have hfill := fillCache_off (s := s.writePte lf.addr (setNeeded (decide (t = .store) && dirty) lf.pte)) hwalks.2 va
  refine ⟨_, setNeeded (decide (t = .store) && dirty) lf.pte, ?_, rfl, pteA_setNeeded .., pteD_setNeeded ..,
    fun b hA hD => ?_⟩
  · rw [grant_of_attempts hatt, State.grantFresh, htr]
    simp only [hfill]
    rfl
  · simp [getLsbD_setNeeded, hA, hD]

end Sys2Proof.Machine
end

section
/-! # O11: what speculation sets
The updates that the hart makes of its own accord only mark leaves, so the leaf that the walk finds for a later one is
that of the walk before the first, with A clear and the same checks. -/

namespace Sys2Proof.Machine

/-- The PTEs that the walk reads after marks are those it reads before. -/
theorem State.OnlyMarks.walkReads_before {s x : State} (h : s.OnlyMarks x) {va : Word} {level : Nat} {addr : PhysAddr}
    (hr : x.WalkReads va level addr) : s.WalkReads va level addr := by
  have hroot := h.rootAddr va
  cases hr with
  | root hp =>
    rw [h.cfg, hroot] at hp
    exact hroot ▸ .root hp
  | next hp hk h0 =>
    rw [h.cfg, hroot] at hp hk
    have hpte : x.pteAt (s.rootAddr va) = s.pteAt (s.rootAddr va) := h.root_pointer (.inr hk)
    have hnext : x.nextAddr va = s.nextAddr va := by simp only [State.nextAddr, hroot, hpte]
    rw [hpte] at hk
    rw [h.cfg, hnext] at h0
    exact hnext ▸ .next hp hk h0

/-- A leaf that the walk finds after marks is the leaf it finds before them, marked. -/
theorem State.OnlyMarks.walk_leaf_before {s x : State} (h : s.OnlyMarks x) {va : Word} {lf : Leaf}
    (hw : x.walk va = .leaf lf) :
    ∃ lf', s.walk va = .leaf lf' ∧ lf'.level = lf.level ∧ lf'.addr = lf.addr ∧ Marked s.cfg lf'.pte lf.pte := by
  obtain ⟨-, hkind, hpte, -⟩ := walk_leaf hw
  have hr := h.walkReads_before (reads_of_walk hw)
  have hmarked := h.ptes _ _ (reaches_of_reads hr)
  rw [h.cfg, hpte] at hkind
  obtain ⟨g, hw'⟩ := (walk_of_reads hr).2 (hmarked.sameMapping.kind_leaf_iff.1 hkind)
  exact ⟨_, hw', rfl, rfl, hpte ▸ hmarked⟩

/-- The byte is the flag byte of a leaf PTE, with A clear, that the walk finds for some address and that grants some
access: what a speculative update may change (R127). -/
def State.MayBeAccessed (s : State) (y : Nat) : Prop :=
  ∃ va t p lf, s.walk va = .leaf lf ∧ s.Reaches lf.level lf.addr ∧ isLeaf (s.pteAt lf.addr) = true ∧
    pteA (s.pteAt lf.addr) = false ∧ s.leafPermits t p lf = true ∧ y = machineAddr s.cfg lf.addr

/-- What speculation keeps on its way from `s` to `x`: the checks and, but for marks, the page tables; each byte as it
was, or as a speculative update leaves it, and then no reservation that held it. -/
structure State.SpeculatesTo (s x : State) : Prop where
  marks : s.OnlyMarks x
  checks : x.mxr = s.mxr ∧ x.sum = s.sum
  memCanonical : x.mem.wf = true
  bytes : ∀ y, x.mem.read y ≠ s.mem.read y → s.cfg.aSpeculative = true ∧ s.cfg.adScheme = .update ∧
    x.mem.read y = s.mem.read y ||| 0x40#8 ∧ s.MayBeAccessed y
  reservation : x.reservation = s.reservation ∨ x.reservation = none
  lost : ∀ r y, s.reservation = some r → r.holdsByte y = true → x.mem.read y ≠ s.mem.read y → x.reservation = none

theorem State.SpeculatesTo.refl {s : State} (hm : s.mem.wf = true) : s.SpeculatesTo s where
  marks := .of_eq rfl rfl rfl
  checks := ⟨rfl, rfl⟩
  memCanonical := hm
  bytes := fun _ h => absurd rfl h
  reservation := .inl rfl
  lost := fun _ _ _ _ h => absurd rfl h

/-- A leaf that the walk finds on the way, with A clear and granting an access, was such a leaf before. -/
theorem State.SpeculatesTo.mayBeAccessed {s x : State} (h : s.SpeculatesTo x) {va : Word} {lf : Leaf} {t : AccessType}
    {p : Privilege} (hw : x.walk va = .leaf lf) (hperm : x.leafPermits t p lf = true) (hA : pteA lf.pte = false) :
    s.MayBeAccessed (machineAddr s.cfg lf.addr) := by
  obtain ⟨lf', hw', hlevel, haddr, hmarked⟩ := h.marks.walk_leaf_before hw
  obtain ⟨-, hkind, hpte, -⟩ := walk_leaf hw'
  obtain ⟨hmxr, hsum⟩ := h.checks
  refine ⟨va, t, p, lf', hw', reaches_of_reads (reads_of_walk hw'), hpte ▸ isLeaf_of_kind hkind, ?_, ?_, by rw [haddr]⟩
  · rw [← hpte]
    exact Bool.eq_false_iff.2 fun hset => Bool.eq_false_iff.1 hA (hmarked.getLsbD_of_old hset)
  · rw [← hmarked.sameMapping.leafPermits_eq hlevel.symm]
    simpa only [State.leafPermits, hmxr, hsum] using hperm

/-- A PTE write loses a reservation that holds its first byte (H4). -/
theorem filter_touched {o : Option Reservation} {r : Reservation} {a n : Nat} (ho : o = some r ∨ o = none)
    (hholds : r.holdsByte a = true) (hn : 0 < n) : (o.filter fun r => !r.touched a n) = none := by
  have htouched : r.touched a n = true := List.any_eq_true.2 ⟨0, List.mem_range.2 hn, hholds⟩
  rcases ho with rfl | rfl <;> simp [htouched]

/-! ## One speculative update more -/

section Write
variable {s x : State} {va : Word} {lf : Leaf} {t : AccessType} {p : Privilege} (h : s.SpeculatesTo x)
  (hspec : x.cfg.aSpeculative = true) (hscheme : x.cfg.adScheme = .update) (hw : x.walk va = .leaf lf)
  (hperm : x.leafPermits t p lf = true) (hA : pteA lf.pte = false)
include h hw

/-- It changes the flag byte of the leaf, where it sets A alone (R127). -/
theorem State.SpeculatesTo.read_writePte (y : Nat) : (x.writePte lf.addr (setNeeded false lf.pte)).mem.read y =
    if y = machineAddr s.cfg lf.addr then x.mem.read y ||| 0x40#8 else x.mem.read y := by
  obtain ⟨-, -, inMemory, -⟩ := walk_leaf hw
  rw [writePte_mem, inMemory, State.pteAt, read_setNeeded h.memCanonical, h.marks.cfg]
  by_cases hat : y = machineAddr s.cfg lf.addr <;> simp [hat]

/-- The reservation is lost if it held that byte, and if it held one that an update before changed. -/
theorem State.SpeculatesTo.lost_writePte {r : Reservation} {y : Nat} (hr : s.reservation = some r)
    (hholds : r.holdsByte y = true)
    (hy : (x.writePte lf.addr (setNeeded false lf.pte)).mem.read y ≠ s.mem.read y) :
    (x.writePte lf.addr (setNeeded false lf.pte)).reservation = none := by
  rw [writePte_reservation, h.marks.cfg]
  by_cases hx : x.mem.read y = s.mem.read y
  · have hat : y = machineAddr s.cfg lf.addr := by
      by_contra hne
      rw [h.read_writePte hw, if_neg hne] at hy
      exact hy hx
    exact filter_touched (hr ▸ h.reservation) (hat ▸ hholds) (by decide)
  · rw [h.lost r y hr hholds hx, Option.filter_none]

include hspec hscheme hperm hA

/-- Whether the byte had been changed before or not, it is then as one update leaves it. -/
theorem State.SpeculatesTo.bytes_writePte {y : Nat}
    (hy : (x.writePte lf.addr (setNeeded false lf.pte)).mem.read y ≠ s.mem.read y) :
    s.cfg.aSpeculative = true ∧ s.cfg.adScheme = .update ∧
      (x.writePte lf.addr (setNeeded false lf.pte)).mem.read y = s.mem.read y ||| 0x40#8 ∧ s.MayBeAccessed y := by
  rw [h.read_writePte hw] at hy ⊢
  by_cases hat : y = machineAddr s.cfg lf.addr
  · have hcfg := h.marks.cfg
    refine ⟨hcfg ▸ hspec, hcfg ▸ hscheme, ?_, hat ▸ h.mayBeAccessed hw hperm hA⟩
    rw [if_pos hat]
    by_cases hx : x.mem.read y = s.mem.read y
    · rw [hx]
    · obtain ⟨-, -, hx', -⟩ := h.bytes y hx
      rw [hx', BitVec.or_assoc, BitVec.or_self]
  · rw [if_neg hat] at hy ⊢
    exact h.bytes y hy

theorem State.SpeculatesTo.writePte : s.SpeculatesTo (x.writePte lf.addr (setNeeded false lf.pte)) := by
  obtain ⟨place, kind, inMemory, -⟩ := walk_leaf hw
  have hmarks := onlyMarks_writePte false h.memCanonical hscheme place kind inMemory
  refine ⟨h.marks.trans hmarks, h.checks, wf_physWrite h.memCanonical _ _ _,
    fun y hy => h.bytes_writePte hspec hscheme hw hperm hA hy, ?_,
    fun r y hr hholds hy => h.lost_writePte hw hr hholds hy⟩
  rcases reservation_filter x.reservation fun r => !r.touched (machineAddr x.cfg lf.addr) 4 with he | he <;>
    rw [writePte_reservation, he]
  · exact h.reservation
  · exact .inr rfl

end Write

/-! ## All that comes before a step -/

/-- The cache and the counter play no part. -/
theorem State.SpeculatesTo.of_eq {s x y : State} (h : s.SpeculatesTo x) {l : List TlbEntry} {n : Nat}
    (hy : y = { x with tlb := l, free := n }) : s.SpeculatesTo y := by
  subst hy
  exact ⟨h.marks.trans (.of_eq rfl rfl rfl), h.checks, h.memCanonical, h.bytes, h.reservation, h.lost⟩

/-- What the hart does of its own accord is a number of speculative updates, and fills of its cache. -/
theorem speculatesTo_beforeStep {s : State} (hm : s.mem.wf = true) : s.SpeculatesTo s.beforeStep := by
  have hspec : s.SpeculatesTo s.speculate := by
    refine speculate_induction (.refl hm) fun x a hx => ?_
    rcases speculateOne_cases x a with ⟨l, he⟩ | ⟨lf, l, hspec, hscheme, hw, hperm, hA, he⟩
    · exact hx.of_eq he
    · exact (hx.writePte hspec hscheme hw hperm hA).of_eq he
  exact hspec.of_eq rfl

/-- A step of speculation alone is one of a hart that speculates, under Sv32 (R127). -/
theorem speculativeStep_on {s : State} (h : s.speculativeStep = true) :
    s.cfg.aSpeculative = true ∧ s.cfg.adScheme = .update ∧ s.satp.mode = .sv32 := by
  simp only [State.speculativeStep, Bool.and_eq_true, decide_eq_true_eq] at h
  obtain ⟨⟨⟨hspec, hscheme⟩, hmode⟩, -⟩ := h
  exact ⟨hspec, hscheme, hmode⟩

/-- Settles O11: the bytes and the reservation by what speculation keeps on its way; under Bare no byte changes. -/
theorem speculationSetsOnlyAccessedBits : Obligations.SpeculationSetsOnlyAccessedBits := by
  intro s hm
  have hto := speculatesTo_beforeStep hm
  refine ⟨?_, fun x hx => ?_, hto.reservation, hto.lost, ?_⟩
  · obtain ⟨m, l, r, -, he⟩ := beforeStep_eq s
    exact ⟨m, l, r, he⟩
  · obtain ⟨hspec, hscheme, hread, hflag⟩ := hto.bytes x hx
    refine ⟨hspec, hscheme, ?_, hread, hflag⟩
    cases hmode : s.satp.mode with
    | sv32 => rfl
    | bare => exact absurd (by rw [beforeStep_mem_of_off (.inr (.inr hmode))]) hx
  · rw [step_eq s]
    cases hs : s.speculativeStep with
    | true => exact .inl ⟨rfl, speculativeStep_on hs⟩
    | false => exact .inr rfl

end Sys2Proof.Machine
end

section
/-! # O59: where control goes
A trap, the update of a leaf and an instruction run to its end each move `mode` and `pc` in a way of their own, and
nothing else that a step is made of moves them. -/

namespace Sys2Proof.Machine

/-- How the hart's own step moves control from `c` to `t` (R164, R131, R180): on to the next instruction; not at all, where
it is a PTE update; or into a trap handler. -/
def ControlMoves (c t : State) : Prop :=
  (t.mode = c.mode ∧ t.pc = c.pc + 4#32) ∨
  (t.mode = c.mode ∧ t.pc = c.pc ∧ t.regs = c.regs ∧ t.pending ≠ none ∧ c.cfg.adScheme = .update) ∨
  (c.mode ≠ .machine ∧ TrappedToSupervisor c t) ∨ TrappedToMachine c t

/-- A trap goes to S-mode where it is delegated, which no trap from M-mode is, and else to M-mode (R180). -/
theorem controlMoves_takeTrap (c : State) (k : TrapKind) (v : Word) : ControlMoves c (c.takeTrap k v) := by
  unfold State.takeTrap
  split
  · rename_i hdelegated
    simp only [State.delegates, Bool.and_eq_true, decide_eq_true_eq] at hdelegated
    exact .inr (.inr (.inl ⟨hdelegated.1, rfl, rfl, rfl, rfl⟩))
  · exact .inr (.inr (.inr ⟨rfl, rfl, rfl, rfl⟩))

theorem UpdatesLeaf.controlMoves {c t : State} {job : Option Instr} {va : Word} {lf : Leaf} {d : Bool}
    (h : UpdatesLeaf c t job va lf d) : ControlMoves c t :=
  .inr (.inl (by simp [h.next, h.scheme]))

theorem Completed.controlMoves {i : Instr} {c t : State} (h : Completed i c t) : ControlMoves c t := by
  obtain ⟨-, hmode, -⟩ := h.system
  exact .inl ⟨hmode, h.pc⟩

theorem ExecNext.controlMoves {i : Instr} {c t : State} (h : ExecNext i c t) : ControlMoves c t := by
  cases h with
  | trap k v l _ h => exact h ▸ controlMoves_takeTrap (c.settled l) k v
  | updated p pa addr pte l a _ _ hl ht h =>
    obtain ⟨lf, d, hu⟩ := updatesLeaf_of_translate ht hl h
    exact hu.controlMoves
  | completed h => exact h.controlMoves

/-- The fetch traps, updates or is granted, and then its instruction runs from the same mode, `pc` and registers. -/
theorem StepNext.controlMoves {c t : State} (h : StepNext c t) : ControlMoves c t := by
  cases h with
  | fetchTrap k l _ h => exact h ▸ controlMoves_takeTrap (c.settled l) k _
  | fetchUpdated p pa addr pte l _ hl ht h =>
    obtain ⟨lf, d, hu⟩ := updatesLeaf_of_translate ht hl h
    exact hu.controlMoves
  | run i a l _ _ _ _ _ h => exact (exec_next h).controlMoves
  | resumed i va pa _ h => exact (exec_next h).controlMoves

/-- What the hart does of its own accord touches nothing that says where control goes. -/
theorem controlMoves_of_beforeStep {s t : State} (h : ControlMoves s.beforeStep t) : ControlMoves s t := by
  obtain ⟨m, l, r, -, hbefore⟩ := beforeStep_eq s
  rw [hbefore] at h
  exact h

/-- Settles O59: a step is one of speculation alone, which moves nothing, or the hart's own. -/
theorem onlyExceptionsDivertControl : Obligations.OnlyExceptionsDivertControl := by
  intro s t h
  rcases step_next h with ⟨hspec, rfl⟩ | ⟨-, hnext⟩
  · obtain ⟨-, hregs, hpc, hmode, -, hpending⟩ := beforeStep_fields s
    obtain ⟨hspeculates, hscheme, -⟩ := speculativeStep_on hspec
    exact .inr (.inr (.inl ⟨hmode, hpc, hregs, hpending, hspeculates, hscheme, rfl⟩))
  · rcases controlMoves_of_beforeStep hnext.controlMoves with hnextPc | hupdate | htrap
    · exact .inl hnextPc
    · exact .inr (.inl hupdate)
    · exact .inr (.inr (.inr htrap))

end Sys2Proof.Machine
end

section
/-! # O35: what becomes of an access -/

namespace Sys2Proof.Machine

/-- An exception of an access leaves the state as it was but for the pending access and the cache (R180). -/
theorem grant_trap_state {s s1 : State} {job : Option Instr} {va : Word} {n : Nat} {t : AccessType}
    {dirty checked : Bool} {k : TrapKind} (h : s.grant job va n t dirty checked = .trap k s1) :
    ∃ l, s1 = s.settled l := by
  rcases grant_cases s job va n t dirty checked with ⟨r, h'⟩ | ⟨k', l, -, h', -⟩ |
    ⟨p, pa, addr, pte, l, -, -, -, h'⟩ | ⟨p, pa, l, -, -, -, -, -, -, h'⟩ <;> rw [h'] at h <;> cases h
  exact ⟨l, rfl⟩

/-- An access fault of the translation, at a PTE that PMP denies, is one of the access, in the state before (R176). -/
theorem grant_of_translate_accessFault {s : State} {va : Word} {n : Nat} {t : AccessType} {p : Privilege} {dirty : Bool}
    (hatt : s.Attempts va n p) (h : s.translate va t p dirty = .accessFault) (job : Option Instr) (checked : Bool) :
    s.grant job va n t dirty checked = .trap (accessFaultOf t) s := by
  rw [grant_of_attempts hatt, State.grantFresh, h]

/-- Settles O35: the instruction answers what its grant is, and a grant traps as the translation fails. -/
theorem accessDecidesTheOutcome : Obligations.AccessDecidesTheOutcome := by
  refine ⟨fun s i a ha hw => ⟨fun r hg => exec_of_grant_refused ha hw hg, fun s1 hg => exec_of_grant_updated ha hw hg,
    fun k s1 hg => ?_⟩, fun s job va n t p dirty checked hatt => ?_⟩
  · have hexec := exec_of_grant_trap ha hw hg
    have hkind := grant_trap_kind hg
    obtain ⟨l, rfl⟩ := grant_trap_state hg
    exact ⟨hexec, hkind, rfl, rfl, rfl, rfl, by simp [SameSystem]⟩
  · have hpage := fun h : s.translate va t p dirty = .pageFault => grant_of_translate_pageFault hatt h job checked
    have haccess := fun h : s.translate va t p dirty = .accessFault => grant_of_translate_accessFault hatt h job checked
    exact ⟨hpage, haccess, fun hwalks h => hpage ((translate_of_walks hwalks ..).trans h),
      fun hwalks h => haccess ((translate_of_walks hwalks ..).trans h)⟩

end Sys2Proof.Machine
end

section
/-! # O43 to O49: what an instruction does once its access is granted
A granted access leaves the state as it was but for the pending access and the cache. So each of the nineteen
instructions that make one ends alike: a value in `rd`, a memory, a reservation, and `pc + 4`. Which, is said once for
the loads, the stores, LR, SC and the AMOs. -/

namespace Sys2Proof.Machine

/-- The outcome of an instruction whose access was granted in `s` (R162, R164): a next state with `v` in `rd`, memory `m`
and reservation `x`, and all else that `AdvancesFrom` names as it says. -/
def Performs (o : Outcome) (s : State) (rd : Reg) (v : Word) (m : Memory) (x : Option Reservation) : Prop :=
  ∃ t, o = .next t ∧ AdvancesFrom s t ∧ t.mem = m ∧ t.reservation = x ∧
    ∀ r, t.readReg r = if r = rd ∧ r ≠ 0#5 then v else s.readReg r

/-- A refill changes no cache that a hart does not have. -/
theorem Refilled.sameCache {s : State} {l : List TlbEntry} (h : Refilled s l) (hc : s.cfg.translationCache = false) :
    l = s.tlb := by
  rcases h with rfl | ⟨va, rfl⟩
  · rfl
  · rw [fillCache_off (s := { s with pending := none }) hc]

/-- The one state all these instructions answer, from the state a granted access is performed in. -/
theorem performs_settled {s : State} {l : List TlbEntry} (hl : Refilled s l) (rd : Reg) (v : Word) (m : Memory)
    (x : Option Reservation) :
    Performs (.next { ({ s.settled l with mem := m }.writeReg rd v) with reservation := x }.advance) s rd v m x := by
  refine ⟨_, rfl, ⟨by simp, by simp [SameSystem], by simp, fun hc => by simpa using hl.sameCache hc⟩, by simp, by simp,
    fun r => ?_⟩
  have hx0 : (r = rd ∧ rd ≠ 0#5) ↔ (r = rd ∧ r ≠ 0#5) := and_congr_right fun h => h ▸ Iff.rfl
  exact (readReg_writeReg { s.settled l with mem := m } rd r v).trans (if_congr hx0 rfl rfl)

/-- A register write does not touch the reservation. -/
theorem writeReg_with_reservation (s : State) (r : Reg) (v : Word) :
    { s.writeReg r v with reservation := s.reservation } = s.writeReg r v := by
  unfold State.writeReg
  split <;> rfl

section Granted
variable {s s1 : State} {i : Instr} {ea : Word} {n a : Nat}

/-- The loads: the value extended into `rd` (R141-R145). -/
theorem load_performs (hg : s.grant (some i) ea n .load true true = .granted a s1) (rd : Reg) (extend : Word → Word) :
    Performs (load i rd ea n extend s) s rd (extend (physRead s.mem a n)) s.mem s.reservation := by
  rw [load, hg, andThen_granted]
  obtain ⟨-, -, l, -, -, rfl, hl, -⟩ := grant_granted hg
  rw [← writeReg_with_reservation]
  exact performs_settled hl ..

/-- The stores: the low bytes of the value in memory, and no register (R146-R148). -/
theorem store_performs (hg : s.grant (some i) ea n .store true true = .granted a s1) (v : Word) :
    Performs (store i ea n v s) s 0#5 0#32 (physWrite s.mem a n v) s.reservation := by
  rw [store, hg, andThen_granted]
  obtain ⟨-, -, l, -, -, rfl, hl, -⟩ := grant_granted hg
  exact performs_settled hl 0#5 0#32 (physWrite s.mem a n v) s.reservation

/-- The AMOs: `op old x[rs2]` in memory, the old word in `rd` (R151-R159). -/
theorem amo_performs {rs1 : Reg} (hA : s.cfg.hasA = true)
    (hg : s.grant (some i) (s.readReg rs1) 4 .store true true = .granted a s1) (op : Word → Word → Word) (rd rs2 : Reg) :
    Performs (amo i op rd rs2 rs1 s) s rd (physRead s.mem a 4)
      (physWrite s.mem a 4 (op (physRead s.mem a 4) (s.readReg rs2))) s.reservation := by
  simp only [amo, withAtomics_on hA, hg, andThen_granted]
  obtain ⟨-, -, l, -, -, rfl, hl, -⟩ := grant_granted hg
  rw [← writeReg_with_reservation]
  exact performs_settled hl ..

/-- LR: the word in `rd`, and a reservation of it (R149). -/
theorem execLrW_performs {rd rs1 : Reg} {aq rl : Bool} (hA : s.cfg.hasA = true)
    (hg : s.grant (some (.lrW rd rs1 aq rl)) (s.readReg rs1) 4 .load true true = .granted a s1) :
    Performs (execLrW rd rs1 aq rl s) s rd (physRead s.mem a 4) s.mem
      (some ⟨s.readReg rs1, a, Config.reservationExtent s.free⟩) := by
  simp only [execLrW, withAtomics_on hA, hg, andThen_granted]
  obtain ⟨-, -, l, -, -, rfl, hl, -⟩ := grant_granted hg
  exact performs_settled hl ..

/-- SC: `x[rs2]` in memory and 0 in `rd` where the word is reserved, else 1 in `rd` alone; no reservation (R150). -/
theorem execScW_performs {rd rs2 rs1 : Reg} {aq rl : Bool} (hA : s.cfg.hasA = true)
    (hg : s.grant (some (.scW rd rs2 rs1 aq rl)) (s.readReg rs1) 4 .store
      (s.reserved (s.readReg rs1) || Config.failedScDirty s.free) (s.reserved (s.readReg rs1)) = .granted a s1) :
    Performs (execScW rd rs2 rs1 aq rl s) s rd (if s.reserved (s.readReg rs1) then 0#32 else 1#32)
      (if s.reserved (s.readReg rs1) then physWrite s.mem a 4 (s.readReg rs2) else s.mem) none := by
  simp only [execScW, withAtomics_on hA, hg, andThen_granted]
  obtain ⟨-, -, l, -, -, rfl, hl, -⟩ := grant_granted hg
  cases s.reserved (s.readReg rs1) <;> exact performs_settled hl ..

end Granted

/-! ## All of them complete -/

/-- Every instruction that makes an access completes once it is granted. -/
theorem exec_performs {s s1 : State} {i : Instr} {acc : Access} {a : Nat} (ha : s.accessOf i = some acc)
    (hw : Instr.wellFormed s.cfg i = true) (hg : s.grantOf i acc = .granted a s1) :
    ∃ rd v m x, Performs (exec i s) s rd v m x := by
  have hA : Instr.isAtomic i = true → s.cfg.hasA = true := fun h => by simpa [Instr.wellFormed, h] using hw
  cases i <;> cases ha
  case lb => exact ⟨_, _, _, _, load_performs hg ..⟩
  case lh => exact ⟨_, _, _, _, load_performs hg ..⟩
  case lw => exact ⟨_, _, _, _, load_performs hg ..⟩
  case lbu => exact ⟨_, _, _, _, load_performs hg ..⟩
  case lhu => exact ⟨_, _, _, _, load_performs hg ..⟩
  case sb => exact ⟨_, _, _, _, store_performs hg ..⟩
  case sh => exact ⟨_, _, _, _, store_performs hg ..⟩
  case sw => exact ⟨_, _, _, _, store_performs hg ..⟩
  case lrW => exact ⟨_, _, _, _, execLrW_performs (hA rfl) hg⟩
  case scW => exact ⟨_, _, _, _, execScW_performs (hA rfl) hg⟩
  all_goals
    simp only [exec, execAmoswapW, execAmoaddW, execAmoxorW, execAmoandW, execAmoorW, execAmominW, execAmomaxW,
      execAmominuW, execAmomaxuW]
    exact ⟨_, _, _, _, amo_performs (hA rfl) hg ..⟩

/-- Settles O43: what permits the access grants it, under Bare and by the walk. -/
theorem permittedAccessCompletes : Obligations.PermittedAccessCompletes := by
  intro s i acc p ha hw hatt hpermitted
  have hgranted : ∃ a, s.grantOf i acc = .granted a s := by
    rcases hpermitted with ⟨hbare, hpmp⟩ | ⟨hwalks, lf, hwalk, hperm, hpteA, hpteD, hpmp⟩
    · exact ⟨_, bareAccessIsGranted s (some i) _ _ _ p _ _ hbare hatt hpmp⟩
    · exact ⟨_, walkedAccessIsGranted s (some i) _ _ _ p _ _ lf hwalks hatt hwalk hperm hpteA hpteD hpmp⟩
  obtain ⟨a, hg⟩ := hgranted
  obtain ⟨rd, v, m, x, t, ht, hadvances, -⟩ := exec_performs ha hw hg
  exact ⟨t, ht, hadvances⟩

/-! ## Loads -/

/-- The byte at an address is the low byte of what a read there gives (R44). -/
theorem setWidth_physRead_byte (m : Memory) (a : Nat) : (physRead m a 1).setWidth 8 = m.read a := by
  apply BitVec.eq_of_toNat_eq
  have hbyte := (m.read a).isLt
  simp only [physRead, physReadNat, BitVec.toNat_setWidth, BitVec.toNat_ofNat]
  omega

/-- The halfword at an address is the low half of what a read there gives (R44). -/
theorem setWidth_physRead_half (m : Memory) (a : Nat) : (physRead m a 2).setWidth 16 = halfAt m a := by
  apply BitVec.eq_of_toNat_eq
  have hlow := (m.read a).isLt
  have hhigh := (m.read (a + 1)).isLt
  simp only [physRead, physReadNat, halfAt, BitVec.toNat_setWidth, BitVec.toNat_ofNat, BitVec.toNat_append]
  rw [← Nat.shiftLeft_add_eq_or_of_lt hlow, Nat.shiftLeft_eq]
  omega

/-- The word at an address is what a read of four bytes there gives (R44). -/
theorem physRead_eq_wordAt (m : Memory) (a : Nat) : physRead m a 4 = wordAt m a := physRead_word m a

theorem loadDoes {i : Instr} {rd : Reg} {ea : State → Word} {n : Nat} {extend : Word → Word}
    {value : Memory → Nat → Word} (hexec : ∀ s, exec i s = load i rd (ea s) n extend s)
    (hvalue : ∀ m a, extend (physRead m a n) = value m a) : LoadDoes i rd ea n value := by
  intro s a s1 hg
  obtain ⟨t, ht, hadvances, hmem, hres, hregs⟩ := load_performs hg rd extend
  exact ⟨t, (hexec s).trans ht, hadvances, hmem, hres, hvalue s.mem a ▸ hregs⟩

/-- Settles O44: the five loads differ in size and extension alone. -/
theorem loadsDeliverTheirBytes : Obligations.LoadsDeliverTheirBytes := fun rd rs1 imm =>
  ⟨loadDoes (fun _ => rfl) fun m a => by rw [sext8, setWidth_physRead_byte],
    loadDoes (fun _ => rfl) fun m a => by rw [sext16, setWidth_physRead_half],
    loadDoes (fun _ => rfl) physRead_eq_wordAt,
    loadDoes (fun _ => rfl) fun m a => by rw [zext8, setWidth_physRead_byte],
    loadDoes (fun _ => rfl) fun m a => by rw [zext16, setWidth_physRead_half]⟩

/-! ## Stores -/

theorem storeDoes {i : Instr} {rs2 : Reg} {ea : State → Word} {n : Nat}
    (hexec : ∀ s, exec i s = store i (ea s) n (s.readReg rs2) s) : StoreDoes i rs2 ea n := by
  intro s a s1 hm hg
  obtain ⟨t, ht, hadvances, hmem, hres, hregs⟩ := store_performs hg (s.readReg rs2)
  refine ⟨t, (hexec s).trans ht, hadvances, hres, fun r => ?_, fun k hk => ?_, fun x hx => ?_⟩
  · rw [hregs, if_neg fun h => h.2 h.1]
  · rw [hmem, read_physWrite_inside hm _ hk]
  · rw [hmem, read_physWrite_outside hm _ hx]

/-- Settles O45: the three stores differ in size alone. -/
theorem storesWriteTheirBytes : Obligations.StoresWriteTheirBytes := fun _ _ _ =>
  ⟨storeDoes fun _ => rfl, storeDoes fun _ => rfl, storeDoes fun _ => rfl⟩

/-! ## LR and SC -/

/-- A reservation contains the bytes of its own word (R149). -/
theorem Reservation.contains_word (r : Reservation) : r.contains r.word = true := by simp [Reservation.contains]

/-- A reservation contains no bytes of another virtual page (R58). -/
theorem Reservation.contains_page (r : Reservation) {ea : Word} (h : r.contains ea = true) :
    vpnOf ea = vpnOf r.word := by
  simp only [Reservation.contains, Bool.or_eq_true, Bool.and_eq_true, beq_iff_eq] at h
  rcases h with rfl | ⟨hpage, -⟩
  · rfl
  · exact hpage.symm

/-- A reservation holds the bytes of memory of its own word (R149). -/
theorem Reservation.holdsByte_word (r : Reservation) {k : Nat} (hk : k < 4) : r.holdsByte (r.addr + k) = true := by
  simp [Reservation.holdsByte, hk]

/-- A reservation whose word lies in one page holds no byte of another page of memory (R58). -/
theorem Reservation.holdsByte_page (r : Reservation) {x : Nat} (hpage : r.addr % 4096 + 4 ≤ 4096)
    (h : r.holdsByte x = true) : x / 4096 = r.addr / 4096 := by
  simp only [Reservation.holdsByte, pageSize, Bool.or_eq_true, Bool.and_eq_true, decide_eq_true_eq] at h
  rcases h with hword | ⟨hsame, -⟩
  · omega
  · exact of_decide_eq_true hsame

/-- The bytes an access is granted lie in one page of memory, in a state that keeps the invariant (R48, R32). -/
theorem granted_in_page {s s1 : State} {job : Option Instr} {va : Word} {n : Nat} {t : AccessType}
    {dirty checked : Bool} {a : Nat} (hi : s.Inv) (h : s.grant job va n t dirty checked = .granted a s1) :
    a % 4096 + n ≤ 4096 := by
  obtain ⟨p, pa, l, -, rfl, -, -, htr, hpage, -⟩ := grant_granted h
  have hoff : pa.extractLsb' 0 12 = pageOffset va := by
    rcases htr with hdone | hpending
    · exact translate_done_offset hdone
    · exact hi.pendingOffset _ hpending
  have hmod : pa.toNat % 4096 = (pageOffset va).toNat := by
    rw [← hoff]
    simp
  rwa [machineAddr_eq, hmod]

/-- Settles O46: the reservation is of the word at the granted address, whose four bytes lie in one page. -/
theorem loadReservedReserves : Obligations.LoadReservedReserves := by
  intro rd rs1 aq rl s a s1 hA hg
  obtain ⟨t, ht, hadvances, hmem, hres, hregs⟩ := execLrW_performs hA hg
  exact ⟨t, ⟨s.readReg rs1, a, Config.reservationExtent s.free⟩, ht, hadvances, hmem,
    physRead_eq_wordAt s.mem a ▸ hregs, hres, Reservation.contains_word ⟨_, _, _⟩,
    fun _ => Reservation.holdsByte_word ⟨_, _, _⟩, fun _ => Reservation.contains_page ⟨_, _, _⟩,
    fun hi _ => Reservation.holdsByte_page ⟨_, _, _⟩ (granted_in_page hi hg)⟩

/-- A word stored reads back (R44). -/
theorem wordAt_physWrite {m : Memory} (hm : m.wf = true) (a : Nat) (v : Word) : wordAt (physWrite m a 4 v) a = v := by
  rw [← physRead_eq_wordAt, physRead_physWrite_word hm]

/-- Settles O47: with the word reserved. -/
theorem storeConditionalSucceeds : Obligations.StoreConditionalSucceeds := by
  intro rd rs2 rs1 aq rl s a s1 hA hm hreserved hg
  obtain ⟨t, ht, hadvances, hmem, hres, hregs⟩ := execScW_performs hA (by rwa [hreserved, Bool.true_or])
  simp only [hreserved, if_true] at hmem hregs
  exact ⟨t, ht, hadvances, hres, hregs, hmem ▸ wordAt_physWrite hm .., fun x hx => hmem ▸ read_physWrite_outside hm _ hx⟩

/-- Settles O48: without the word reserved. -/
theorem storeConditionalFails : Obligations.StoreConditionalFails := by
  intro rd rs2 rs1 aq rl s a s1 hA hreserved hg
  obtain ⟨t, ht, hadvances, hmem, hres, hregs⟩ := execScW_performs hA (by rwa [hreserved, Bool.false_or])
  simp only [hreserved, Bool.false_eq_true, if_false] at hmem hregs
  exact ⟨t, ht, hadvances, hres, hmem, hregs⟩

/-! ## AMOs -/

theorem amoDoes {i : Instr} {rd rs2 rs1 : Reg} (op : Word → Word → Word) {spec : Word → Word → Word}
    (hexec : ∀ s, exec i s = amo i op rd rs2 rs1 s) (hop : ∀ old v, op old v = spec old v) :
    AmoDoes i rd rs2 rs1 spec := by
  intro s a s1 hm hA hg
  obtain ⟨t, ht, hadvances, hmem, hres, hregs⟩ := amo_performs hA hg op rd rs2
  rw [physRead_eq_wordAt, hop] at hmem
  exact ⟨t, (hexec s).trans ht, hadvances, hres, physRead_eq_wordAt s.mem a ▸ hregs, hmem ▸ wordAt_physWrite hm ..,
    fun x hx => hmem ▸ read_physWrite_outside hm _ hx⟩

/-! The model compares with `≤` where the statement compares with `<`: equal operands are one. -/

theorem minSigned_eq (a b : Word) : minSigned a b = if b.slt a then b else a := by
  simp only [minSigned, BitVec.slt, decide_eq_true_eq, ← Int.not_lt, ite_not]

theorem maxSigned_eq (a b : Word) : maxSigned a b = if a.slt b then b else a := by
  simp only [maxSigned, BitVec.slt, decide_eq_true_eq]
  split <;> split
  · rfl
  · exact BitVec.eq_of_toInt_eq (by omega)
  · omega
  · rfl

theorem minUnsigned_eq (a b : Word) : minUnsigned a b = if b.ult a then b else a := by
  simp only [minUnsigned, BitVec.ult, decide_eq_true_eq, ← Nat.not_lt, ite_not]

theorem maxUnsigned_eq (a b : Word) : maxUnsigned a b = if a.ult b then b else a := by
  simp only [maxUnsigned, BitVec.ult, decide_eq_true_eq]
  split <;> split
  · rfl
  · exact BitVec.eq_of_toNat_eq (by omega)
  · omega
  · rfl

/-- Settles O49: the nine AMOs differ in their operation alone. -/
theorem amosReadModifyWrite : Obligations.AmosReadModifyWrite := fun _ _ _ _ _ =>
  ⟨amoDoes (fun _ v => v) (fun _ => rfl) fun _ _ => rfl,
    amoDoes (fun old v => old + v) (fun _ => rfl) fun _ _ => BitVec.add_def ..,
    amoDoes (fun old v => old ^^^ v) (fun _ => rfl) fun _ _ => rfl,
    amoDoes (fun old v => old &&& v) (fun _ => rfl) fun _ _ => rfl,
    amoDoes (fun old v => old ||| v) (fun _ => rfl) fun _ _ => rfl,
    amoDoes minSigned (fun _ => rfl) minSigned_eq,
    amoDoes maxSigned (fun _ => rfl) maxSigned_eq,
    amoDoes minUnsigned (fun _ => rfl) minUnsigned_eq,
    amoDoes maxUnsigned (fun _ => rfl) maxUnsigned_eq⟩

end Sys2Proof.Machine
end

section
/-! # O50, O51 and O52: the fences -/

namespace Sys2Proof.Machine

/-- Settles O50: FENCE is the advance of `pc`. -/
theorem fenceOnlyAdvances : Obligations.FenceOnlyAdvances := fun _ _ _ _ _ _ => rfl

/-- In U-mode SFENCE.VMA is an illegal instruction (R161). -/
theorem execSfenceVma_user {s : State} (h : s.mode = .user) (rs1 rs2 : Reg) :
    execSfenceVma rs1 rs2 s = .next (s.takeTrap .illegalInstruction (Config.illegalTval s.free)) := by
  simp only [execSfenceVma, h]

/-- Outside U-mode SFENCE.VMA flushes the cache (R161). -/
theorem execSfenceVma_not_user {s : State} (h : s.mode ≠ .user) (rs1 rs2 : Reg) :
    execSfenceVma rs1 rs2 s = .next (s.flushCache (if rs1 = 0#5 then none else some (s.readReg rs1))
      (if rs2 = 0#5 then none else some (s.readReg rs2))).advance := by
  unfold execSfenceVma
  split
  · contradiction
  · rfl

/-- Settles O52: the trap value is the free one. -/
theorem sfenceTrapsInUserMode : Obligations.SfenceTrapsInUserMode := fun rs1 rs2 _ hmode =>
  ⟨_, execSfenceVma_user hmode rs1 rs2⟩

/-- Which addresses a cached PTE is for: those of its megapage where it is a leaf of level 1, else of its page. -/
theorem covers_iff {e : TlbEntry} {va : Word} : e.covers va = true ↔
    if e.level ≠ 0 ∧ pteV e.pte = true ∧ (pteR e.pte = true ∨ pteW e.pte = true ∨ pteX e.pte = true)
      then e.vpn.extractLsb' 10 10 = va.extractLsb' 22 10 else e.vpn = vpnOf va := by
  unfold TlbEntry.covers
  split <;> simp only [beq_iff_eq]

/-- A cached PTE is not global where neither the pointer before it nor, if it is valid, the PTE itself has G (R109). -/
theorem global_eq_false_iff {e : TlbEntry} :
    e.global = false ↔ e.above = false ∧ (pteV e.pte = true → pteG e.pte = false) := by
  simp [TlbEntry.global]

/-- What an SFENCE.VMA with these operands removes: each operand names everything where it is `x0` (R161, R62). -/
theorem flushed_iff {e : TlbEntry} {c : Config} {rs1 rs2 : Reg} {va asid : Word} :
    e.flushed c (if rs1 = 0#5 then none else some va) (if rs2 = 0#5 then none else some asid) = true ↔
      (rs1 = 0#5 ∨ e.covers va = true) ∧
      (rs2 = 0#5 ∨ (e.global = false ∧ e.asid = implementedAsid c (asid.setWidth 9))) := by
  by_cases h1 : rs1 = 0#5 <;> by_cases h2 : rs2 = 0#5 <;> simp [TlbEntry.flushed, h1, h2]

/-- What an SFENCE.VMA leaves in the cache is what it does not name. -/
theorem mem_flushCache {s : State} {va asid : Option Word} {e : TlbEntry} :
    e ∈ (s.flushCache va asid).tlb ↔ e ∈ s.tlb ∧ ¬e.flushed s.cfg va asid = true := by
  simp [State.flushCache]

/-- Settles O51: the operands name what the statement says they name. -/
theorem sfenceFlushesWhatItNames : Obligations.SfenceFlushesWhatItNames := by
  intro rs1 rs2 s hmode
  refine ⟨_, execSfenceVma_not_user hmode rs1 rs2, fun e => ?_⟩
  rw [mem_flushCache, flushed_iff, covers_iff, global_eq_false_iff, and_assoc]

end Sys2Proof.Machine
end

section
/-! # O8 and O36: the fetch -/

namespace Sys2Proof.Machine

/-- On a hart without a cache speculation leaves the cache as it is, for it fills none. -/
theorem beforeStep_tlb_of_no_cache {s : State} (h : s.cfg.translationCache = false) : s.beforeStep.tlb = s.tlb := by
  refine (speculate_induction (P := fun x => x.cfg = s.cfg ∧ x.tlb = s.tlb) ⟨rfl, rfl⟩ ?_).2
  rintro x a ⟨hcfg, htlb⟩
  have hset : (x.setAccessed a).cfg = s.cfg ∧ (x.setAccessed a).tlb = s.tlb := by
    rcases setAccessed_cases x a with he | ⟨lf, -, -, -, he⟩ <;> rw [he] <;> exact ⟨hcfg, htlb⟩
  unfold State.speculateOne
  split
  · rwa [fillCache_off (hset.1 ▸ h)]
  · rw [fillCache_off (hcfg ▸ h)]
    exact ⟨hcfg, htlb⟩

/-- Four bytes that decode are those of a word that does (R75). -/
theorem decodeWord_of_decode {m : Memory} {a : Nat} {i : Instr}
    (h : decode [m.read a, m.read (a + 1), m.read (a + 2), m.read (a + 3)] = .ok (i, [])) :
    decodeWord (physRead m a 4) = .ok i := by
  rw [physRead_word]
  simp only [decode] at h
  split at h
  · rename_i hword
    cases h
    exact hword
  · cases h

/-- A word that decodes is run as its instruction. -/
theorem runWord_ok {w : Word} {i : Instr} (h : decodeWord w = .ok i) (run : Instr → State → Outcome) (s : State) :
    runWord run w s = run i s := by
  simp only [runWord, h]

/-- Settles O8: the state after the fetch is that before it, with nothing pending and perhaps the cache filled. -/
theorem stepRunsTheFetchedInstruction : Obligations.StepRunsTheFetchedInstruction := by
  intro s i a s1 hq hpc hg hdecode
  have hstep := stepAnswers_of_granted_fetch hq hpc hg
  rw [runWord_ok (decodeWord_of_decode hdecode)] at hstep
  obtain ⟨-, -, l, -, -, rfl, hl, -⟩ := grant_granted hg
  obtain ⟨hcfg, hregs, hpc', -, -, -⟩ := beforeStep_fields s
  refine ⟨hstep, rfl, hregs, hpc', rfl, rfl, ?_, fun hc => ?_⟩
  · obtain ⟨m, l', r, -, hbefore⟩ := beforeStep_eq s
    simp [SameSystem, hbefore]
  · exact (hl.sameCache (hcfg ▸ hc)).trans (beforeStep_tlb_of_no_cache hc)

/-- Settles O36: the exception of the fetch leaves the state but for the pending access and the cache. -/
theorem fetchFaultTakesItsTrap : Obligations.FetchFaultTakesItsTrap := by
  intro s k s1 hq hpc hg
  have hstep := stepAnswers_of_fetch_trap hq hpc hg
  have hkind := grant_trap_kind hg
  obtain ⟨l, rfl⟩ := grant_trap_state hg
  obtain ⟨-, hregs, hpc', -, -, -⟩ := beforeStep_fields s
  exact ⟨hstep, hkind, hregs, rfl, hpc'⟩

end Sys2Proof.Machine
end

section
/-! # O34: PMP denials
Each place where an access asks PMP answers a denial with the access fault of the access's own type: the reads of the
walk, the write of an update, and the access itself, new or pending. Nothing else answers one. -/

namespace Sys2Proof.Machine

/-! ## What a denial does -/

/-- A leaf that an update would have to write, but that PMP does not let be written, fails the translation (R41). -/
theorem useLeaf_update_denied {s : State} {t : AccessType} {p : Privilege} {dirty : Bool} {lf : Leaf}
    (hs : s.cfg.adScheme = .update) (hperm : s.leafPermits t p lf = true) (hbits : needsUpdate t dirty lf.pte = true)
    (hpmp : pmpCheck s.cfg lf.addr 4 .store .S = false) (va : Word) : s.useLeaf va t p dirty lf = .accessFault := by
  simp [State.useLeaf, hs, hperm, hbits, hpmp]

/-- A new access that is translated and then refused by PMP is an access fault of its type, once the cache has taken up
what the translation read (R40, R176). -/
theorem grant_of_access_denied {s : State} {va : Word} {n : Nat} {t : AccessType} {p : Privilege} {dirty : Bool}
    {pa : PhysAddr} (hatt : s.Attempts va n p) (htr : s.translate va t p dirty = .done pa)
    (hpmp : pmpCheck s.cfg pa n t p = false) (job : Option Instr) :
    s.grant job va n t dirty true = .trap (accessFaultOf t) (s.fillCache va) := by
  have hpmp' : pmpCheck (s.fillCache va).cfg pa n t p = false := by rwa [fillCache_cfg]
  rw [grant_of_attempts hatt, State.grantFresh, htr]
  exact checkPmp_denied hpmp'

/-- On a walking hart an access whose walk PMP stops is an access fault of its type, in the state before (R93, R176). -/
theorem grant_of_walk_accessFault {s : State} {va : Word} {n : Nat} {p : Privilege} (hwalks : s.Walks)
    (hatt : s.Attempts va n p) (hwalk : s.walk va = .accessFault) (job : Option Instr) (t : AccessType)
    (dirty checked : Bool) : s.grant job va n t dirty checked = .trap (accessFaultOf t) s := by
  refine grant_of_translate_accessFault (dirty := dirty) hatt ?_ job checked
  rw [translate_of_walks hwalks, translateByWalk_sv32 hwalks.1, hwalk, useWalk_accessFault]

/-! ## Where nothing is denied -/

theorem pmpCheck_of_no_denial {c : Config} (h : c.pmpDenied = []) (pa : PhysAddr) (n : Nat) (t : AccessType)
    (p : Privilege) : pmpCheck c pa n t p = true := by
  simp [pmpCheck, h]

/-- A PTE that PMP lets be read is whatever its kind makes it (R95). -/
theorem examinePte_ne_accessFault {c : Config} {addr : PhysAddr} (h : pmpCheck c addr 4 .load .S = true) (m : Memory)
    (level : Nat) : examinePte c m level addr ≠ .accessFault := by
  cases hk : pteKind c level (physRead m (machineAddr c addr) 4) <;> simp [examinePte, h, hk]

/-- Down from any level, each PTE of the walk can be read. -/
theorem walkFrom_ne_accessFault {c : Config} (h : c.pmpDenied = []) (m : Memory) (va : Word) (level : Nat) (table : Ppn)
    (global : Bool) : walkFrom c m va level table global ≠ .accessFault := by
  have hread := fun level table =>
    examinePte_ne_accessFault (pmpCheck_of_no_denial h (pteAddr table (vpnIndex va level)) ..) m level
  induction level generalizing table global with
  | zero =>
    rw [walkFrom]
    split
    case h_4 he => exact absurd he (hread 0 table)
    all_goals nofun
  | succ level ih =>
    rw [walkFrom]
    split
    case h_2 => exact ih _ _
    case h_4 he => exact absurd he (hread (level + 1) table)
    all_goals nofun

section Undenied
variable {s : State} (h : s.cfg.pmpDenied = [])
include h

/-- A walk goes on in memory from the root or from a cached PTE, or ends at the cached PTE itself. -/
theorem lookup_ne_accessFault (va : Word) (t : AccessType) (p : Privilege) (dirty : Bool) :
    s.lookup va t p dirty ≠ .accessFault := by
  rcases lookup_cases s va t p dirty with hl | ⟨-, e, -, -, hl⟩ <;> rw [hl]
  · exact walkFrom_ne_accessFault h _ _ _ _ _
  · rcases walkCached_cases s va t p dirty e with ⟨-, hc⟩ | ⟨-, hc⟩ | ⟨-, -, -, -, hc⟩ | ⟨-, -, hc⟩ <;> rw [hc]
    · nofun
    · exact walkFrom_ne_accessFault h _ _ _ _ _
    · exact walkFrom_ne_accessFault h _ _ _ _ _
    · nofun

theorem useLeaf_ne_accessFault (va : Word) (t : AccessType) (p : Privilege) (dirty : Bool) (lf : Leaf) :
    s.useLeaf va t p dirty lf ≠ .accessFault := by
  have hpmp := pmpCheck_of_no_denial h lf.addr 4 .store .S
  cases hperm : s.leafPermits t p lf with
  | false => simp [useLeaf_denied hperm]
  | true =>
    cases hbits : needsUpdate t dirty lf.pte with
    | false => simp [useLeaf_done hperm hbits]
    | true =>
      cases hs : s.cfg.adScheme with
      | fault => simp [useLeaf_schemeFault hs hbits]
      | update => simp [useLeaf_update hs hperm hbits hpmp]

theorem translate_ne_accessFault (va : Word) (t : AccessType) (p : Privilege) (dirty : Bool) :
    s.translate va t p dirty ≠ .accessFault := by
  cases hmode : s.satp.mode with
  | bare => simp [translate_bare hmode]
  | sv32 =>
    rw [translate_sv32 hmode]
    cases hl : s.lookup va t p dirty with
    | pageFault => nofun
    | accessFault => exact absurd hl (lookup_ne_accessFault h va t p dirty)
    | leaf lf => exact useLeaf_ne_accessFault h va t p dirty lf

/-- The one exception of a new access is that of a translation that ends in a page fault (R115). -/
theorem grantFresh_trap_of_no_denial {job : Option Instr} {va : Word} {n : Nat} {t : AccessType} {p : Privilege}
    {dirty checked : Bool} {k : TrapKind} {s1 : State} (hg : s.grantFresh job va n t p dirty checked = .trap k s1) :
    k = pageFaultOf t := by
  unfold State.grantFresh at hg
  cases htr : s.translate va t p dirty <;> simp only [htr] at hg
  case pageFault =>
    cases hg
    rfl
  case accessFault => exact absurd htr (translate_ne_accessFault h va t p dirty)
  case update => cases hg
  case done pa =>
    have hpmp : pmpCheck (s.fillCache va).cfg pa n t p = true := pmpCheck_of_no_denial (by rwa [fillCache_cfg]) ..
    rw [checkPmp_granted fun _ => hpmp] at hg
    cases hg

/-- An access that goes on at its pending address raises nothing; any other is a new one. -/
theorem resolve_trap_of_no_denial {job : Option Instr} {va : Word} {n : Nat} {t : AccessType} {p : Privilege}
    {dirty checked : Bool} {k : TrapKind} {s1 : State} (hg : s.resolve job va n t p dirty checked = .trap k s1) :
    k = pageFaultOf t := by
  unfold State.resolve at hg
  split at hg
  · split at hg
    · rw [checkPmp_granted (s := { s with pending := none }) fun _ => pmpCheck_of_no_denial h ..] at hg
      cases hg
    · exact grantFresh_trap_of_no_denial (s := { s with pending := none }) h hg
  · exact grantFresh_trap_of_no_denial h hg

theorem grant_trap_of_no_denial {job : Option Instr} {va : Word} {n : Nat} {t : AccessType} {dirty checked : Bool}
    {k : TrapKind} {s1 : State} (hg : s.grant job va n t dirty checked = .trap k s1) : k = pageFaultOf t := by
  unfold State.grant at hg
  split at hg
  · cases hg
  · split at hg
    · cases hg
    · split at hg
      · cases hg
      · exact resolve_trap_of_no_denial h hg

end Undenied

/-- Settles O34: a clause for each place where PMP is asked, and the last for a hart that denies nothing. -/
theorem pmpDenialRaisesAccessFault : Obligations.PmpDenialRaisesAccessFault := by
  refine ⟨fun s job va n t p dirty checked hwalks hatt hdenial => ?_,
    fun s job va n t p dirty hbare hatt hpmp => ?_, fun s job va n t p dirty pa hatt htr hpmp => ?_,
    fun s job va n t p dirty pa ⟨hpage, hal, hpriv, _⟩ hq hpmp => ?_,
    fun s job va n t dirty checked k s1 h hg => grant_trap_of_no_denial h hg⟩
  · rcases hdenial with hroot | ⟨hroot, hptr, hnext⟩ | ⟨lf, hwalk, hperm, hbits, hs, hpmp⟩ | ⟨pa, rfl, htr, hpmp⟩
    · exact grant_of_walk_accessFault hwalks hatt (walk_of_root_denied hroot) ..
    · exact grant_of_walk_accessFault hwalks hatt (walk_of_next_denied hroot hptr hnext) ..
    · refine grant_of_translate_accessFault (dirty := dirty) hatt ?_ job checked
      rw [translate_of_walks hwalks, translateByWalk_sv32 hwalks.1, hwalk, useWalk_leaf,
        useLeaf_update_denied hs hperm (needsUpdate_eq_true_iff.2 hbits) hpmp]
    · rw [grant_of_access_denied hatt ((translate_of_walks hwalks ..).trans htr) hpmp, fillCache_off hwalks.2]
  · rw [grant_of_access_denied hatt (translate_bare hbare ..) hpmp, fillCache_bare hbare]
  · obtain ⟨l, hfill⟩ := fillCache_eq s va
    exact ⟨l, by rw [grant_of_access_denied hatt htr hpmp, hfill]⟩
  · rw [grant_of_pending (s := s) hpage hal hpriv hq]
    exact checkPmp_denied hpmp

end Sys2Proof.Machine
end

section
/-! # O37, O38 and O39: taking an exception and returning from one -/

namespace Sys2Proof.Machine

/-- When a trap goes to S-mode (R180). -/
theorem delegates_iff {s : State} {k : TrapKind} :
    s.delegates k = true ↔ s.mode ≠ .machine ∧ s.medeleg.getLsbD k.code = true := by
  simp [State.delegates]

/-- A trap that is delegated is taken into S-mode. -/
theorem takeTrap_of_delegates {s : State} {k : TrapKind} (h : s.delegates k = true) (v : Word) :
    s.takeTrap k v =
      { s with
        sepc := s.pc, scause := BitVec.ofNat 32 k.code, stval := v
        spp := decide (s.mode = .supervisor), spie := s.sie, sie := false
        mode := .supervisor, pc := vectorBase s.stvec, pending := none } := by
  rw [State.takeTrap, if_pos h]

/-- Any other trap is taken into M-mode. -/
theorem takeTrap_of_not_delegates {s : State} {k : TrapKind} (h : ¬s.delegates k = true) (v : Word) :
    s.takeTrap k v =
      { s with
        mepc := s.pc, mcause := BitVec.ofNat 32 k.code, mtval := v
        mpp := s.mode, mpie := s.mie, mie := false
        mode := .machine, pc := vectorBase s.mtvec, pending := none } := by
  rw [State.takeTrap, if_neg h]

/-- Settles O37: the mode and the delegation decide which of the two states follows. -/
theorem trapEntry : Obligations.TrapEntry := by
  refine fun s k v => ⟨fun hmode hdeleg => takeTrap_of_delegates (delegates_iff.2 ⟨hmode, hdeleg⟩) v, fun hstays => ?_⟩
  refine takeTrap_of_not_delegates (fun hdelegates => ?_) v
  obtain ⟨hmode, hdeleg⟩ := delegates_iff.1 hdelegates
  rcases hstays with hmachine | hkept
  · exact hmode hmachine
  · rw [hdeleg] at hkept
    cases hkept

/-- Settles O38: the mode that SPP holds is the trapped one, for no trap from M-mode is delegated. -/
theorem trapReturnRestores : Obligations.TrapReturnRestores := by
  intro s k v hdelegates
  obtain ⟨hmode, -⟩ := delegates_iff.1 hdelegates
  rw [takeTrap_of_delegates hdelegates]
  refine ⟨?_, rfl, rfl, rfl, rfl⟩
  cases hm : s.mode with
  | user => simp [State.returnFromTrap]
  | supervisor => simp [State.returnFromTrap]
  | machine => exact absurd hm hmode

/-- The exception that a cause register names, read back from its code (R174). -/
def TrapKind.ofCode : Nat → Option TrapKind
  | 0 => some .fetchMisaligned
  | 1 => some .fetchAccessFault
  | 2 => some .illegalInstruction
  | 4 => some .loadMisaligned
  | 5 => some .loadAccessFault
  | 6 => some .storeMisaligned
  | 7 => some .storeAccessFault
  | 12 => some .fetchPageFault
  | 13 => some .loadPageFault
  | 15 => some .storePageFault
  | _ => none

theorem ofCode_code (k : TrapKind) : TrapKind.ofCode k.code = some k := by
  cases k <;> rfl

/-- Settles O39: the table is that of the model, and a code that can be read back has one exception. -/
theorem causeCodes : Obligations.CauseCodes := by
  refine ⟨rfl, rfl, rfl, rfl, rfl, rfl, rfl, rfl, rfl, rfl, fun j k hcode => ?_⟩
  have hread : some j = some k := by rw [← ofCode_code j, hcode, ofCode_code]
  exact Option.some.inj hread

end Sys2Proof.Machine
end

section
/-! # O30: leaves that have A, and D where they are writable
A leaf that grants an access then lacks no bit it needs, so the scheme is never asked: not by an access, and not by what
the hart does of its own accord. -/

namespace Sys2Proof.Machine

/-! ## No scheme says which PTEs a walk reads -/

theorem walk_withScheme (s : State) (scheme : AdScheme) (va : Word) : (s.withScheme scheme).walk va = s.walk va := rfl

theorem State.Reaches.of_withScheme {s : State} {scheme : AdScheme} {level : Nat} {addr : PhysAddr}
    (h : (s.withScheme scheme).Reaches level addr) : s.Reaches level addr := by
  cases h with
  | root index => exact .root index
  | next top index hk => exact .next top index hk

section Preset
variable {s : State} (h : s.AdPreset)
include h

theorem State.AdPreset.withScheme (scheme : AdScheme) : (s.withScheme scheme).AdPreset :=
  fun level addr hr hleaf => h level addr hr.of_withScheme hleaf

/-! ## What a walk finds and answers -/

/-- The leaf that a walk finds is a reachable one (R202). -/
theorem State.AdPreset.bits_of_walk {va : Word} {lf : Leaf} (hw : s.walk va = .leaf lf) :
    pteA lf.pte = true ∧ (pteW lf.pte = true → pteD lf.pte = true) := by
  obtain ⟨-, hkind, hpte, -⟩ := walk_leaf hw
  have hleaf := isLeaf_of_kind hkind
  rw [hpte] at hleaf ⊢
  exact h _ _ (reaches_of_reads (reads_of_walk hw)) hleaf

/-- A leaf that grants a store is writable, and so has D (R102). -/
theorem State.AdPreset.needsUpdate_eq_false {va : Word} {lf : Leaf} (hw : s.walk va = .leaf lf) {t : AccessType}
    {p : Privilege} (hperm : s.leafPermits t p lf = true) (dirty : Bool) : needsUpdate t dirty lf.pte = false := by
  obtain ⟨hA, hD⟩ := h.bits_of_walk hw
  obtain ⟨hrwx, -⟩ := leafPermits_iff.1 hperm
  refine needsUpdate_eq_false_iff.2 ⟨hA, fun hstore _ => hD ?_⟩
  rwa [hstore] at hrwx

/-- The checks of the leaf decide alone: nothing is left for a scheme to say. -/
theorem State.AdPreset.useLeaf_eq {va : Word} {lf : Leaf} (hw : s.walk va = .leaf lf) (t : AccessType)
    (p : Privilege) (dirty : Bool) : s.useLeaf va t p dirty lf =
      if s.leafPermits t p lf = true then .done (leafAddr lf.level lf.pte va) else .pageFault := by
  split
  next hperm => exact useLeaf_done hperm (h.needsUpdate_eq_false hw hperm dirty) va
  next hperm => exact useLeaf_denied (Bool.eq_false_iff.2 hperm) va dirty

theorem State.AdPreset.translateByWalk_ne_update (va : Word) (t : AccessType) (p : Privilege) (dirty : Bool)
    (pa addr : PhysAddr) (pte : Word) : s.translateByWalk va t p dirty ≠ .update pa addr pte := by
  cases hmode : s.satp.mode with
  | bare => simp [State.translateByWalk, hmode]
  | sv32 =>
    rw [translateByWalk_sv32 hmode]
    cases hw : s.walk va with
    | pageFault => nofun
    | accessFault => nofun
    | leaf lf =>
      rw [useWalk_leaf, h.useLeaf_eq hw]
      split <;> nofun

/-- Whatever the scheme, the walk ends in the same leaf, and the leaf answers by the same checks (R203). -/
theorem State.AdPreset.translateByWalk_withScheme (va : Word) (t : AccessType) (p : Privilege) (dirty : Bool)
    (scheme : AdScheme) : (s.withScheme scheme).translateByWalk va t p dirty = s.translateByWalk va t p dirty := by
  cases hmode : s.satp.mode with
  | bare => simp only [State.translateByWalk, State.withScheme, hmode]
  | sv32 =>
    have hmode' : (s.withScheme scheme).satp.mode = .sv32 := hmode
    rw [translateByWalk_sv32 hmode, translateByWalk_sv32 hmode', walk_withScheme]
    cases hw : s.walk va with
    | pageFault => rfl
    | accessFault => rfl
    | leaf lf =>
      have hw' : (s.withScheme scheme).walk va = .leaf lf := hw
      rw [useWalk_leaf, useWalk_leaf, h.useLeaf_eq hw, (h.withScheme scheme).useLeaf_eq hw']
      rfl

/-- A speculative access finds A set in its leaf, so it has no update to make (R127). -/
theorem State.AdPreset.beforeStep_mem : s.beforeStep.mem = s.mem := by
  show s.speculate.mem = s.mem
  refine (speculate_induction (P := fun x => x.cfg = s.cfg ∧ x.satp = s.satp ∧ x.mem = s.mem) ⟨rfl, rfl, rfl⟩ ?_).2.2
  rintro x a ⟨hcfg, hsatp, hmem⟩
  rcases speculateOne_cases x a with ⟨l, hx⟩ | ⟨lf, l, -, -, hw, -, hclear, -⟩
  · rw [hx]
    exact ⟨hcfg, hsatp, hmem⟩
  · rw [walk_congr hcfg hsatp hmem] at hw
    rw [(h.bits_of_walk hw).1] at hclear
    cases hclear

end Preset

/-! ## Accesses -/

/-- An access that makes a PTE update is one whose translation asks for it (R131). -/
theorem translate_of_grant_updated {s s1 : State} {job : Option Instr} {va : Word} {n : Nat} {t : AccessType}
    {dirty checked : Bool} (h : s.grant job va n t dirty checked = .updated s1) :
    ∃ p pa addr pte, s.translate va t p dirty = .update pa addr pte := by
  rcases grant_cases s job va n t dirty checked with ⟨r, h'⟩ | ⟨k, l, -, h', -⟩ |
    ⟨p, pa, addr, pte, l, -, -, ht, -⟩ | ⟨p, pa, l, -, -, -, -, -, -, h'⟩
  · cases h.symm.trans h'
  · cases h.symm.trans h'
  · exact ⟨p, pa, addr, pte, ht⟩
  · cases h.symm.trans h'

/-- A hart without a cache translates by the walk in either mode (R38, R93). -/
theorem translate_of_no_cache {s : State} (h : s.cfg.translationCache = false) (va : Word) (t : AccessType)
    (p : Privilege) (dirty : Bool) : s.translate va t p dirty = s.translateByWalk va t p dirty := by
  cases hmode : s.satp.mode with
  | bare => exact translate_eq_of_bare hmode va t p dirty
  | sv32 => exact translate_of_walks ⟨hmode, h⟩ va t p dirty

/-- Settles O30: each of the two schemes translates as the state's own, no such translation is an update, and no
speculative access makes one. -/
theorem schemesAgreeWhenBitsPreset : Obligations.SchemesAgreeWhenBitsPreset := by
  refine fun s h => ⟨fun va t p dirty => ?_, fun job va n t dirty checked s1 hcache hg => ?_, h.beforeStep_mem⟩
  · rw [h.translateByWalk_withScheme, h.translateByWalk_withScheme]
  · obtain ⟨p, pa, addr, pte, ht⟩ := translate_of_grant_updated hg
    have hwalk : s.translate va t p dirty = s.translateByWalk va t p dirty := by
      rcases hcache with hoff | hagrees
      · exact translate_of_no_cache hoff va t p dirty
      · exact translate_of_agrees hagrees va t p dirty
    exact h.translateByWalk_ne_update va t p dirty pa addr pte (hwalk.symm.trans ht)

end Sys2Proof.Machine
end

section
/-! # O56: the launch state
Its memory is empty, so it holds no leaf PTE and no instruction, and no run from it ever executes one. -/

namespace Sys2Proof.Machine

/-! ## Empty memory -/

/-- Memory that lists no byte reads zero. -/
theorem physRead_nil (a : Nat) : physRead [] a 4 = 0#32 := by
  simp [physRead_word, Memory.read, unlistedByte, wordOfBytes]

theorem pteAt_of_empty {s : State} (h : s.mem = []) (addr : PhysAddr) : s.pteAt addr = 0#32 := by
  rw [State.pteAt, h, physRead_nil]

theorem not_isLeaf_of_empty {s : State} (h : s.mem = []) (addr : PhysAddr) : isLeaf (s.pteAt addr) ≠ true := by
  rw [pteAt_of_empty h]
  decide

/-- Tables without a leaf have no leaf with A or D clear. -/
theorem adPreset_of_empty {s : State} (h : s.mem = []) : s.AdPreset :=
  fun _ addr _ hleaf => absurd hleaf (not_isLeaf_of_empty h addr)

/-- Zero is the word of no instruction (R82). -/
theorem decodeWord_zero : decodeWord 0#32 = .error .notInTable := rfl

/-! ## A run on empty memory -/

/-- Nothing is in memory, and no instruction waits for its access. -/
def State.Idle (s : State) : Prop := s.mem = [] ∧ s.pending = none

section Idle
variable {s : State} (h : s.Idle)
include h

theorem State.Idle.beforeStep : s.beforeStep.Idle := by
  obtain ⟨hmem, hnone⟩ := h
  obtain ⟨-, -, -, -, -, hpending⟩ := beforeStep_fields s
  exact ⟨(adPreset_of_empty hmem).beforeStep_mem.trans hmem, hpending.trans hnone⟩

/-- No instruction is resumed, and the word that is fetched is none. -/
theorem State.Idle.not_executes (i : Instr) (b : State) : ¬s.Executes i b := by
  obtain ⟨hempty, -⟩ := h.beforeStep
  rintro (⟨va, pa, -, hq, -⟩ | ⟨a, -, -, -, hg, hd⟩)
  · rw [h.2] at hq
    cases hq
  · obtain ⟨-, -, -, -, -, hmem, -⟩ := granted_fields hg
    rw [hmem, hempty, physRead_nil, decodeWord_zero] at hd
    cases hd

theorem State.Idle.not_stores (x : Nat) : ¬s.Stores x := by
  rintro ⟨i, b, -, -, -, hrun, -⟩
  exact h.not_executes i b hrun

theorem State.Idle.of_step {t : State} (hstep : step s = .next t) : t.Idle := by
  refine step_induction hstep h.beforeStep ?refill ?trap ?update ?done
  case refill => exact fun c l _ ⟨hmem, _⟩ => ⟨hmem, rfl⟩
  case trap => exact fun c k v ⟨hmem, _⟩ => ⟨(takeTrap_mem ..).trans hmem, takeTrap_pending ..⟩
  case update =>
    rintro c t job va lf d hu ⟨hmem, -⟩
    have hleaf := isLeaf_of_kind hu.kind
    rw [hu.inMemory] at hleaf
    exact absurd hleaf (not_isLeaf_of_empty hmem lf.addr)
  case done => exact fun i c t hrun _ _ => absurd hrun (h.not_executes i c)

theorem State.Idle.of_runs {u : State} (hrun : Runs s u) : u.Idle := by
  induction hrun with
  | refl => exact h
  | next hstep _ ih => exact ih (h.of_step hstep)

end Idle

/-! ## The launch state -/

theorem launch_idle (c : Config) : (State.launch c).Idle := ⟨rfl, rfl⟩

theorem launch_inv (c : Config) : (State.launch c).Inv where
  memCanonical := rfl
  memInRange := nofun
  pcAligned := rfl
  pendingOffset := nofun

/-- The launch state is under Bare, so the premises on page tables ask nothing; and no run from it stores. -/
theorem launch_premises (c : Config) : (State.launch c).LaunchPremises [] where
  hart := ⟨nofun, rfl, rfl, rfl, rfl⟩
  rootInUse := nofun
  tablesObey := nofun
  globalsAgree := nofun
  staticTables := nofun
  staticCode := fun _ _ x hrun _ hstores => absurd hstores (((launch_idle c).of_runs hrun).not_stores x)

/-- Settles O56: the cache of the launch state is empty. -/
theorem launchMeetsInvariantAndPremises : Obligations.LaunchMeetsInvariantAndPremises :=
  fun c => ⟨launch_inv c, launch_premises c, nofun⟩

end Sys2Proof.Machine
end

section
/-! # O55: a hart without the "A" extension
Each instruction of the extension asks for it before it does anything else. -/

namespace Sys2Proof.Machine

/-- A hart that lacks the extension refuses whatever asks for it. -/
theorem withAtomics_off {s : State} (h : s.cfg.hasA = false) (run : Outcome) :
    withAtomics s run = .refused .atomicsAbsent := by
  simp [withAtomics, h]

/-- LR, SC and each of the AMOs ask for the extension first (R149-R159). -/
theorem exec_atomic (s : State) {i : Instr} (hi : Instr.isAtomic i = true) :
    ∃ run, exec i s = withAtomics s run := by
  cases i <;> cases hi
  all_goals exact ⟨_, rfl⟩

/-- Settles O55: the extension is asked for first, so neither the state nor the operands matter. -/
theorem atomicsNeedTheExtension : Obligations.AtomicsNeedTheExtension := by
  intro s i hoff hatomic
  obtain ⟨run, hrun⟩ := exec_atomic s hatomic
  exact hrun.trans (withAtomics_off hoff run)

end Sys2Proof.Machine
end
